-- ==== Sys2Proof/Word.lean ====
section
/-! DEFINITION. The word types of the hardware (00_scope.md R7 to R9). -/

namespace Sys2Proof

/-- A register's contents, an address, an ARM instruction word: 32 bits (R7, R20, R110). -/
abbrev Word := BitVec 32

/-- A Thumb instruction: 16 bits (R7, R110). -/
abbrev Half := BitVec 16

/-- One byte of memory or of a cache line (R60). -/
abbrev Byte := BitVec 8

end Sys2Proof
end

