-- ==== Sys2Proof/Config.lean ====
section
/-! DEFINITION. What is fixed when the core is constructed (00_scope.md R7, 10_state.md R40, R41).

The parameters the spec marks OPEN are plain data of the type `Config`, which a State carries in its field `cfg` and
which no step changes: a claim about every state is a claim about every value of the parameters (assumption 7). -/

namespace Sys2Proof

/-- The mapping policy of a cache (R40). -/
inductive Policy
  | direct
  | fullyAssociative
  deriving DecidableEq, Repr

/-- How a data-processing immediate is formed from `raw[11:0]` (R120, DP_IMM_MODE of R7). -/
inductive DpImmMode
  | imm8
  | imm12
  | rotated
  deriving DecidableEq, Repr

/-- The three caches (R43). `name` of a cache's configuration record (R40) is its level. -/
inductive Level
  | l1i
  | l1d
  | l2
  deriving DecidableEq, Repr

/-- A cache's configuration (R40): capacity in bytes, block size in bytes and policy.
The record's `name` is the `Level` it is filed under in `Config`, and its `lower` is fixed by the topology (R87). -/
structure CacheConfig where
  cap    : Nat
  bs     : Nat
  policy : Policy
  deriving DecidableEq, Repr

/-- The parameters fixed at construction (R7): MEM_SIZE, DP_IMM_MODE and the three cache configurations. -/
structure Config where
  memSize   : Nat
  dpImmMode : DpImmMode
  l1i       : CacheConfig
  l1d       : CacheConfig
  l2        : CacheConfig
  deriving DecidableEq, Repr

/-- The configuration of `State.reset`. DESIGN CHOICE (assumptions 3, 5, 6): the spec leaves every one of these OPEN.
MEM_SIZE is the whole 32-bit address space; the three caches are cfgA of 95_test_vectors.md; DP_IMM_MODE is `imm8`,
the spec's own default (R120). -/
def Config.default : Config where
  memSize   := 2 ^ 32
  dpImmMode := .imm8
  l1i       := { cap := 1024, bs := 16, policy := .direct }
  l1d       := { cap := 1024, bs := 16, policy := .fullyAssociative }
  l2        := { cap := 4096, bs := 64, policy := .direct }

/-- What a byte of main memory that the memory list does not list reads as. DESIGN CHOICE (assumption 4): MEM_INIT is
OPEN (R45, D14), and every test vector of 95_test_vectors.md takes it to be zero outside the bytes it names. -/
def Config.background : Byte := 0

end Sys2Proof
end

