-- ==== Sys2Proof/Syntax.lean ====
section
/-! DEFINITION. The instructions, one constructor for each row of spec/opcode_table.json and one for the Thumb halfwords
outside the one Thumb format (30_encoding.md R127), and the decoded record of 10_state.md R46.

A constructor keeps EVERY bit of the word it stands for, the ones no handler reads too (R123), because the decoded
record keeps `raw_word` (R46, R132): so the word can be written back from the instruction bit for bit. -/

namespace Sys2Proof

/-- A general register r0 to r15 (R20, R21). -/
abbrev Reg := Fin 16

/-- A register a Thumb word can name, r0 to r7 (R124). -/
abbrev LowReg := Fin 8

/-- An instruction word as the decoder is given it: its mode flag fixes its length (R110). -/
inductive Raw
  | arm   (w : Word)
  | thumb (h : Half)
  deriving DecidableEq, Repr

/-- Group 001, data processing with an immediate (R114, R115). `operand` is `raw[11:0]`, from which R120 forms `imm`. -/
structure DpImm where
  cond    : BitVec 4
  s       : Bool
  rn      : Reg
  rd      : Reg
  operand : BitVec 12
  deriving DecidableEq, Repr

/-- Group 000, data processing with a register (R114, R116). `shift` is `raw[11:4]`, which no handler reads. -/
structure DpReg where
  cond  : BitVec 4
  s     : Bool
  rn    : Reg
  rd    : Reg
  shift : BitVec 8
  rm    : Reg
  deriving DecidableEq, Repr

/-- Group 010, load and store (R118). The bits P, U, B and W are kept and not read (R123). -/
structure LoadStore where
  cond   : BitVec 4
  p      : Bool
  u      : Bool
  b      : Bool
  w      : Bool
  rn     : Reg
  rd     : Reg
  offset : BitVec 12
  deriving DecidableEq, Repr

/-- Group 101, branches (R119). -/
structure Branch where
  cond   : BitVec 4
  offset : BitVec 24
  deriving DecidableEq, Repr

/-- Groups 011, 100, 110 and 111 (R113, R128): the condition is recorded, `rest` is `raw[24:0]`. -/
structure ArmUnknown where
  cond : BitVec 4
  rest : BitVec 25
  deriving DecidableEq, Repr

/-- Thumb add/subtract, register (R124, I = 0). -/
structure ThumbReg where
  rm : LowReg
  rn : LowReg
  rd : LowReg
  deriving DecidableEq, Repr

/-- Thumb add/subtract, 3-bit immediate (R124, I = 1). -/
structure ThumbImm where
  imm : BitVec 3
  rn  : LowReg
  rd  : LowReg
  deriving DecidableEq, Repr

/-- The instructions. `<op>Imm` and `<op>Reg` are the ARM forms of groups 001 and 000. -/
inductive Instr
  | andImm (f : DpImm)
  | eorImm (f : DpImm)
  | subImm (f : DpImm)
  | rsbImm (f : DpImm)
  | addImm (f : DpImm)
  | adcImm (f : DpImm)
  | sbcImm (f : DpImm)
  | rscImm (f : DpImm)
  | tstImm (f : DpImm)
  | teqImm (f : DpImm)
  | cmpImm (f : DpImm)
  | cmnImm (f : DpImm)
  | orrImm (f : DpImm)
  | movImm (f : DpImm)
  | bicImm (f : DpImm)
  | mvnImm (f : DpImm)
  | andReg (f : DpReg)
  | eorReg (f : DpReg)
  | subReg (f : DpReg)
  | rsbReg (f : DpReg)
  | addReg (f : DpReg)
  | adcReg (f : DpReg)
  | sbcReg (f : DpReg)
  | rscReg (f : DpReg)
  | tstReg (f : DpReg)
  | teqReg (f : DpReg)
  | cmpReg (f : DpReg)
  | cmnReg (f : DpReg)
  | orrReg (f : DpReg)
  | movReg (f : DpReg)
  | bicReg (f : DpReg)
  | mvnReg (f : DpReg)
  | str (f : LoadStore)
  | ldr (f : LoadStore)
  | b (f : Branch)
  | bl (f : Branch)
  | unknown011 (f : ArmUnknown)
  | unknown100 (f : ArmUnknown)
  | unknown110 (f : ArmUnknown)
  | unknown111 (f : ArmUnknown)
  | thumbAddReg (f : ThumbReg)
  | thumbSubReg (f : ThumbReg)
  | thumbAddImm (f : ThumbImm)
  | thumbSubImm (f : ThumbImm)
  | thumbUnknown (raw : Half)
  deriving DecidableEq, Repr

/-- The class of a word (R46). -/
inductive OpType
  | dpImm
  | dpReg
  | loadStore
  | branch
  | unknown
  deriving DecidableEq, Repr

/-- The mnemonic tag of a decoded word (R46). -/
inductive OpCode
  | add | sub | rsb | adc | sbc | rsc | mov | and | orr | eor | bic | mvn
  | tst | teq | cmp | cmn | ldr | str | b | bl | unknown
  deriving DecidableEq, Repr

/-- The decoder's output record, field for field (R46). `none` is the spec's "absent". -/
structure DecodedInstruction where
  rawWord   : Raw
  isThumb   : Bool
  condition : Option (BitVec 4)
  opType    : OpType
  opCode    : OpCode
  rn        : Option Reg
  rd        : Option Reg
  rm        : Option Reg
  imm       : Option Int
  deriving DecidableEq, Repr

end Sys2Proof
end

