-- ==== Sys2Proof/WellFormed.lean ====
section
/-! DEFINITION. Which instruction terms stand for a word. Register numbers and field widths are bounded by their types,
so one check is left: a halfword of the Thumb add/subtract format is not UNKNOWN (30_encoding.md R127). -/

namespace Sys2Proof

/-- The instruction is the decoding of some word (R126, R127). -/
def Instr.wellFormed : Instr → Bool
  | .thumbUnknown raw => raw.extractLsb' 11 5 != 0b00011#5
  | .andImm _ | .eorImm _ | .subImm _ | .rsbImm _ | .addImm _ | .adcImm _ | .sbcImm _ | .rscImm _
  | .tstImm _ | .teqImm _ | .cmpImm _ | .cmnImm _ | .orrImm _ | .movImm _ | .bicImm _ | .mvnImm _
  | .andReg _ | .eorReg _ | .subReg _ | .rsbReg _ | .addReg _ | .adcReg _ | .sbcReg _ | .rscReg _
  | .tstReg _ | .teqReg _ | .cmpReg _ | .cmnReg _ | .orrReg _ | .movReg _ | .bicReg _ | .mvnReg _
  | .str _ | .ldr _ | .b _ | .bl _
  | .unknown011 _ | .unknown100 _ | .unknown110 _ | .unknown111 _
  | .thumbAddReg _ | .thumbSubReg _ | .thumbAddImm _ | .thumbSubImm _ => true

end Sys2Proof
end

