-- ==== Sys2Proof/Decode.lean ====
section
/-! DEFINITION. The decoder (30_encoding.md R110 to R131), the decoded record (10_state.md R46), and after them the
encoder. The field positions are those of R113 to R119 and R124, which the spec supplies from the standard ARM and Thumb
layout (assumption 16).

The decoder is total and never fails (R111): a word outside the opcode table decodes to an UNKNOWN constructor. What
can be refused is a byte sequence too short to hold an instruction (`decodeBytes`). -/

namespace Sys2Proof

/-- `w[lo+len-1:lo]`, the field of `len` bits from bit `lo` up (R8). -/
def field {n : Nat} (w : BitVec n) (lo len : Nat) : BitVec len := w.extractLsb' lo len

/-- `w[i]` (R8). -/
def bit {n : Nat} (w : BitVec n) (i : Nat) : Bool := w.getLsbD i

/-- The register a 4-bit field names (R22). -/
def regOf (b : BitVec 4) : Reg := b.toFin

/-- The register a 3-bit field of a Thumb word names (R124). -/
def lowRegOf (b : BitVec 3) : LowReg := b.toFin

/-- The bits of a register field. -/
def regBits (r : Reg) : BitVec 4 := BitVec.ofNat 4 r.val

/-- The bits of a register field of a Thumb word. -/
def lowRegBits (r : LowReg) : BitVec 3 := BitVec.ofNat 3 r.val

/-! ### Immediates -/

/-- The DP_IMM immediate (R120): `operand` is `raw[11:0]`, `operand[11:8]` the rotate field, `operand[7:0]` imm8. -/
def dpImmediate (mode : DpImmMode) (operand : BitVec 12) : Word :=
  match mode with
  | .imm8    => (field operand 0 8).zeroExtend 32
  | .imm12   => operand.zeroExtend 32
  | .rotated => ((field operand 0 8).zeroExtend 32).rotateRight (2 * (field operand 8 4).toNat)

/-- The load/store offset (R121): `zext_12(raw[11:0])`. -/
def loadStoreOffset (offset : BitVec 12) : Word := offset.zeroExtend 32

/-- The branch offset in bytes (R122): `4 * sext_24(raw[23:0])`. -/
def branchOffset (offset : BitVec 24) : Int := 4 * offset.toInt

/-- The Thumb immediate (R125): `zext_3(raw[8:6])`. -/
def thumbImmediate (imm : BitVec 3) : Word := imm.zeroExtend 32

/-! ### ARM decode -/

/-- The fields of a group 001 word (R114, R115). -/
def dpImmFields (w : Word) : DpImm where
  cond    := field w 28 4
  s       := bit w 20
  rn      := regOf (field w 16 4)
  rd      := regOf (field w 12 4)
  operand := field w 0 12

/-- The fields of a group 000 word (R114, R116). -/
def dpRegFields (w : Word) : DpReg where
  cond  := field w 28 4
  s     := bit w 20
  rn    := regOf (field w 16 4)
  rd    := regOf (field w 12 4)
  shift := field w 4 8
  rm    := regOf (field w 0 4)

/-- The fields of a group 010 word (R118). -/
def loadStoreFields (w : Word) : LoadStore where
  cond   := field w 28 4
  p      := bit w 24
  u      := bit w 23
  b      := bit w 22
  w      := bit w 21
  rn     := regOf (field w 16 4)
  rd     := regOf (field w 12 4)
  offset := field w 0 12

/-- The fields of a group 101 word (R119). -/
def branchFields (w : Word) : Branch where
  cond   := field w 28 4
  offset := field w 0 24

/-- The fields of a word of group 011, 100, 110 or 111 (R128). -/
def armUnknownFields (w : Word) : ArmUnknown where
  cond := field w 28 4
  rest := field w 0 25

/-- The opcode lookup table of R117 for group 000, on the number `raw[24:21]` (the last pattern is 15). -/
def dpRegInstr (opcode : Nat) (f : DpReg) : Instr :=
  match opcode with
  | 0  => .andReg f
  | 1  => .eorReg f
  | 2  => .subReg f
  | 3  => .rsbReg f
  | 4  => .addReg f
  | 5  => .adcReg f
  | 6  => .sbcReg f
  | 7  => .rscReg f
  | 8  => .tstReg f
  | 9  => .teqReg f
  | 10 => .cmpReg f
  | 11 => .cmnReg f
  | 12 => .orrReg f
  | 13 => .movReg f
  | 14 => .bicReg f
  | _  => .mvnReg f

/-- The opcode lookup table of R117 for group 001, on the number `raw[24:21]` (the last pattern is 15). -/
def dpImmInstr (opcode : Nat) (f : DpImm) : Instr :=
  match opcode with
  | 0  => .andImm f
  | 1  => .eorImm f
  | 2  => .subImm f
  | 3  => .rsbImm f
  | 4  => .addImm f
  | 5  => .adcImm f
  | 6  => .sbcImm f
  | 7  => .rscImm f
  | 8  => .tstImm f
  | 9  => .teqImm f
  | 10 => .cmpImm f
  | 11 => .cmnImm f
  | 12 => .orrImm f
  | 13 => .movImm f
  | 14 => .bicImm f
  | _  => .mvnImm f

/-- ARM decode (R126): the group selector `raw[27:25]` alone chooses the class (R113; the last pattern is group 111). -/
def decodeArm (w : Word) : Instr :=
  match (field w 25 3).toNat with
  | 0 => dpRegInstr (field w 21 4).toNat (dpRegFields w)
  | 1 => dpImmInstr (field w 21 4).toNat (dpImmFields w)
  | 2 => if bit w 20 then .ldr (loadStoreFields w) else .str (loadStoreFields w)
  | 3 => .unknown011 (armUnknownFields w)
  | 4 => .unknown100 (armUnknownFields w)
  | 5 => if bit w 24 then .bl (branchFields w) else .b (branchFields w)
  | 6 => .unknown110 (armUnknownFields w)
  | _ => .unknown111 (armUnknownFields w)

/-! ### Thumb decode -/

/-- The fields of a Thumb add/subtract with a register (R124). -/
def thumbRegFields (h : Half) : ThumbReg where
  rm := lowRegOf (field h 6 3)
  rn := lowRegOf (field h 3 3)
  rd := lowRegOf (field h 0 3)

/-- The fields of a Thumb add/subtract with an immediate (R124, R125). -/
def thumbImmFields (h : Half) : ThumbImm where
  imm := field h 6 3
  rn  := lowRegOf (field h 3 3)
  rd  := lowRegOf (field h 0 3)

/-- Thumb decode (R127). -/
def decodeThumb (h : Half) : Instr :=
  if field h 11 5 = 0b00011#5 then
    if bit h 10 then
      if bit h 9 then .thumbSubImm (thumbImmFields h) else .thumbAddImm (thumbImmFields h)
    else
      if bit h 9 then .thumbSubReg (thumbRegFields h) else .thumbAddReg (thumbRegFields h)
  else .thumbUnknown h

/-- The decoder (R111): the mode flag comes with the raw word. -/
def decode : Raw → Instr
  | .arm w   => decodeArm w
  | .thumb h => decodeThumb h

/-! ### Decoding bytes -/

/-- Why a byte sequence holds no instruction. -/
inductive DecodeError
  /-- Fewer bytes than one instruction of the mode (R110). Safe: nothing is decoded. -/
  | truncated
  deriving DecidableEq, Repr

/-- Four bytes as a word, the first the least significant (R10 `le32`, R63). -/
def le32 (b0 b1 b2 b3 : Byte) : Word := b3 ++ b2 ++ b1 ++ b0

/-- Two bytes as a halfword, the first the least significant (R63). -/
def le16 (b0 b1 : Byte) : Half := b1 ++ b0

/-- The instruction at the head of a byte sequence, in ascending address order, and the bytes after it (R63, R110). -/
def decodeBytes (thumb : Bool) (bytes : List Byte) : Except DecodeError (Instr × List Byte) :=
  match thumb, bytes with
  | true,  b0 :: b1 :: rest             => .ok (decodeThumb (le16 b0 b1), rest)
  | false, b0 :: b1 :: b2 :: b3 :: rest => .ok (decodeArm (le32 b0 b1 b2 b3), rest)
  | true,  _                            => .error .truncated
  | false, _                            => .error .truncated

/-! ### The encoder (R112 to R119, R124): the fields joined at the same positions. -/

/-- A group 001 word (R114, R115). -/
def encodeDpImm (opcode : BitVec 4) (f : DpImm) : Word :=
  f.cond ++ 0b001#3 ++ opcode ++ BitVec.ofBool f.s ++ regBits f.rn ++ regBits f.rd ++ f.operand

/-- A group 000 word (R114, R116). -/
def encodeDpReg (opcode : BitVec 4) (f : DpReg) : Word :=
  f.cond ++ 0b000#3 ++ opcode ++ BitVec.ofBool f.s ++ regBits f.rn ++ regBits f.rd ++ f.shift ++ regBits f.rm

/-- A group 010 word (R118). -/
def encodeLoadStore (load : Bool) (f : LoadStore) : Word :=
  f.cond ++ 0b010#3 ++ BitVec.ofBool f.p ++ BitVec.ofBool f.u ++ BitVec.ofBool f.b ++ BitVec.ofBool f.w
    ++ BitVec.ofBool load ++ regBits f.rn ++ regBits f.rd ++ f.offset

/-- A group 101 word (R119). -/
def encodeBranch (link : Bool) (f : Branch) : Word :=
  f.cond ++ 0b101#3 ++ BitVec.ofBool link ++ f.offset

/-- A word of group 011, 100, 110 or 111 (R128). -/
def encodeArmUnknown (group : BitVec 3) (f : ArmUnknown) : Word := f.cond ++ group ++ f.rest

/-- A Thumb add/subtract with a register (R124, I = 0). -/
def encodeThumbReg (op : Bool) (f : ThumbReg) : Half :=
  0b00011#5 ++ 0b0#1 ++ BitVec.ofBool op ++ lowRegBits f.rm ++ lowRegBits f.rn ++ lowRegBits f.rd

/-- A Thumb add/subtract with an immediate (R124, I = 1). -/
def encodeThumbImm (op : Bool) (f : ThumbImm) : Half :=
  0b00011#5 ++ 0b1#1 ++ BitVec.ofBool op ++ f.imm ++ lowRegBits f.rn ++ lowRegBits f.rd

/-- The word of an instruction, its `raw_word` (R46, R132). -/
def encode : Instr → Raw
  | .andImm f => .arm (encodeDpImm 0b0000#4 f)
  | .eorImm f => .arm (encodeDpImm 0b0001#4 f)
  | .subImm f => .arm (encodeDpImm 0b0010#4 f)
  | .rsbImm f => .arm (encodeDpImm 0b0011#4 f)
  | .addImm f => .arm (encodeDpImm 0b0100#4 f)
  | .adcImm f => .arm (encodeDpImm 0b0101#4 f)
  | .sbcImm f => .arm (encodeDpImm 0b0110#4 f)
  | .rscImm f => .arm (encodeDpImm 0b0111#4 f)
  | .tstImm f => .arm (encodeDpImm 0b1000#4 f)
  | .teqImm f => .arm (encodeDpImm 0b1001#4 f)
  | .cmpImm f => .arm (encodeDpImm 0b1010#4 f)
  | .cmnImm f => .arm (encodeDpImm 0b1011#4 f)
  | .orrImm f => .arm (encodeDpImm 0b1100#4 f)
  | .movImm f => .arm (encodeDpImm 0b1101#4 f)
  | .bicImm f => .arm (encodeDpImm 0b1110#4 f)
  | .mvnImm f => .arm (encodeDpImm 0b1111#4 f)
  | .andReg f => .arm (encodeDpReg 0b0000#4 f)
  | .eorReg f => .arm (encodeDpReg 0b0001#4 f)
  | .subReg f => .arm (encodeDpReg 0b0010#4 f)
  | .rsbReg f => .arm (encodeDpReg 0b0011#4 f)
  | .addReg f => .arm (encodeDpReg 0b0100#4 f)
  | .adcReg f => .arm (encodeDpReg 0b0101#4 f)
  | .sbcReg f => .arm (encodeDpReg 0b0110#4 f)
  | .rscReg f => .arm (encodeDpReg 0b0111#4 f)
  | .tstReg f => .arm (encodeDpReg 0b1000#4 f)
  | .teqReg f => .arm (encodeDpReg 0b1001#4 f)
  | .cmpReg f => .arm (encodeDpReg 0b1010#4 f)
  | .cmnReg f => .arm (encodeDpReg 0b1011#4 f)
  | .orrReg f => .arm (encodeDpReg 0b1100#4 f)
  | .movReg f => .arm (encodeDpReg 0b1101#4 f)
  | .bicReg f => .arm (encodeDpReg 0b1110#4 f)
  | .mvnReg f => .arm (encodeDpReg 0b1111#4 f)
  | .str f => .arm (encodeLoadStore false f)
  | .ldr f => .arm (encodeLoadStore true f)
  | .b f => .arm (encodeBranch false f)
  | .bl f => .arm (encodeBranch true f)
  | .unknown011 f => .arm (encodeArmUnknown 0b011#3 f)
  | .unknown100 f => .arm (encodeArmUnknown 0b100#3 f)
  | .unknown110 f => .arm (encodeArmUnknown 0b110#3 f)
  | .unknown111 f => .arm (encodeArmUnknown 0b111#3 f)
  | .thumbAddReg f => .thumb (encodeThumbReg false f)
  | .thumbSubReg f => .thumb (encodeThumbReg true f)
  | .thumbAddImm f => .thumb (encodeThumbImm false f)
  | .thumbSubImm f => .thumb (encodeThumbImm true f)
  | .thumbUnknown raw => .thumb raw

/-! ### The decoded record (R46, R126 to R128) -/

/-- The record of a group 001 word (R126). -/
def dpImmRecord (mode : DpImmMode) (raw : Raw) (op : OpCode) (f : DpImm) : DecodedInstruction where
  rawWord := raw
  isThumb := false
  condition := some f.cond
  opType := .dpImm
  opCode := op
  rn := some f.rn
  rd := some f.rd
  rm := none
  imm := some (dpImmediate mode f.operand).toNat

/-- The record of a group 000 word (R126). -/
def dpRegRecord (raw : Raw) (op : OpCode) (f : DpReg) : DecodedInstruction where
  rawWord := raw
  isThumb := false
  condition := some f.cond
  opType := .dpReg
  opCode := op
  rn := some f.rn
  rd := some f.rd
  rm := some f.rm
  imm := none

/-- The record of a group 010 word (R126). -/
def loadStoreRecord (raw : Raw) (op : OpCode) (f : LoadStore) : DecodedInstruction where
  rawWord := raw
  isThumb := false
  condition := some f.cond
  opType := .loadStore
  opCode := op
  rn := some f.rn
  rd := some f.rd
  rm := none
  imm := some (loadStoreOffset f.offset).toNat

/-- The record of a group 101 word (R126). -/
def branchRecord (raw : Raw) (op : OpCode) (f : Branch) : DecodedInstruction where
  rawWord := raw
  isThumb := false
  condition := some f.cond
  opType := .branch
  opCode := op
  rn := none
  rd := none
  rm := none
  imm := some (branchOffset f.offset)

/-- The record of an UNKNOWN word (R128): the condition is set for ARM and absent for Thumb. -/
def unknownRecord (raw : Raw) (isThumb : Bool) (condition : Option (BitVec 4)) : DecodedInstruction where
  rawWord := raw
  isThumb := isThumb
  condition := condition
  opType := .unknown
  opCode := .unknown
  rn := none
  rd := none
  rm := none
  imm := none

/-- The record of a Thumb add/subtract with a register (R127). -/
def thumbRegRecord (raw : Raw) (op : OpCode) (f : ThumbReg) : DecodedInstruction where
  rawWord := raw
  isThumb := true
  condition := none
  opType := .dpReg
  opCode := op
  rn := some (f.rn.castLE (by decide))
  rd := some (f.rd.castLE (by decide))
  rm := some (f.rm.castLE (by decide))
  imm := none

/-- The record of a Thumb add/subtract with an immediate (R127). -/
def thumbImmRecord (raw : Raw) (op : OpCode) (f : ThumbImm) : DecodedInstruction where
  rawWord := raw
  isThumb := true
  condition := none
  opType := .dpImm
  opCode := op
  rn := some (f.rn.castLE (by decide))
  rd := some (f.rd.castLE (by decide))
  rm := none
  imm := some (thumbImmediate f.imm).toNat

/-- The decoded record of an instruction (R46), under a value of DP_IMM_MODE (R120). -/
def Instr.record (mode : DpImmMode) (i : Instr) : DecodedInstruction :=
  match i with
  | .andImm f => dpImmRecord mode (encode i) .and f
  | .eorImm f => dpImmRecord mode (encode i) .eor f
  | .subImm f => dpImmRecord mode (encode i) .sub f
  | .rsbImm f => dpImmRecord mode (encode i) .rsb f
  | .addImm f => dpImmRecord mode (encode i) .add f
  | .adcImm f => dpImmRecord mode (encode i) .adc f
  | .sbcImm f => dpImmRecord mode (encode i) .sbc f
  | .rscImm f => dpImmRecord mode (encode i) .rsc f
  | .tstImm f => dpImmRecord mode (encode i) .tst f
  | .teqImm f => dpImmRecord mode (encode i) .teq f
  | .cmpImm f => dpImmRecord mode (encode i) .cmp f
  | .cmnImm f => dpImmRecord mode (encode i) .cmn f
  | .orrImm f => dpImmRecord mode (encode i) .orr f
  | .movImm f => dpImmRecord mode (encode i) .mov f
  | .bicImm f => dpImmRecord mode (encode i) .bic f
  | .mvnImm f => dpImmRecord mode (encode i) .mvn f
  | .andReg f => dpRegRecord (encode i) .and f
  | .eorReg f => dpRegRecord (encode i) .eor f
  | .subReg f => dpRegRecord (encode i) .sub f
  | .rsbReg f => dpRegRecord (encode i) .rsb f
  | .addReg f => dpRegRecord (encode i) .add f
  | .adcReg f => dpRegRecord (encode i) .adc f
  | .sbcReg f => dpRegRecord (encode i) .sbc f
  | .rscReg f => dpRegRecord (encode i) .rsc f
  | .tstReg f => dpRegRecord (encode i) .tst f
  | .teqReg f => dpRegRecord (encode i) .teq f
  | .cmpReg f => dpRegRecord (encode i) .cmp f
  | .cmnReg f => dpRegRecord (encode i) .cmn f
  | .orrReg f => dpRegRecord (encode i) .orr f
  | .movReg f => dpRegRecord (encode i) .mov f
  | .bicReg f => dpRegRecord (encode i) .bic f
  | .mvnReg f => dpRegRecord (encode i) .mvn f
  | .str f => loadStoreRecord (encode i) .str f
  | .ldr f => loadStoreRecord (encode i) .ldr f
  | .b f => branchRecord (encode i) .b f
  | .bl f => branchRecord (encode i) .bl f
  | .unknown011 f => unknownRecord (encode i) false (some f.cond)
  | .unknown100 f => unknownRecord (encode i) false (some f.cond)
  | .unknown110 f => unknownRecord (encode i) false (some f.cond)
  | .unknown111 f => unknownRecord (encode i) false (some f.cond)
  | .thumbAddReg f => thumbRegRecord (encode i) .add f
  | .thumbSubReg f => thumbRegRecord (encode i) .sub f
  | .thumbAddImm f => thumbImmRecord (encode i) .add f
  | .thumbSubImm f => thumbImmRecord (encode i) .sub f
  | .thumbUnknown _ => unknownRecord (encode i) true none

/-- The decoder of the spec, `Decode(raw, mode)` with its record (R111, R126, R127). -/
def decodeRecord (mode : DpImmMode) (raw : Raw) : DecodedInstruction := (decode raw).record mode

/-! ### The opcode table's words -/

/-- The word of `nbits` bits that the opcode table numbers `w` (bit 0 the least significant): rows of at most 16 bits
are Thumb halfwords, the others ARM words (assumption 10). -/
def tableRaw (nbits w : Nat) : Raw :=
  if nbits ≤ 16 then .thumb (BitVec.ofNat 16 w) else .arm (BitVec.ofNat 32 w)

/-- What the decoder reads from an instruction whose bits are `w`, numbered as the opcode table numbers them. The word
is laid out in little-endian bytes as the hardware stores it (R63) and read back from them. -/
def decodeTableWord (nbits w : Nat) : Option Instr :=
  let bytes : List Byte :=
    match tableRaw nbits w with
    | .arm a   => [field a 0 8, field a 8 8, field a 16 8, field a 24 8]
    | .thumb h => [field h 0 8, field h 8 8]
  match decodeBytes (nbits ≤ 16) bytes with
  | .ok (i, _) => some i
  | .error _   => none

end Sys2Proof
end

