-- ==== Sys2Proof/Machine/State.lean ====
section
/-! DEFINITION. The state of the core (10_state.md, 20_memory.md), the reasons a step stops, and the state after reset.

All of it is plain data. The register file, the flags and `thumbMode` are the CPU state (R47); the three caches and main
memory are the hierarchy (R43); `cfg` holds the parameters fixed at construction (R40, never written by a step);
`surfaced` is the model's own field: what the last executed record reported to the host (assumption 8). -/

namespace Sys2Proof.Machine

/-- Main memory as address and byte pairs, addresses strictly rising, no byte equal to `Config.background` (R42, R45). -/
abbrev Memory := List Host.Cell

/-- The canonical form of a memory. -/
abbrev Memory.wf (m : Memory) : Prop :=
  m.Pairwise (fun x y => x.1 < y.1) ∧ ∀ x ∈ m, x.2 ≠ Config.background

/-- A cache line (R38). -/
structure Line where
  valid   : Bool
  dirty   : Bool
  tag     : Nat
  data    : List Byte
  recency : Nat
  deriving DecidableEq, Repr

/-- A cache: its lines by slot and its three counters (R39). -/
structure Cache where
  lines      : List Line
  hits       : Nat
  misses     : Nat
  writeBacks : Nat
  deriving DecidableEq, Repr

/-- The envelope's report (R56): the registers whose value changed, in ascending order, and for a load or store the
address with its old and new word if they differ. -/
structure ChangeReport where
  regs : List Reg
  word : Option (Word × Word × Word)
  deriving DecidableEq, Repr

/-- What the last executed record reported to the host (R11, R56, R203): nothing yet, the non-fatal diagnostic
`UnknownOpcode`, or the envelope's report. -/
inductive Surfaced
  | nothing
  | unknownOpcode (raw : Raw)
  | changed (report : ChangeReport)
  deriving DecidableEq, Repr

/-- The state of the core. `regs` is r0 to r15, r15 being the program counter (R20, R21, C14); `n`, `z`, `c`, `v` are the
flags (R30); `thumbMode` is the mode bit (R35); `l1i`, `l1d`, `l2` and `mem` are the hierarchy (R43). -/
structure State where
  cfg       : Config
  regs      : Vector Word 16
  n         : Bool
  z         : Bool
  c         : Bool
  v         : Bool
  thumbMode : Bool
  l1i       : Cache
  l1d       : Cache
  l2        : Cache
  mem       : Memory
  surfaced  : Surfaced
  deriving DecidableEq, Repr

/-- The fatal faults (R201, R202). Each carries the information R202 records and `left`, the state left at the raise
(R210): the registers, flags, pc and data view of before the instruction, the caches and counters as the rules left them. -/
inductive Fault
  /-- Raised by a main-memory request that names a byte at or above MEM_SIZE (R61, R62, R205). The spec's own fault; safe. -/
  | outOfBounds (addr len : Nat) (left : State)
  /-- Raised by a CPU access at an address that is not a multiple of 4, and by a Thumb fetch at an odd pc (R65, R207).
  The spec's own fault; safe. -/
  | alignmentFault (addr : Word) (left : State)
  /-- Raised by EOR and TEQ in the DP_IMM form (R159, R208). The spec's own fault; safe. -/
  | operandAbsent (raw : Word) (left : State)
  deriving DecidableEq, Repr

/-- The reasons the model refuses an instruction. -/
inductive Refusal
  /-- An instruction that has no meaning yet, by its mnemonic. Raised by no arm of `exec`; safe. -/
  | notModelled (mnemonic : String)
  deriving DecidableEq, Repr

/-- A step's outcome. The spec's `Diag(d, s')` is a next state whose `surfaced` holds d (R11, assumption 8). -/
abbrev Result := Host.Outcome State Fault Refusal

/-- A line at construction: invalid, clean, tag 0, `bs` zero bytes, recency 0 (R44). -/
def Line.reset (bs : Nat) : Line :=
  { valid := false, dirty := false, tag := 0, data := List.replicate bs 0, recency := 0 }

/-- A cache of `n` lines of `bs` bytes at construction (R44). -/
def Cache.reset (n bs : Nat) : Cache :=
  { lines := List.replicate n (Line.reset bs), hits := 0, misses := 0, writeBacks := 0 }

/-- The machine right after reset (R232), for the launch parameters of assumptions 1 to 6: the configuration
`Config.default`, REG_INIT all zero, THUMB_INIT false and MEM_INIT all zero. `pc` and the flags are 0 and every line is
invalid and clean, as the spec says (R28, R34, R44). -/
def State.reset : State where
  cfg       := Config.default
  regs      := Vector.replicate 16 0
  n         := false
  z         := false
  c         := false
  v         := false
  thumbMode := false
  l1i       := Cache.reset 64 16
  l1d       := Cache.reset 64 16
  l2        := Cache.reset 64 64
  mem       := []
  surfaced  := .nothing

end Sys2Proof.Machine
end

