-- ==== Sys2Proof/Machine/Ops.lean ====
section
/-! DEFINITION. The named operations over registers (10_state.md R20 to R29) and over the bytes of main memory
(20_memory.md R60 to R63).

The core has no exception mechanism: no vector, no saved status, no return (60_exceptions.md R200, R211). So taking an
exception is no operation here; a fatal fault ends the run (R201) as a step's `fault` outcome. -/

namespace Sys2Proof.Machine

/-! ### Registers -/

/-- The register number of the program counter (R21). -/
def pcReg : Reg := 15

/-- The register number of the link register (R21). -/
def lrReg : Reg := 14

/-- `x[r]` (R10, R22). -/
def State.reg (s : State) (r : Reg) : Word := s.regs[r]

/-- `x[r] <- v` (R10, R23); r15 included (R22). -/
def State.setReg (s : State) (r : Reg) (v : Word) : State := { s with regs := s.regs.set r v }

/-- `pc`, which is `x[15]` (R26). -/
def State.pc (s : State) : Word := s.reg pcReg

/-- `pc <- t` (R10). -/
def State.setPc (s : State) (t : Word) : State := s.setReg pcReg t

/-! ### Bytes -/

/-- The bytes of a word, least significant first (R10 `bytes_le32`). -/
def bytesLe32 (v : Word) : List Byte := [field v 0 8, field v 8 8, field v 16 8, field v 24 8]

/-- The bytes of a halfword, least significant first (R63). -/
def bytesLe16 (h : Half) : List Byte := [field h 0 8, field h 8 8]

/-- The first four bytes of a sequence as a little-endian word (R10 `le32`). -/
def wordOfBytes (b : List Byte) : Word := le32 (b.getD 0 0) (b.getD 1 0) (b.getD 2 0) (b.getD 3 0)

/-! ### Main memory -/

/-- The byte at an address (R42); an address the list does not hold reads as `Config.background` (assumption 4). -/
def Memory.readByte : Memory → Nat → Byte
  | [], _ => Config.background
  | (k, b) :: rest, a => if k = a then b else Memory.readByte rest a

/-- A list with (a, b) in front, unless b is what an unlisted address reads as. -/
def Memory.consByte (a : Nat) (b : Byte) (rest : Memory) : Memory :=
  if b = Config.background then rest else (a, b) :: rest

/-- `mem[a] <- b`, keeping the canonical form. -/
def Memory.writeByte : Memory → Nat → Byte → Memory
  | [], a, b => Memory.consByte a b []
  | (k, x) :: rest, a, b =>
    if a < k then Memory.consByte a b ((k, x) :: rest)
    else if a = k then Memory.consByte a b rest
    else (k, x) :: Memory.writeByte rest a b

/-- `(mem[a], …, mem[a+k-1])`. -/
def Memory.readBytes (m : Memory) (a : Nat) : Nat → List Byte
  | 0 => []
  | k + 1 => m.readByte a :: Memory.readBytes m (a + 1) k

/-- `mem[a+i] <- b[i]` for every i. -/
def Memory.writeBytes (m : Memory) (a : Nat) : List Byte → Memory
  | [] => m
  | b :: rest => Memory.writeBytes (m.writeByte a b) (a + 1) rest

end Sys2Proof.Machine
end

