-- ==== Sys2Proof/Machine/Flags.lean ====
section
/-! DEFINITION. The flags (10_state.md R30 to R34, 40_data_processing.md R141). N and Z come from the wrapped result
(90_conflicts.md C2); C and V are written by nothing (R33), so this is the only flag computation. -/

namespace Sys2Proof.Machine

/-- `N <- res[31]` (R141). -/
def flagN (res : Word) : Bool := bit res 31

/-- `Z <- (res = 0)` (R141). -/
def flagZ (res : Word) : Bool := res == 0

/-- The flags after a data-processing handler whose result is `res` (R141). -/
def State.setNZ (s : State) (res : Word) : State := { s with n := flagN res, z := flagZ res }

end Sys2Proof.Machine
end

