-- ==== Sys2Proof/Machine/Geometry.lean ====
section
/-! DEFINITION. The geometry of a cache: its derived widths (10_state.md R41), the construction check (20_memory.md R66),
the decomposition of an address (R68), a line's block address (R74) and the segments of a request (R78). -/

namespace Sys2Proof.Machine

/-- `n`, the line count (R41). -/
def lineCount (C : CacheConfig) : Nat := C.cap / C.bs

/-- `ob`, the offset bits (R41). -/
def offsetBits (C : CacheConfig) : Nat := C.bs.log2

/-- `ib`, the index bits (R41); `log2 0 = 0`, so a zero-line cache has none. -/
def indexBits (C : CacheConfig) : Nat :=
  match C.policy with
  | .direct           => (lineCount C).log2
  | .fullyAssociative => 0

/-- `tb`, the tag bits (R41). -/
def tagBits (C : CacheConfig) : Nat :=
  match C.policy with
  | .direct           => 32 - indexBits C - offsetBits C
  | .fullyAssociative => 32 - offsetBits C

/-! ### The construction check -/

/-- The four checks of R66, in the rule's order. -/
inductive ConfigCheck
  | blockSize
  | capacityDivisible
  | lineCount
  | capacityLimit
  deriving DecidableEq, Repr

/-- `n` is a power of two. -/
def isPowerOfTwo (n : Nat) : Bool := n == 2 ^ n.log2

/-- The first check of R66 that a cache configuration fails, if any. -/
def checkCache (C : CacheConfig) : Option ConfigCheck :=
  if !(isPowerOfTwo C.bs && decide (4 ≤ C.bs)) then some .blockSize
  else if C.cap % C.bs ≠ 0 then some .capacityDivisible
  else if C.policy = .direct ∧ 1 ≤ lineCount C ∧ !isPowerOfTwo (lineCount C) then some .lineCount
  else if 2 ^ 32 < C.cap then some .capacityLimit
  else none

/-- A cache configuration from the configuration surface's kilobytes (R40, D17). -/
def cacheConfigOfKilobytes (kilobytes bs : Nat) (policy : Policy) : CacheConfig :=
  { cap := 1024 * kilobytes, bs := bs, policy := policy }

/-! ### Addresses -/

/-- `off` of R68. -/
def offsetOf (C : CacheConfig) (a : Nat) : Nat := a &&& (C.bs - 1)

/-- `idx` of R68. -/
def indexOf (C : CacheConfig) (a : Nat) : Nat :=
  match C.policy with
  | .direct           => (a >>> offsetBits C) &&& (lineCount C - 1)
  | .fullyAssociative => 0

/-- `tag` of R68. -/
def tagOf (C : CacheConfig) (a : Nat) : Nat :=
  match C.policy with
  | .direct           => a >>> (offsetBits C + indexBits C)
  | .fullyAssociative => a >>> offsetBits C

/-- The block address of a valid line with this tag in this slot (R74). -/
def lineAddr (C : CacheConfig) (slot tag : Nat) : Nat :=
  match C.policy with
  | .direct           => (tag <<< (offsetBits C + indexBits C)) ||| (slot <<< offsetBits C)
  | .fullyAssociative => tag <<< offsetBits C

/-- The segments of the range from `p` to `e`, at most `fuel` of them (R78). -/
def segmentsFrom (bs : Nat) : Nat → Nat → Nat → List (Nat × Nat)
  | 0, _, _ => []
  | fuel + 1, p, e =>
    if p < e then
      let q := min (p - p % bs + bs) e
      (p, q - p) :: segmentsFrom bs fuel q e
    else []

/-- The segments of a request `[a, a+k)`: one per block touched, as (address, length), in ascending order (R78). -/
def segments (C : CacheConfig) (a k : Nat) : List (Nat × Nat) := segmentsFrom C.bs k a (a + k)

end Sys2Proof.Machine
end

