-- ==== Sys2Proof/Machine/Cache.lean ====
section
/-! DEFINITION. One cache (20_memory.md R69 to R85), over any lower level.

`Store σ` is the spec's `BlockStore` interface (R83) over a level whose whole state, with everything below it, is σ.
`cacheStore C low` is a cache on top of `low`: its state is the cache's own and the lower level's. So the L1 caches over
L2 and L2 over main memory are the same definitions (Machine/Hierarchy.lean). -/

namespace Sys2Proof.Machine

/-- The outcome of a request to a level. A request that main memory cannot serve leaves a state too: fills, write-backs
and counts made before the raise remain (R210). -/
inductive Access (σ α : Type)
  | ok (value : α) (state : σ)
  | outOfBounds (addr len : Nat) (state : σ)

/-- A level as its users see it: `LowerRead` and `LowerWrite` (R83). -/
structure Store (σ : Type) where
  read  : Nat → Nat → σ → Access σ (List Byte)
  write : Nat → List Byte → σ → Access σ Unit

/-- The line in a slot. -/
def Cache.line (c : Cache) (slot : Nat) : Line := c.lines.getD slot (Line.reset 0)

/-- `lines[slot] <- l`. -/
def Cache.setLine (c : Cache) (slot : Nat) (l : Line) : Cache := { c with lines := c.lines.set slot l }

/-- A line that holds this tag (R69). -/
def lineMatches (tag : Nat) (l : Line) : Bool := l.valid && l.tag == tag

/-- Tag match (R69). -/
def lookup (C : CacheConfig) (c : Cache) (a : Nat) : Option Nat :=
  match C.policy with
  | .direct           => if lineMatches (tagOf C a) (c.line (indexOf C a)) then some (indexOf C a) else none
  | .fullyAssociative => c.lines.findIdx? (lineMatches (tagOf C a))

/-- LRU update (R75), in fully-associative caches only (R70, R73, R77). -/
def touch (C : CacheConfig) (slot : Nat) (lines : List Line) : List Line :=
  match C.policy with
  | .direct           => lines
  | .fullyAssociative => lines.mapIdx fun i l =>
      if i = slot then { l with recency := 0 } else if l.valid then { l with recency := l.recency + 1 } else l

/-- The largest recency of a list of lines. -/
def maxRecency (lines : List Line) : Nat := lines.foldl (fun m l => max m l.recency) 0

/-- Victim choice (R71): ties go to the lowest slot. -/
def victim (C : CacheConfig) (c : Cache) (idx : Nat) : Nat :=
  match C.policy with
  | .direct           => idx
  | .fullyAssociative =>
    match c.lines.findIdx? (fun l => !l.valid) with
    | some i => i
    | none   => (c.lines.findIdx? (fun l => l.recency == maxRecency c.lines)).getD 0

/-- Write-back of the line in a slot, if it is valid and dirty (R72). -/
def writeBack {σ : Type} (C : CacheConfig) (low : Store σ) (slot : Nat) (cs : Cache × σ) : Access (Cache × σ) Unit :=
  if (cs.1.line slot).valid && (cs.1.line slot).dirty then
    match low.write (lineAddr C slot (cs.1.line slot).tag) (cs.1.line slot).data cs.2 with
    | .ok _ m            => .ok () ({ cs.1 with writeBacks := cs.1.writeBacks + 1 }, m)
    | .outOfBounds x k m => .outOfBounds x k (cs.1, m)
  else .ok () cs

/-- The line a fill leaves in the victim's slot (R73), before `touch`. -/
def filledLine (C : CacheConfig) (a : Nat) (bytes : List Byte) (old : Line) : Line :=
  { valid := true, dirty := false, tag := tagOf C a, data := bytes, recency := old.recency }

/-- The fill of the aligned block that contains a into a slot (R73). -/
def fill {σ : Type} (C : CacheConfig) (low : Store σ) (a slot : Nat) (cs : Cache × σ) : Access (Cache × σ) Nat :=
  match low.read (a - offsetOf C a) C.bs cs.2 with
  | .ok bytes m =>
    .ok slot ({ cs.1 with lines := touch C slot (cs.1.lines.set slot (filledLine C a bytes (cs.1.line slot))) }, m)
  | .outOfBounds x k m => .outOfBounds x k (cs.1, m)

/-- Miss handling (R73): the write-back completes before the fill starts (R84). -/
def miss {σ : Type} (C : CacheConfig) (low : Store σ) (a : Nat) (cs : Cache × σ) : Access (Cache × σ) Nat :=
  match writeBack C low (victim C cs.1 (indexOf C a)) cs with
  | .ok _ cs1           => fill C low a (victim C cs.1 (indexOf C a)) cs1
  | .outOfBounds x k s1 => .outOfBounds x k s1

/-- One resolved access (R70): the slot that holds a's block. -/
def access {σ : Type} (C : CacheConfig) (low : Store σ) (a : Nat) (cs : Cache × σ) : Access (Cache × σ) Nat :=
  match lookup C cs.1 a with
  | some slot => .ok slot ({ cs.1 with lines := touch C slot cs.1.lines, hits := cs.1.hits + 1 }, cs.2)
  | none      => miss C low a ({ cs.1 with misses := cs.1.misses + 1 }, cs.2)

/-- `data[off + i] <- bytes[i]` for every i. -/
def patch (data : List Byte) (off : Nat) (bytes : List Byte) : List Byte :=
  data.take off ++ bytes ++ data.drop (off + bytes.length)

/-- The line that a segment of a write leaves: the bytes at p overwritten, the line dirty (R79, R81). -/
def writtenLine (C : CacheConfig) (l : Line) (p : Nat) (bytes : List Byte) : Line :=
  { l with data := patch l.data (offsetOf C p) bytes, dirty := true }

/-- The bytes of the segments of a read, served in ascending order (R80, R84). -/
def readSegments {σ : Type} (C : CacheConfig) (low : Store σ) : List (Nat × Nat) → Cache × σ → Access (Cache × σ) (List Byte)
  | [], cs => .ok [] cs
  | (p, j) :: rest, cs =>
    match access C low p cs with
    | .outOfBounds x k s1 => .outOfBounds x k s1
    | .ok slot cs1 =>
      match readSegments C low rest cs1 with
      | .outOfBounds x k s2 => .outOfBounds x k s2
      | .ok bytes cs2       => .ok (((cs1.1.line slot).data.drop (offsetOf C p)).take j ++ bytes) cs2

/-- The bytes of the segments of a write, served in ascending order (R81, R84). -/
def writeSegments {σ : Type} (C : CacheConfig) (low : Store σ) : List (Nat × Nat) → List Byte → Cache × σ → Access (Cache × σ) Unit
  | [], _, cs => .ok () cs
  | (p, j) :: rest, bytes, cs =>
    match access C low p cs with
    | .outOfBounds x k s1 => .outOfBounds x k s1
    | .ok slot cs1 =>
      writeSegments C low rest (bytes.drop j)
        (cs1.1.setLine slot (writtenLine C (cs1.1.line slot) p (bytes.take j)), cs1.2)

/-- A zero-line cache passes a read through and counts one miss (R82). -/
def zeroLineRead {σ : Type} (low : Store σ) (a k : Nat) (cs : Cache × σ) : Access (Cache × σ) (List Byte) :=
  match low.read a k cs.2 with
  | .ok bytes m        => .ok bytes ({ cs.1 with misses := cs.1.misses + 1 }, m)
  | .outOfBounds x j m => .outOfBounds x j ({ cs.1 with misses := cs.1.misses + 1 }, m)

/-- A zero-line cache passes a write through and counts one miss (R82). -/
def zeroLineWrite {σ : Type} (low : Store σ) (a : Nat) (bytes : List Byte) (cs : Cache × σ) : Access (Cache × σ) Unit :=
  match low.write a bytes cs.2 with
  | .ok _ m            => .ok () ({ cs.1 with misses := cs.1.misses + 1 }, m)
  | .outOfBounds x j m => .outOfBounds x j ({ cs.1 with misses := cs.1.misses + 1 }, m)

/-- Cache read request (R80). -/
def cacheRead {σ : Type} (C : CacheConfig) (low : Store σ) (a k : Nat) (cs : Cache × σ) : Access (Cache × σ) (List Byte) :=
  if lineCount C = 0 then zeroLineRead low a k cs else readSegments C low (segments C a k) cs

/-- Cache write request (R81): write-back and write-allocate (R79). -/
def cacheWrite {σ : Type} (C : CacheConfig) (low : Store σ) (a : Nat) (bytes : List Byte) (cs : Cache × σ) :
    Access (Cache × σ) Unit :=
  if lineCount C = 0 then zeroLineWrite low a bytes cs
  else writeSegments C low (segments C a bytes.length) bytes cs

/-- A cache as a level (R83). -/
def cacheStore {σ : Type} (C : CacheConfig) (low : Store σ) : Store (Cache × σ) where
  read  := cacheRead C low
  write := cacheWrite C low

/-- The byte at a that a cache holds, if a line matches (R95). -/
def cacheByte (C : CacheConfig) (c : Cache) (a : Nat) : Option Byte :=
  (lookup C c a).map fun slot => (c.line slot).data.getD (offsetOf C a) 0

/-- The byte at a in a cache, or else in what lies below it (R95). -/
def viewThrough (C : CacheConfig) (c : Cache) (below : Nat → Byte) (a : Nat) : Byte :=
  (cacheByte C c a).getD (below a)

/-- Set the byte at a in the line that matches, if there is one. Only `placeRaw` (Machine/Fetch.lean) uses this: it is no
operation of the hardware. -/
def pokeByte (C : CacheConfig) (c : Cache) (a : Nat) (b : Byte) : Cache :=
  match lookup C c a with
  | some slot => c.setLine slot { c.line slot with data := (c.line slot).data.set (offsetOf C a) b }
  | none      => c

end Sys2Proof.Machine
end

