-- ==== Sys2Proof/Machine/Hierarchy.lean ====
section
/-! DEFINITION. Main memory as a level and the hierarchy (20_memory.md R61, R62, R65, R86 to R95).

L1I and L1D both stand on L2, and L2 on main memory (R87). One request is served at a time (R91): each operation below is
one request, completed before it answers. -/

namespace Sys2Proof.Machine

/-- `MainRead` (R61, R62). `a + k` is computed without wrap. -/
def mainRead (memSize a k : Nat) (m : Memory) : Access Memory (List Byte) :=
  if memSize < a + k then .outOfBounds a k m else .ok (m.readBytes a k) m

/-- `MainWrite` (R61, R62). -/
def mainWrite (memSize a : Nat) (bytes : List Byte) (m : Memory) : Access Memory Unit :=
  if memSize < a + bytes.length then .outOfBounds a bytes.length m else .ok () (m.writeBytes a bytes)

/-- Main memory as a level (R83). -/
def mainStore (memSize : Nat) : Store Memory where
  read  := mainRead memSize
  write := mainWrite memSize

/-- L2 over main memory (R87). -/
def l2Store (cfg : Config) : Store (Cache × Memory) := cacheStore cfg.l2 (mainStore cfg.memSize)

/-- L1I over L2 (R87). -/
def l1iStore (cfg : Config) : Store (Cache × Cache × Memory) := cacheStore cfg.l1i (l2Store cfg)

/-- L1D over L2 (R87). -/
def l1dStore (cfg : Config) : Store (Cache × Cache × Memory) := cacheStore cfg.l1d (l2Store cfg)

/-- The instruction side of a state: L1I and what lies below it. -/
def State.instrSide (s : State) : Cache × Cache × Memory := (s.l1i, s.l2, s.mem)

/-- The data side of a state: L1D and what lies below it. -/
def State.dataSide (s : State) : Cache × Cache × Memory := (s.l1d, s.l2, s.mem)

/-- A state with its instruction side replaced. -/
def State.withInstrSide (s : State) (h : Cache × Cache × Memory) : State :=
  { s with l1i := h.1, l2 := h.2.1, mem := h.2.2 }

/-- A state with its data side replaced. -/
def State.withDataSide (s : State) (h : Cache × Cache × Memory) : State :=
  { s with l1d := h.1, l2 := h.2.1, mem := h.2.2 }

/-- A word address is a multiple of 4 (R65). -/
def wordAligned (a : Word) : Bool := a.toNat % 4 == 0

/-- `Fetch(a)`, the hierarchy's `fetch_instruction` (R92). -/
def fetchInstruction (a : Word) (s : State) : Except Fault (Word × State) :=
  if wordAligned a then
    match (l1iStore s.cfg).read a.toNat 4 s.instrSide with
    | .ok bytes h        => .ok (wordOfBytes bytes, s.withInstrSide h)
    | .outOfBounds x k h => .error (.outOfBounds x k (s.withInstrSide h))
  else .error (.alignmentFault a s)

/-- `MemRead(a, 4)`, the hierarchy's `read_data` (R93). -/
def readData (a : Word) (s : State) : Except Fault (Word × State) :=
  if wordAligned a then
    match (l1dStore s.cfg).read a.toNat 4 s.dataSide with
    | .ok bytes h        => .ok (wordOfBytes bytes, s.withDataSide h)
    | .outOfBounds x k h => .error (.outOfBounds x k (s.withDataSide h))
  else .error (.alignmentFault a s)

/-- `MemWrite(a, 4, v)`, the hierarchy's `write_data` (R94). -/
def writeData (a v : Word) (s : State) : Except Fault State :=
  if wordAligned a then
    match (l1dStore s.cfg).write a.toNat (bytesLe32 v) s.dataSide with
    | .ok _ h            => .ok (s.withDataSide h)
    | .outOfBounds x k h => .error (.outOfBounds x k (s.withDataSide h))
  else .error (.alignmentFault a s)

/-! ### Views without side effects (R95) -/

/-- The byte at a as L2 and main memory hold it. -/
def State.l2Byte (s : State) (a : Nat) : Byte := viewThrough s.cfg.l2 s.l2 s.mem.readByte a

/-- The byte at a as the data side sees it (R95). -/
def State.dataByte (s : State) (a : Nat) : Byte := viewThrough s.cfg.l1d s.l1d s.l2Byte a

/-- The byte at a as the instruction side sees it (R95). -/
def State.instrByte (s : State) (a : Nat) : Byte := viewThrough s.cfg.l1i s.l1i s.l2Byte a

/-- `le32(DataView(a))` (R95). -/
def State.dataWord (s : State) (a : Nat) : Word :=
  le32 (s.dataByte a) (s.dataByte (a + 1)) (s.dataByte (a + 2)) (s.dataByte (a + 3))

/-- `le32(InstrView(a))` (R95). -/
def State.instrWord (s : State) (a : Nat) : Word :=
  le32 (s.instrByte a) (s.instrByte (a + 1)) (s.instrByte (a + 2)) (s.instrByte (a + 3))

/-! ### Statistics (R88, R89) -/

/-- The statistics snapshot (R88). -/
structure Statistics where
  l1iMisses       : Nat
  l1dMisses       : Nat
  l2Misses        : Nat
  totalWriteBacks : Nat
  deriving DecidableEq, Repr

/-- The statistics snapshot of a state (R88). -/
def State.statistics (s : State) : Statistics where
  l1iMisses       := s.l1i.misses
  l1dMisses       := s.l1d.misses
  l2Misses        := s.l2.misses
  totalWriteBacks := s.l1i.writeBacks + s.l1d.writeBacks + s.l2.writeBacks

/-- Twice the cost metric, a natural number (R89). -/
def twiceCost (t : Statistics) : Nat := t.l1iMisses + t.l1dMisses + 2 * t.l2Misses + 2 * t.totalWriteBacks

end Sys2Proof.Machine
end

