-- ==== Sys2Proof/Machine/Operands.lean ====
section
/-! DEFINITION. Every operand form: the second operand of a data-processing instruction (40_data_processing.md R140), the
carry operand (R146 to R148), the effective address (41_load_store.md R170), the branch target (42_branch.md R180) and the
Thumb register operands (43_thumb.md R190). The register operand is not shifted (30_encoding.md R116). -/

namespace Sys2Proof.Machine

/-- `op2(d)` of the DP_IMM form (R140): the immediate, as DP_IMM_MODE forms it (R120, assumption 12). -/
def State.immOperand (s : State) (f : DpImm) : Word := dpImmediate s.cfg.dpImmMode f.operand

/-- `op2(d)` of the DP_REG form (R140). -/
def State.regOperand (s : State) (f : DpReg) : Word := s.reg f.rm

/-- The flag C as a number, 0 or 1 (R146 to R148). -/
def State.carry (s : State) : Word := if s.c then 1 else 0

/-- The register a Thumb field names (R124, R190). -/
def lowReg (r : LowReg) : Reg := r.castLE (by decide)

/-- `EA(d) = wrap(x[rn] + imm)` (R170): always added, never written back. -/
def effectiveAddress (f : LoadStore) (s : State) : Word := s.reg f.rn + loadStoreOffset f.offset

/-- `Target(d) = wrap(pc0 + 8 + imm)` (R180). -/
def branchTarget (f : Branch) (s : State) : Word := s.pc + 8 + BitVec.ofInt 32 (branchOffset f.offset)

end Sys2Proof.Machine
end

