-- ==== Sys2Proof/Machine/Envelope.lean ====
section
/-! DEFINITION. The execution envelope around every handler (10_state.md R50, R52, R55, R56), as shared operations the
meanings call, and the raising of `OperandAbsent` (60_exceptions.md R208).

The diagnostics of R56 are modelled: they read through the views of R95 and change nothing but `surfaced`. -/

namespace Sys2Proof.Machine

/-- PC advance (R52): by 4 or 2 when the handler left `x[15]` equal to `pc0`. -/
def advancePc (thumb : Bool) (pc0 : Word) (s : State) : State :=
  if s.pc = pc0 then s.setPc (pc0 + (if thumb then 2 else 4)) else s

/-- The registers whose value differs between two states, in ascending order (R56). -/
def changedRegs (before after : State) : List Reg :=
  (List.finRange 16).filter fun r => before.reg r != after.reg r

/-- The word at an address with its old and new value, if they differ as the data side sees them (R56). -/
def changedWord (a : Word) (before after : State) : Option (Word × Word × Word) :=
  if before.dataWord a.toNat = after.dataWord a.toNat then none
  else some (a, before.dataWord a.toNat, after.dataWord a.toNat)

/-- The envelope's report (R56). `target` is the address of a load or store. -/
def changeReport (target : Option Word) (before after : State) : ChangeReport where
  regs := changedRegs before after
  word := target.bind fun a => changedWord a before after

/-- What the envelope does once the handler has returned (R50): the PC advance, then the report. `before` is the state
the handler started from. -/
def finish (thumb : Bool) (target : Option Word) (before after : State) : State :=
  let advanced := advancePc thumb before.pc after
  { advanced with surfaced := .changed (changeReport target before advanced) }

/-- A data-processing handler that writes its result to a destination (R141, R142), in the envelope. -/
def writeResult (thumb : Bool) (rd : Reg) (res : Word) (s : State) : Result :=
  .next (finish thumb none s ((s.setReg rd res).setNZ res))

/-- A data-processing handler that writes no register (R141, R142), in the envelope. -/
def compareResult (res : Word) (s : State) : Result :=
  .next (finish false none s (s.setNZ res))

/-- `raise OperandAbsent(raw_word)` before anything is written (R159, R208). -/
def raiseOperandAbsent (raw : Word) (s : State) : Result := .fault (.operandAbsent raw s)

/-- A record whose op_code is UNKNOWN (R55, R203): no register, flag, memory or PC change, and the diagnostic. -/
def reportUnknown (raw : Raw) (s : State) : Result := .next { s with surfaced := .unknownOpcode raw }

end Sys2Proof.Machine
end

