-- ==== Sys2Proof/Machine/Branch.lean ====
section
/-! DEFINITION. B and BL (42_branch.md R180 to R182). No condition is tested (10_state.md R54) and no flag is written. A
branch to its own address leaves the PC equal, so the envelope advances it (R52). -/

namespace Sys2Proof.Machine

/-- B (R181). -/
def execB (f : Branch) (s : State) : Result :=
  .next (finish false none s (s.setPc (branchTarget f s)))

/-- BL (R182): r14 receives the address of the next instruction. -/
def execBl (f : Branch) (s : State) : Result :=
  .next (finish false none s ((s.setReg lrReg (s.pc + 4)).setPc (branchTarget f s)))

end Sys2Proof.Machine
end

