-- ==== Sys2Proof/Machine/DataProcessing.lean ====
section
/-! DEFINITION. The data-processing instructions (40_data_processing.md R140 to R159), in the order of the opcode lookup
table (30_encoding.md R117): the DP_IMM forms, then the DP_REG forms. Every operand is read before any register is written
(R140): a result is computed from the state the handler starts from. -/

namespace Sys2Proof.Machine

/-! ### The DP_IMM forms -/

/-- AND (R150). -/
def execAndImm (f : DpImm) (s : State) : Result := writeResult false f.rd (s.reg f.rn &&& s.immOperand f) s

/-- EOR with an immediate has no second register and raises `OperandAbsent` (R159). -/
def execEorImm (f : DpImm) (s : State) : Result := raiseOperandAbsent (encodeDpImm 0b0001#4 f) s

/-- SUB (R144). -/
def execSubImm (f : DpImm) (s : State) : Result := writeResult false f.rd (s.reg f.rn - s.immOperand f) s

/-- RSB (R145). -/
def execRsbImm (f : DpImm) (s : State) : Result := writeResult false f.rd (s.immOperand f - s.reg f.rn) s

/-- ADD (R143). -/
def execAddImm (f : DpImm) (s : State) : Result := writeResult false f.rd (s.reg f.rn + s.immOperand f) s

/-- ADC (R146). -/
def execAdcImm (f : DpImm) (s : State) : Result := writeResult false f.rd (s.reg f.rn + s.immOperand f + s.carry) s

/-- SBC (R147). -/
def execSbcImm (f : DpImm) (s : State) : Result := writeResult false f.rd (s.reg f.rn - s.immOperand f + s.carry - 1) s

/-- RSC (R148). -/
def execRscImm (f : DpImm) (s : State) : Result := writeResult false f.rd (s.immOperand f - s.reg f.rn + s.carry - 1) s

/-- TST (R155). `rd` is not written. -/
def execTstImm (f : DpImm) (s : State) : Result := compareResult (s.reg f.rn &&& s.immOperand f) s

/-- TEQ with an immediate has no second register and raises `OperandAbsent` (R159). -/
def execTeqImm (f : DpImm) (s : State) : Result := raiseOperandAbsent (encodeDpImm 0b1001#4 f) s

/-- CMP (R157). `rd` is not written. -/
def execCmpImm (f : DpImm) (s : State) : Result := compareResult (s.reg f.rn - s.immOperand f) s

/-- CMN (R158). `rd` is not written. -/
def execCmnImm (f : DpImm) (s : State) : Result := compareResult (s.reg f.rn + s.immOperand f) s

/-- ORR (R151). -/
def execOrrImm (f : DpImm) (s : State) : Result := writeResult false f.rd (s.reg f.rn ||| s.immOperand f) s

/-- MOV (R149). `rn` is not read. -/
def execMovImm (f : DpImm) (s : State) : Result := writeResult false f.rd (s.immOperand f) s

/-- BIC (R153). -/
def execBicImm (f : DpImm) (s : State) : Result := writeResult false f.rd (s.reg f.rn &&& ~~~s.immOperand f) s

/-- MVN (R154). `rn` is not read. -/
def execMvnImm (f : DpImm) (s : State) : Result := writeResult false f.rd (~~~s.immOperand f) s

/-! ### The DP_REG forms -/

/-- AND (R150). -/
def execAndReg (f : DpReg) (s : State) : Result := writeResult false f.rd (s.reg f.rn &&& s.regOperand f) s

/-- EOR (R152). -/
def execEorReg (f : DpReg) (s : State) : Result := writeResult false f.rd (s.reg f.rn ^^^ s.regOperand f) s

/-- SUB (R144). -/
def execSubReg (f : DpReg) (s : State) : Result := writeResult false f.rd (s.reg f.rn - s.regOperand f) s

/-- RSB (R145). -/
def execRsbReg (f : DpReg) (s : State) : Result := writeResult false f.rd (s.regOperand f - s.reg f.rn) s

/-- ADD (R143). -/
def execAddReg (f : DpReg) (s : State) : Result := writeResult false f.rd (s.reg f.rn + s.regOperand f) s

/-- ADC (R146). -/
def execAdcReg (f : DpReg) (s : State) : Result := writeResult false f.rd (s.reg f.rn + s.regOperand f + s.carry) s

/-- SBC (R147). -/
def execSbcReg (f : DpReg) (s : State) : Result := writeResult false f.rd (s.reg f.rn - s.regOperand f + s.carry - 1) s

/-- RSC (R148). -/
def execRscReg (f : DpReg) (s : State) : Result := writeResult false f.rd (s.regOperand f - s.reg f.rn + s.carry - 1) s

/-- TST (R155). `rd` is not written. -/
def execTstReg (f : DpReg) (s : State) : Result := compareResult (s.reg f.rn &&& s.regOperand f) s

/-- TEQ (R156). `rd` is not written. -/
def execTeqReg (f : DpReg) (s : State) : Result := compareResult (s.reg f.rn ^^^ s.regOperand f) s

/-- CMP (R157). `rd` is not written. -/
def execCmpReg (f : DpReg) (s : State) : Result := compareResult (s.reg f.rn - s.regOperand f) s

/-- CMN (R158). `rd` is not written. -/
def execCmnReg (f : DpReg) (s : State) : Result := compareResult (s.reg f.rn + s.regOperand f) s

/-- ORR (R151). -/
def execOrrReg (f : DpReg) (s : State) : Result := writeResult false f.rd (s.reg f.rn ||| s.regOperand f) s

/-- MOV (R149). `rn` is not read. -/
def execMovReg (f : DpReg) (s : State) : Result := writeResult false f.rd (s.regOperand f) s

/-- BIC (R153). -/
def execBicReg (f : DpReg) (s : State) : Result := writeResult false f.rd (s.reg f.rn &&& ~~~s.regOperand f) s

/-- MVN (R154). `rn` is not read. -/
def execMvnReg (f : DpReg) (s : State) : Result := writeResult false f.rd (~~~s.regOperand f) s

end Sys2Proof.Machine
end

