-- ==== Sys2Proof/Machine/LoadStore.lean ====
section
/-! DEFINITION. LDR and STR (41_load_store.md R170 to R172). The bits P, U, B and W are not read (30_encoding.md R123): the
offset is added, the base is not written back, the transfer is a word. No flag is written (10_state.md R31). -/

namespace Sys2Proof.Machine

/-- STR (R172): the value stored with rd = 15 is the address of the instruction itself (R27). -/
def execStr (f : LoadStore) (s : State) : Result :=
  match writeData (effectiveAddress f s) (s.reg f.rd) s with
  | .ok s1       => .next (finish false (some (effectiveAddress f s)) s s1)
  | .error fault => .fault fault

/-- LDR (R171): rd is written only after the read has succeeded (R210). -/
def execLdr (f : LoadStore) (s : State) : Result :=
  match readData (effectiveAddress f s) s with
  | .ok (v, s1)  => .next (finish false (some (effectiveAddress f s)) s (s1.setReg f.rd v))
  | .error fault => .fault fault

end Sys2Proof.Machine
end

