-- ==== Sys2Proof/Machine/Thumb.lean ====
section
/-! DEFINITION. The four Thumb forms (43_thumb.md R190 to R194): the ADD and SUB handlers on r0 to r7, with the PC advance
of 2. The advance follows the record, not the mode bit (10_state.md R52, R57). -/

namespace Sys2Proof.Machine

/-- Thumb ADD, register (R191). -/
def execThumbAddReg (f : ThumbReg) (s : State) : Result :=
  writeResult true (lowReg f.rd) (s.reg (lowReg f.rn) + s.reg (lowReg f.rm)) s

/-- Thumb SUB, register (R192). -/
def execThumbSubReg (f : ThumbReg) (s : State) : Result :=
  writeResult true (lowReg f.rd) (s.reg (lowReg f.rn) - s.reg (lowReg f.rm)) s

/-- Thumb ADD, 3-bit immediate (R193). -/
def execThumbAddImm (f : ThumbImm) (s : State) : Result :=
  writeResult true (lowReg f.rd) (s.reg (lowReg f.rn) + thumbImmediate f.imm) s

/-- Thumb SUB, 3-bit immediate (R194). -/
def execThumbSubImm (f : ThumbImm) (s : State) : Result :=
  writeResult true (lowReg f.rd) (s.reg (lowReg f.rn) - thumbImmediate f.imm) s

end Sys2Proof.Machine
end

