-- ==== Sys2Proof/Machine/Unknown.lean ====
section
/-! DEFINITION. The words that decode to UNKNOWN (30_encoding.md R113, R127, R128; 10_state.md R55; 60_exceptions.md R203):
the step ends with the diagnostic `UnknownOpcode(raw_word)` and changes nothing, the PC included, so the next step
fetches the same word again (R204). -/

namespace Sys2Proof.Machine

/-- Group 011 (R113, R203). -/
def execUnknown011 (f : ArmUnknown) (s : State) : Result := reportUnknown (.arm (encodeArmUnknown 0b011#3 f)) s

/-- Group 100 (R113, R203). -/
def execUnknown100 (f : ArmUnknown) (s : State) : Result := reportUnknown (.arm (encodeArmUnknown 0b100#3 f)) s

/-- Group 110 (R113, R203). -/
def execUnknown110 (f : ArmUnknown) (s : State) : Result := reportUnknown (.arm (encodeArmUnknown 0b110#3 f)) s

/-- Group 111 (R113, R203). -/
def execUnknown111 (f : ArmUnknown) (s : State) : Result := reportUnknown (.arm (encodeArmUnknown 0b111#3 f)) s

/-- A Thumb halfword outside the add/subtract format (R127, R203). -/
def execThumbUnknown (raw : Half) (s : State) : Result := reportUnknown (.thumb raw) s

end Sys2Proof.Machine
end

