-- ==== Sys2Proof/Machine/Dispatch.lean ====
section
/-! DEFINITION. `Execute(d)` (10_state.md R50, R57): one arm for each instruction. -/

namespace Sys2Proof.Machine

def exec (i : Instr) (s : State) : Host.Outcome State Fault Refusal :=
  match i with
  | .andImm f => Sys2Proof.Machine.execAndImm f s
  | .eorImm f => Sys2Proof.Machine.execEorImm f s
  | .subImm f => Sys2Proof.Machine.execSubImm f s
  | .rsbImm f => Sys2Proof.Machine.execRsbImm f s
  | .addImm f => Sys2Proof.Machine.execAddImm f s
  | .adcImm f => Sys2Proof.Machine.execAdcImm f s
  | .sbcImm f => Sys2Proof.Machine.execSbcImm f s
  | .rscImm f => Sys2Proof.Machine.execRscImm f s
  | .tstImm f => Sys2Proof.Machine.execTstImm f s
  | .teqImm f => Sys2Proof.Machine.execTeqImm f s
  | .cmpImm f => Sys2Proof.Machine.execCmpImm f s
  | .cmnImm f => Sys2Proof.Machine.execCmnImm f s
  | .orrImm f => Sys2Proof.Machine.execOrrImm f s
  | .movImm f => Sys2Proof.Machine.execMovImm f s
  | .bicImm f => Sys2Proof.Machine.execBicImm f s
  | .mvnImm f => Sys2Proof.Machine.execMvnImm f s
  | .andReg f => Sys2Proof.Machine.execAndReg f s
  | .eorReg f => Sys2Proof.Machine.execEorReg f s
  | .subReg f => Sys2Proof.Machine.execSubReg f s
  | .rsbReg f => Sys2Proof.Machine.execRsbReg f s
  | .addReg f => Sys2Proof.Machine.execAddReg f s
  | .adcReg f => Sys2Proof.Machine.execAdcReg f s
  | .sbcReg f => Sys2Proof.Machine.execSbcReg f s
  | .rscReg f => Sys2Proof.Machine.execRscReg f s
  | .tstReg f => Sys2Proof.Machine.execTstReg f s
  | .teqReg f => Sys2Proof.Machine.execTeqReg f s
  | .cmpReg f => Sys2Proof.Machine.execCmpReg f s
  | .cmnReg f => Sys2Proof.Machine.execCmnReg f s
  | .orrReg f => Sys2Proof.Machine.execOrrReg f s
  | .movReg f => Sys2Proof.Machine.execMovReg f s
  | .bicReg f => Sys2Proof.Machine.execBicReg f s
  | .mvnReg f => Sys2Proof.Machine.execMvnReg f s
  | .str f => Sys2Proof.Machine.execStr f s
  | .ldr f => Sys2Proof.Machine.execLdr f s
  | .b f => Sys2Proof.Machine.execB f s
  | .bl f => Sys2Proof.Machine.execBl f s
  | .unknown011 f => Sys2Proof.Machine.execUnknown011 f s
  | .unknown100 f => Sys2Proof.Machine.execUnknown100 f s
  | .unknown110 f => Sys2Proof.Machine.execUnknown110 f s
  | .unknown111 f => Sys2Proof.Machine.execUnknown111 f s
  | .thumbAddReg f => Sys2Proof.Machine.execThumbAddReg f s
  | .thumbSubReg f => Sys2Proof.Machine.execThumbSubReg f s
  | .thumbAddImm f => Sys2Proof.Machine.execThumbAddImm f s
  | .thumbSubImm f => Sys2Proof.Machine.execThumbSubImm f s
  | .thumbUnknown raw => Sys2Proof.Machine.execThumbUnknown raw s

end Sys2Proof.Machine
end

