-- ==== Sys2Proof/Machine/Fetch.lean ====
section
/-! DEFINITION. Fetching an instruction (10_state.md R51) and placing one where the fetch finds it. -/

namespace Sys2Proof.Machine

/-- The address of the word that holds the halfword at pc, `pc - (pc mod 4)` (R51). -/
def thumbFetchAddress (pc : Word) : Word := pc - (pc &&& 3)

/-- The halfword at pc in the word fetched (R51): the low half when `pc[1] = 0`, else the high half. -/
def thumbHalf (pc w : Word) : Half := if bit pc 1 then field w 16 16 else field w 0 16

/-- The raw instruction word at pc and the state its fetch leaves (R51, R65). -/
def fetchRaw (s : State) : Except Fault (Raw × State) :=
  if s.thumbMode then
    if bit s.pc 0 then .error (.alignmentFault s.pc s)
    else
      match fetchInstruction (thumbFetchAddress s.pc) s with
      | .ok (w, s1)  => .ok (.thumb (thumbHalf s.pc w), s1)
      | .error fault => .error fault
  else
    match fetchInstruction s.pc s with
    | .ok (w, s1)  => .ok (.arm w, s1)
    | .error fault => .error fault

/-! ### Placing an instruction from outside the machine (assumption 11) -/

/-- Put a byte where the instruction side sees it: in main memory and in the L2 and L1I lines that hold its address. -/
def placeByte (a : Nat) (b : Byte) (s : State) : State :=
  if a < s.cfg.memSize then
    { s with
      l1i := pokeByte s.cfg.l1i s.l1i a b
      l2  := pokeByte s.cfg.l2 s.l2 a b
      mem := s.mem.writeByte a b }
  else s

/-- Put bytes at ascending addresses where the instruction side sees them. -/
def placeBytes (a : Nat) : List Byte → State → State
  | [], s => s
  | b :: rest, s => placeBytes (a + 1) rest (placeByte a b s)

/-- Put a raw instruction word at pc, with the mode bit that decodes it. -/
def placeRaw (raw : Raw) (s : State) : State :=
  match raw with
  | .arm w   => { placeBytes s.pc.toNat (bytesLe32 w) s with thumbMode := false }
  | .thumb h => { placeBytes s.pc.toNat (bytesLe16 h) s with thumbMode := true }

end Sys2Proof.Machine
end

