-- ==== Sys2Proof/Machine/Step.lean ====
section
/-! DEFINITION. One step of the core (10_state.md R51): fetch, decode, execute, as one action. -/

namespace Sys2Proof.Machine

/-- One step (R51). The order of the checks is R209's: the fetch, then the decoder, then the handler. -/
def step (s : State) : Host.Outcome State Fault Refusal :=
  match fetchRaw s with
  | .ok (raw, s1) => exec (decode raw) s1
  | .error fault  => .fault fault

/-- `s` with the instruction that the opcode table numbers `w` stored where `step` fetches its next instruction. It
stands for the loader, which puts a program in main memory from outside the machine (R233, assumption 11). -/
def State.withFetchWord (s : State) (nbits w : Nat) : State := placeRaw (tableRaw nbits w) s

end Sys2Proof.Machine
end

