-- ==== Sys2Proof/Machine/Construct.lean ====
section
/-! DEFINITION. Construction, which is the only reset (70_reset_and_hazards.md R230 to R233), for every value of the launch
parameters that 00_scope.md R7 leaves OPEN, and the loader's contract. -/

namespace Sys2Proof.Machine

/-- The launch parameters (R7): the configuration, REG_INIT, THUMB_INIT and MEM_INIT. `memInit` lists the bytes of the
image in any order (a later pair wins); a byte it does not list is `Config.background`. -/
structure Launch where
  cfg       : Config
  regInit   : Vector Word 15
  thumbInit : Bool
  memInit   : List Host.Cell
  deriving DecidableEq, Repr

/-- `ConfigurationError` (R202, R206): the level and the failed check. -/
structure ConfigurationError where
  level : Level
  check : ConfigCheck
  deriving DecidableEq, Repr

/-- The first check that fails, of the caches in the order L1I, L1D, L2 (R66, R231; the order is assumption 13). -/
def checkConfig (cfg : Config) : Option ConfigurationError :=
  match checkCache cfg.l1i with
  | some k => some ⟨.l1i, k⟩
  | none =>
    match checkCache cfg.l1d with
    | some k => some ⟨.l1d, k⟩
    | none =>
      match checkCache cfg.l2 with
      | some k => some ⟨.l2, k⟩
      | none   => none

/-- Main memory holding MEM_INIT (R45, R231): the bytes below MEM_SIZE. -/
def memoryOfImage (memSize : Nat) (image : List Host.Cell) : Memory :=
  image.foldl (fun m cell => if cell.1 < memSize then m.writeByte cell.1 cell.2 else m) []

/-- A cache at construction (R44). -/
def constructCache (C : CacheConfig) : Cache := Cache.reset (lineCount C) C.bs

/-- The register file at construction: REG_INIT in r0 to r14 (R25) and 0 in r15 (R28). -/
def constructRegs (regInit : Vector Word 15) : Vector Word 16 := regInit.push 0

/-- Construction (R231): the check first; if it fails there is no state (R206). -/
def construct (L : Launch) : Except ConfigurationError State :=
  match checkConfig L.cfg with
  | some e => .error e
  | none   => .ok {
      cfg       := L.cfg
      regs      := constructRegs L.regInit
      n         := false
      z         := false
      c         := false
      v         := false
      thumbMode := L.thumbInit
      l1i       := constructCache L.cfg.l1i
      l1d       := constructCache L.cfg.l1d
      l2        := constructCache L.cfg.l2
      mem       := memoryOfImage L.cfg.memSize L.memInit
      surfaced  := .nothing }

/-- The launch of `State.reset` (assumptions 1 to 6). -/
def Launch.default : Launch where
  cfg       := Config.default
  regInit   := Vector.replicate 15 0
  thumbInit := false
  memInit   := []

/-- The loader (R233): the program's bytes from address 0, written to main memory directly, before the first step and
while every line is invalid. A program longer than MEM_SIZE is not loaded. -/
def loadProgram (program : List Byte) (s : State) : Option State :=
  if program.length ≤ s.cfg.memSize then some { s with mem := s.mem.writeBytes 0 program } else none

end Sys2Proof.Machine
end

