-- ==== Sys2Proof/Machine/HostInterface.lean ====
section
/-! DEFINITION. What the host may do between steps (70_reset_and_hazards.md R237, R240).

`Decode(raw, mode)` is `decodeRecord`, construction is `construct`, the loader is `loadProgram`, the statistics snapshot is
`State.statistics` and the cost metric `twiceCost`. The operations that change the state are the constructors of `HostOp`.
The host has no operation on r0 to r14, the flags, `thumbMode`, a line or a counter (R240). -/

namespace Sys2Proof.Machine

/-- The host's operations that change the state (R240). `execute` takes the decoding of a raw word (R57, D41). -/
inductive HostOp
  | writePc (a : Word)
  | execute (raw : Raw)
  | fetchInstruction (a : Word)
  | readData (a : Word)
  | writeData (a v : Word)
  | step
  deriving DecidableEq, Repr

/-- The host's PC accessor (R240). -/
def hostReadPc (s : State) : Word := s.pc

/-- The host's PC mutator (R240): any word. -/
def hostWritePc (a : Word) (s : State) : State := s.setPc a

/-- `execute(d)` on the record of a raw word (R50, R57): no fetch. -/
def hostExecute (raw : Raw) (s : State) : Result := exec (decode raw) s

/-- The outcome of a hierarchy operation called by the host, whose word it reads elsewhere. -/
def outcomeOfAccess {α : Type} : Except Fault (α × State) → Result
  | .ok (_, s)   => .next s
  | .error fault => .fault fault

/-- One host operation (R240). -/
def hostApply (op : HostOp) (s : State) : Result :=
  match op with
  | .writePc a          => .next (hostWritePc a s)
  | .execute raw        => hostExecute raw s
  | .fetchInstruction a => outcomeOfAccess (fetchInstruction a s)
  | .readData a         => outcomeOfAccess (readData a s)
  | .writeData a v      => outcomeOfAccess ((writeData a v s).map fun t => ((), t))
  | .step               => step s

end Sys2Proof.Machine
end

