-- ==== Sys2Proof/Safety.lean ====
section
/-! DEFINITION. What a sound state is, how far an access reaches, and what a safe run is.

`State.Inv` gathers what the rules say of every state a construction and its steps can produce: the geometry of
20_memory.md R66, the bounds of 10_state.md R38 and R41, the uniqueness of R76, R77, the clean L1I of R88, the in-bounds
lines of 60_exceptions.md R205 and the agreement of a clean line with the level below it (R72, R79, R95). -/

namespace Sys2Proof.Machine

/-! ### One cache -/

/-- A cache has the shape of its configuration (R38, R41, R76, R77). -/
structure CacheWf (C : CacheConfig) (c : Cache) : Prop where
  /-- `n` lines (R41). -/
  count : c.lines.length = lineCount C
  /-- Each holds exactly `bs` bytes (R38). -/
  size : ∀ slot, slot < lineCount C → (c.line slot).data.length = C.bs
  /-- A tag is below 2^tb (R38). -/
  tagBound : ∀ slot, slot < lineCount C → (c.line slot).valid = true → (c.line slot).tag < 2 ^ tagBits C
  /-- In a fully-associative cache two valid lines never hold the same tag (R76). -/
  uniqueTag : C.policy = .fullyAssociative → ∀ i j, i < lineCount C → j < lineCount C →
    (c.line i).valid = true → (c.line j).valid = true → (c.line i).tag = (c.line j).tag → i = j
  /-- In a fully-associative cache two valid lines never hold the same recency (R76). -/
  uniqueRecency : C.policy = .fullyAssociative → ∀ i j, i < lineCount C → j < lineCount C →
    (c.line i).valid = true → (c.line j).valid = true → (c.line i).recency = (c.line j).recency → i = j
  /-- In a direct-mapped cache recency keeps its reset value (R77). -/
  directRecency : C.policy = .direct → ∀ slot, slot < lineCount C → (c.line slot).recency = 0

/-- Every valid line's block lies where the level below can serve it (R205): `fits e` says that the bytes below e can. -/
def LinesFit (C : CacheConfig) (c : Cache) (fits : Nat → Prop) : Prop :=
  ∀ slot, slot < lineCount C → (c.line slot).valid = true → fits (lineAddr C slot (c.line slot).tag + C.bs)

/-- Every valid clean line holds what the level below holds (R72, R79). -/
def CleanAgree (C : CacheConfig) (c : Cache) (below : Nat → Byte) : Prop :=
  ∀ slot, slot < lineCount C → (c.line slot).valid = true → (c.line slot).dirty = false →
    ∀ j, j < C.bs → (c.line slot).data.getD j 0 = below (lineAddr C slot (c.line slot).tag + j)

/-- No line is dirty (R88 for L1I). -/
def NoDirty (C : CacheConfig) (c : Cache) : Prop :=
  ∀ slot, slot < lineCount C → (c.line slot).dirty = false

/-! ### How far an access reaches -/

/-- The end of the last block that a request ending at e touches in a cache; e itself for a zero-line cache (R78, R82). -/
def blockEnd (C : CacheConfig) (e : Nat) : Nat :=
  if lineCount C = 0 then e else (e + C.bs - 1) / C.bs * C.bs

/-- L2 can serve the bytes below e: every block it would fill lies below MEM_SIZE (R205). -/
def L2Fits (cfg : Config) (e : Nat) : Prop := blockEnd cfg.l2 e ≤ cfg.memSize

/-- A data access to the word at a stays below MEM_SIZE at every level (R205). -/
def DataFits (cfg : Config) (a : Nat) : Prop := L2Fits cfg (blockEnd cfg.l1d (a + 4))

/-- A fetch of the word at a stays below MEM_SIZE at every level (R205). -/
def FetchFits (cfg : Config) (a : Nat) : Prop := L2Fits cfg (blockEnd cfg.l1i (a + 4))

/-! ### The state -/

/-- The configuration is one that construction accepts (R7, R66). -/
structure ConfigOk (cfg : Config) : Prop where
  memPos : 1 ≤ cfg.memSize
  memMax : cfg.memSize ≤ 2 ^ 32
  l1i    : checkCache cfg.l1i = none
  l1d    : checkCache cfg.l1d = none
  l2     : checkCache cfg.l2 = none

/-- Main memory is canonical and holds bytes below MEM_SIZE only (R42, R60). -/
def MemoryOk (memSize : Nat) (m : Memory) : Prop := Memory.wf m ∧ ∀ cell ∈ m, cell.1 < memSize

/-- The state invariant. -/
structure State.Inv (s : State) : Prop where
  config   : ConfigOk s.cfg
  memory   : MemoryOk s.cfg.memSize s.mem
  l2Shape  : CacheWf s.cfg.l2 s.l2
  l2Fits   : LinesFit s.cfg.l2 s.l2 (fun e => e ≤ s.cfg.memSize)
  l2Agree  : CleanAgree s.cfg.l2 s.l2 s.mem.readByte
  l1dShape : CacheWf s.cfg.l1d s.l1d
  l1dFits  : LinesFit s.cfg.l1d s.l1d (L2Fits s.cfg)
  l1dAgree : CleanAgree s.cfg.l1d s.l1d s.l2Byte
  l1iShape : CacheWf s.cfg.l1i s.l1i
  l1iFits  : LinesFit s.cfg.l1i s.l1i (L2Fits s.cfg)
  l1iClean : NoDirty s.cfg.l1i s.l1i
  l1iWrites : s.l1i.writeBacks = 0

/-- The part of a state that the CPU holds is the same: registers, flags and mode bit (R47), and the configuration. -/
structure SameCpu (s t : State) : Prop where
  cfg       : t.cfg = s.cfg
  regs      : t.regs = s.regs
  n         : t.n = s.n
  z         : t.z = s.z
  c         : t.c = s.c
  v         : t.v = s.v
  thumbMode : t.thumbMode = s.thumbMode

/-- The hierarchy is the same, so every byte of memory reads as before. -/
structure SameHierarchy (s t : State) : Prop where
  l1i : t.l1i = s.l1i
  l1d : t.l1d = s.l1d
  l2  : t.l2 = s.l2
  mem : t.mem = s.mem

/-- Every byte reads as before, on the data side and on the instruction side (R95). -/
structure SameBytes (s t : State) : Prop where
  data  : ∀ a, t.dataByte a = s.dataByte a
  instr : ∀ a, t.instrByte a = s.instrByte a

/-! ### What an instruction does -/

/-- `wrap(v)` of a mathematical integer (R9). -/
def wrap (v : Int) : Word := BitVec.ofInt 32 v

/-- Everything but the registers and N, Z is as before: C, V, the mode bit, the configuration (R33, R35, R37), the
hierarchy and every byte. -/
structure OnlyRegsAndNZ (s t : State) : Prop where
  cfg       : t.cfg = s.cfg
  c         : t.c = s.c
  v         : t.v = s.v
  thumbMode : t.thumbMode = s.thumbMode
  hierarchy : SameHierarchy s t
  bytes     : SameBytes s t

/-- A data-processing handler stored `res` in `rd` and set N and Z from it, and nothing else but the PC changed
(R141, R142, R52): with rd = 15 execution continues at `res`, unless `res` is the instruction's own address. -/
structure WritesResult (thumb : Bool) (rd : Reg) (res : Word) (s t : State) : Prop where
  dest  : rd ≠ 15 → t.reg rd = res
  other : ∀ q, q ≠ rd → q ≠ 15 → t.reg q = s.reg q
  pc    : t.pc = if rd = 15 ∧ res ≠ s.pc then res else s.pc + (if thumb then 2 else 4)
  n     : t.n = res.getLsbD 31
  z     : t.z = decide (res = 0)
  rest  : OnlyRegsAndNZ s t

/-- A comparing handler set N and Z from `res`, wrote no register, and the PC advanced by 4 (R141, R142, R52). -/
structure SetsFlags (res : Word) (s t : State) : Prop where
  other : ∀ q, q ≠ 15 → t.reg q = s.reg q
  pc    : t.pc = s.pc + 4
  n     : t.n = res.getLsbD 31
  z     : t.z = decide (res = 0)
  rest  : OnlyRegsAndNZ s t

/-- N and Z are as before (R31). -/
structure SameNZ (s t : State) : Prop where
  n : t.n = s.n
  z : t.z = s.z

/-! ### Runs -/

/-- The state that a fault leaves (R210). -/
def Fault.left : Fault → State
  | .outOfBounds _ _ t  => t
  | .alignmentFault _ t => t
  | .operandAbsent _ t  => t

/-- `n` steps from s end in t with no fault (R236). -/
def Runs (n : Nat) (s t : State) : Prop := Sys2Proof.core.run n s = .next t

/-- A run of `n` steps that the host asks for does not fault. -/
def SafeRun (n : Nat) (s : State) : Prop := ∃ t, Runs n s t

end Sys2Proof.Machine
end

