-- ==== Sys2Proof/Certificates/Slice0/Obligations.lean ====
section
/-! DEFINITION. The statements about the model, for the provers. Each one's docstring names the rule of spec/ it states or
rests on. The terms they share (`WritesResult`, `State.Inv`, `DataFits`, …) are those of Sys2Proof/Safety.lean. -/

/-! ### Terms of the statements -/

namespace Sys2Proof.Statements

open Sys2Proof.Machine

/-- `v[hi:lo]` of a number (R8). -/
def fieldOf (v hi lo : Nat) : Nat := v / 2 ^ lo % 2 ^ (hi - lo + 1)

/-- `sext_24(v)` (R9). -/
def sext24 (v : Nat) : Int := if fieldOf v 23 23 = 1 then (v : Int) - 2 ^ 24 else v

/-- `ROR32(v, r)` on a word's number (R120). -/
def ror32 (v r : Nat) : Nat := (v / 2 ^ r + v * 2 ^ (32 - r)) % 2 ^ 32

/-- The DP_IMM immediate of a raw word (R120). -/
def dpImmOfRule (mode : DpImmMode) (raw : Nat) : Nat :=
  match mode with
  | .imm8    => fieldOf raw 7 0
  | .imm12   => fieldOf raw 11 0
  | .rotated => ror32 (fieldOf raw 7 0) (2 * fieldOf raw 11 8)

/-- The opcode lookup table (R117). -/
def opcodeOfRule (code : Nat) : OpCode :=
  match code with
  | 0  => .and
  | 1  => .eor
  | 2  => .sub
  | 3  => .rsb
  | 4  => .add
  | 5  => .adc
  | 6  => .sbc
  | 7  => .rsc
  | 8  => .tst
  | 9  => .teq
  | 10 => .cmp
  | 11 => .cmn
  | 12 => .orr
  | 13 => .mov
  | 14 => .bic
  | _  => .mvn

/-- The register that `raw[hi:lo]` names. -/
def regField (raw hi lo : Nat) : Option Reg := some (Fin.ofNat 16 (fieldOf raw hi lo))

/-- `Decode(raw, false)` as R126 writes it. -/
def armRecordOfRule (mode : DpImmMode) (w : Word) : DecodedInstruction :=
  let raw := w.toNat
  let blank : DecodedInstruction :=
    { rawWord := .arm w, isThumb := false, condition := some (BitVec.ofNat 4 (fieldOf raw 31 28)),
      opType := .unknown, opCode := .unknown, rn := none, rd := none, rm := none, imm := none }
  match fieldOf raw 27 25 with
  | 0 => { blank with
      opType := .dpReg, opCode := opcodeOfRule (fieldOf raw 24 21),
      rn := regField raw 19 16, rd := regField raw 15 12, rm := regField raw 3 0 }
  | 1 => { blank with
      opType := .dpImm, opCode := opcodeOfRule (fieldOf raw 24 21),
      rn := regField raw 19 16, rd := regField raw 15 12, imm := some (dpImmOfRule mode raw) }
  | 2 => { blank with
      opType := .loadStore, opCode := if fieldOf raw 20 20 = 1 then .ldr else .str,
      rn := regField raw 19 16, rd := regField raw 15 12, imm := some (fieldOf raw 11 0) }
  | 5 => { blank with
      opType := .branch, opCode := if fieldOf raw 24 24 = 1 then .bl else .b,
      imm := some (4 * sext24 (fieldOf raw 23 0)) }
  | _ => blank

/-- `Decode(raw, true)` as R127 writes it. -/
def thumbRecordOfRule (h : Half) : DecodedInstruction :=
  let raw := h.toNat
  let blank : DecodedInstruction :=
    { rawWord := .thumb h, isThumb := true, condition := none,
      opType := .unknown, opCode := .unknown, rn := none, rd := none, rm := none, imm := none }
  if fieldOf raw 15 11 = 3 then
    let named : DecodedInstruction :=
      { blank with
        opCode := if fieldOf raw 9 9 = 1 then .sub else .add,
        rd := regField raw 2 0, rn := regField raw 5 3 }
    if fieldOf raw 10 10 = 0 then { named with opType := .dpReg, rm := regField raw 8 6 }
    else { named with opType := .dpImm, imm := some (fieldOf raw 8 6) }
  else blank

/-- The fields the executor never reads set to zero (R123). The words that end in a report of the raw word keep it. -/
def eraseUnread (mode : DpImmMode) (i : Instr) : Instr :=
  let imm (f : DpImm) : DpImm :=
    { f with cond := 0, s := false, operand := if mode = .imm8 then f.operand &&& 0x0FF#12 else f.operand }
  let reg (f : DpReg) : DpReg := { f with cond := 0, s := false, shift := 0 }
  let ls (f : LoadStore) : LoadStore := { f with cond := 0, p := false, u := false, b := false, w := false }
  let br (f : Branch) : Branch := { f with cond := 0 }
  match i with
  | .andImm f => .andImm (imm f)
  | .eorImm f => .eorImm f
  | .subImm f => .subImm (imm f)
  | .rsbImm f => .rsbImm (imm f)
  | .addImm f => .addImm (imm f)
  | .adcImm f => .adcImm (imm f)
  | .sbcImm f => .sbcImm (imm f)
  | .rscImm f => .rscImm (imm f)
  | .tstImm f => .tstImm (imm f)
  | .teqImm f => .teqImm f
  | .cmpImm f => .cmpImm (imm f)
  | .cmnImm f => .cmnImm (imm f)
  | .orrImm f => .orrImm (imm f)
  | .movImm f => .movImm (imm f)
  | .bicImm f => .bicImm (imm f)
  | .mvnImm f => .mvnImm (imm f)
  | .andReg f => .andReg (reg f)
  | .eorReg f => .eorReg (reg f)
  | .subReg f => .subReg (reg f)
  | .rsbReg f => .rsbReg (reg f)
  | .addReg f => .addReg (reg f)
  | .adcReg f => .adcReg (reg f)
  | .sbcReg f => .sbcReg (reg f)
  | .rscReg f => .rscReg (reg f)
  | .tstReg f => .tstReg (reg f)
  | .teqReg f => .teqReg (reg f)
  | .cmpReg f => .cmpReg (reg f)
  | .cmnReg f => .cmnReg (reg f)
  | .orrReg f => .orrReg (reg f)
  | .movReg f => .movReg (reg f)
  | .bicReg f => .bicReg (reg f)
  | .mvnReg f => .mvnReg (reg f)
  | .str f => .str (ls f)
  | .ldr f => .ldr (ls f)
  | .b f => .b (br f)
  | .bl f => .bl (br f)
  | .unknown011 f => .unknown011 f
  | .unknown100 f => .unknown100 f
  | .unknown110 f => .unknown110 f
  | .unknown111 f => .unknown111 f
  | .thumbAddReg f => .thumbAddReg f
  | .thumbSubReg f => .thumbSubReg f
  | .thumbAddImm f => .thumbAddImm f
  | .thumbSubImm f => .thumbSubImm f
  | .thumbUnknown raw => .thumbUnknown raw

/-! #### Classes of instructions -/

/-- A data-processing instruction, the Thumb forms included (R31). -/
def isDataProcessing (i : Instr) : Bool :=
  match encode i with
  | .arm w   => fieldOf w.toNat 27 25 ≤ 1
  | .thumb h => fieldOf h.toNat 15 11 = 3

/-- ADC, SBC or RSC, which read C (R32). -/
def readsCarry (i : Instr) : Bool :=
  match i with
  | .adcImm _ | .sbcImm _ | .rscImm _ | .adcReg _ | .sbcReg _ | .rscReg _ => true
  | _ => false

/-- One of the five constructors whose words decode to UNKNOWN (R113, R127). -/
def isUnknown (i : Instr) : Bool :=
  match i with
  | .unknown011 _ | .unknown100 _ | .unknown110 _ | .unknown111 _ | .thumbUnknown _ => true
  | _ => false

/-- A word whose execution writes r15 as a general destination: an LDR or a data-processing instruction that writes a
register, with rd = 15 (R142, R171, R207). -/
def namesPcAsDestination (w : Word) : Prop :=
  fieldOf w.toNat 15 12 = 15 ∧
    ((fieldOf w.toNat 27 25 ≤ 1 ∧ fieldOf w.toNat 24 23 ≠ 2) ∨ (fieldOf w.toNat 27 25 = 2 ∧ fieldOf w.toNat 20 20 = 1))

/-- A raw word that decodes to UNKNOWN (R113, R127). -/
def isUnknownRaw : Raw → Prop
  | .arm w   => fieldOf w.toNat 27 25 = 3 ∨ fieldOf w.toNat 27 25 = 4 ∨ fieldOf w.toNat 27 25 = 6 ∨
      fieldOf w.toNat 27 25 = 7
  | .thumb h => fieldOf h.toNat 15 11 ≠ 3

/-! #### Effects of instructions -/

/-- The word of an ARM instruction has this group and this opcode (R113, R114, R117). -/
def HasOpcode (group opcode : Nat) (i : Instr) : Prop :=
  ∃ w, encode i = .arm w ∧ fieldOf w.toNat 27 25 = group ∧ fieldOf w.toNat 24 21 = opcode

/-- Both forms of a data-processing op_code that writes a register, in every state: the encoding, and the result from
`x[rn]` and `op2` (R140 to R142). -/
def WritingRule (opcode : Nat) (imm : DpImm → Instr) (reg : DpReg → Instr) (res : State → Word → Word → Word) : Prop :=
  (∀ f, HasOpcode 1 opcode (imm f)) ∧ (∀ f, HasOpcode 0 opcode (reg f)) ∧
    ∀ s : State,
      (∀ f : DpImm, ∃ t, exec (imm f) s = .next t ∧
        WritesResult false f.rd (res s (s.reg f.rn) (dpImmediate s.cfg.dpImmMode f.operand)) s t) ∧
      (∀ f : DpReg, ∃ t, exec (reg f) s = .next t ∧
        WritesResult false f.rd (res s (s.reg f.rn) (s.reg f.rm)) s t)

/-- Both forms of a comparing op_code, in every state (R140 to R142). -/
def ComparingRule (opcode : Nat) (imm : DpImm → Instr) (reg : DpReg → Instr) (res : Word → Word → Word) : Prop :=
  (∀ f, HasOpcode 1 opcode (imm f)) ∧ (∀ f, HasOpcode 0 opcode (reg f)) ∧
    ∀ s : State,
      (∀ f : DpImm, ∃ t, exec (imm f) s = .next t ∧
        SetsFlags (res (s.reg f.rn) (dpImmediate s.cfg.dpImmMode f.operand)) s t) ∧
      (∀ f : DpReg, ∃ t, exec (reg f) s = .next t ∧ SetsFlags (res (s.reg f.rn) (s.reg f.rm)) s t)

/-- A data-processing form with an immediate and no second register (R159): it stops with `OperandAbsent`, which records
the word, and leaves the state untouched. -/
def OperandAbsentRule (opcode : Nat) (imm : DpImm → Instr) : Prop :=
  ∀ f, ∃ w, encode (imm f) = .arm w ∧ fieldOf w.toNat 27 25 = 1 ∧ fieldOf w.toNat 24 21 = opcode ∧
    ∀ s, exec (imm f) s = .fault (.operandAbsent w s)

/-- C as a number (R146 to R148). -/
def carryOf (s : State) : Int := if s.c then 1 else 0

/-- The flags, the mode bit and the configuration are as before. -/
structure SameFlagsAndMode (s t : State) : Prop where
  n         : t.n = s.n
  z         : t.z = s.z
  c         : t.c = s.c
  v         : t.v = s.v
  thumbMode : t.thumbMode = s.thumbMode
  cfg       : t.cfg = s.cfg

/-- LDR: `v` loaded into `rd`, nothing else written; L1I is untouched and no byte of data changes (R171, R101). -/
structure LoadsWord (rd : Reg) (v : Word) (s t : State) : Prop where
  dest  : rd ≠ 15 → t.reg rd = v
  other : ∀ q, q ≠ rd → q ≠ 15 → t.reg q = s.reg q
  pc    : t.pc = if rd = 15 ∧ v ≠ s.pc then v else s.pc + 4
  flags : SameFlagsAndMode s t
  l1i   : t.l1i = s.l1i
  bytes : ∀ a, t.dataByte a = s.dataByte a

/-- STR: the bytes of `v`, least significant first, at `ea`; no register written, L1I untouched, no other byte of data
changed (R172, R63). -/
structure StoresWord (ea : Nat) (v : Word) (s t : State) : Prop where
  other : ∀ q, q ≠ 15 → t.reg q = s.reg q
  pc    : t.pc = s.pc + 4
  flags : SameFlagsAndMode s t
  l1i   : t.l1i = s.l1i
  bytes : ∀ a, t.dataByte a
    = if ea ≤ a ∧ a < ea + 4 then BitVec.ofNat 8 (fieldOf v.toNat (8 * (a - ea) + 7) (8 * (a - ea))) else s.dataByte a

/-- A branch: the PC is the target, or the next instruction when the target is the branch itself; with `link`, r14 is the
address of the next instruction; nothing else changes (R181, R182, R52). -/
structure Branches (link : Bool) (target : Word) (s t : State) : Prop where
  pc    : t.pc = if target = s.pc then s.pc + 4 else target
  lr    : t.reg 14 = if link then s.pc + 4 else s.reg 14
  other : ∀ q, q ≠ 14 → q ≠ 15 → t.reg q = s.reg q
  flags : SameFlagsAndMode s t
  hierarchy : SameHierarchy s t
  bytes : SameBytes s t

/-- What a fetch that answers leaves: the CPU, L1D, every byte of data and the last report as they were (R92, R101). -/
structure Fetched (s t : State) : Prop where
  cpu      : SameCpu s t
  l1d      : t.l1d = s.l1d
  bytes    : ∀ a, t.dataByte a = s.dataByte a
  surfaced : t.surfaced = s.surfaced
  inv      : t.Inv

/-- Two states that agree in everything but the flags. -/
structure SameButFlags (s t : State) : Prop where
  cfg       : t.cfg = s.cfg
  regs      : t.regs = s.regs
  thumbMode : t.thumbMode = s.thumbMode
  hierarchy : SameHierarchy s t
  surfaced  : t.surfaced = s.surfaced

/-- Two outcomes that agree in everything but the flags. -/
def AgreeButFlags : Result → Result → Prop
  | .next s, .next t => SameButFlags s t
  | .fault (.outOfBounds a k s), .fault (.outOfBounds b j t) => a = b ∧ k = j ∧ SameButFlags s t
  | .fault (.alignmentFault a s), .fault (.alignmentFault b t) => a = b ∧ SameButFlags s t
  | .fault (.operandAbsent w s), .fault (.operandAbsent x t) => w = x ∧ SameButFlags s t
  | _, _ => False

/-- The state with other flags. -/
def withFlags (s : State) (n z c v : Bool) : State := { s with n := n, z := z, c := c, v := v }

/-! #### The data side against a flat memory -/

/-- A data access. -/
inductive DataAccess
  | read (a : Word)
  | write (a v : Word)

/-- Data accesses in program order through the caches: the words read, and the state left. -/
def cachedRun : List DataAccess → State → Except Fault (List Word × State)
  | [], s => .ok ([], s)
  | .read a :: rest, s =>
    match readData a s with
    | .error fault => .error fault
    | .ok (w, t) =>
      match cachedRun rest t with
      | .error fault => .error fault
      | .ok (ws, u) => .ok (w :: ws, u)
  | .write a v :: rest, s =>
    match writeData a v s with
    | .error fault => .error fault
    | .ok t => cachedRun rest t

/-- A flat memory after a word write. -/
def flatWrite (m : Nat → Byte) (a : Nat) (v : Word) : Nat → Byte := fun x =>
  if a ≤ x ∧ x < a + 4 then BitVec.ofNat 8 (fieldOf v.toNat (8 * (x - a) + 7) (8 * (x - a))) else m x

/-- The same accesses on a flat memory with no cache: the words read, and the bytes left. -/
def flatRun : List DataAccess → (Nat → Byte) → List Word × (Nat → Byte)
  | [], m => ([], m)
  | .read a :: rest, m =>
    (le32 (m a.toNat) (m (a.toNat + 1)) (m (a.toNat + 2)) (m (a.toNat + 3)) :: (flatRun rest m).1, (flatRun rest m).2)
  | .write a v :: rest, m => flatRun rest (flatWrite m a.toNat v)

/-! #### Caches -/

/-- The counters of an L1 after one word access that answered, from the cache before it (R70, R72, R82, R85): one hit or
one miss, by whether a line matched, and one write-back when the victim of a miss was valid and dirty. -/
def CountsOne (C : CacheConfig) (a : Nat) (before after : Cache) : Prop :=
  match lookup C before a with
  | some _ => after.hits = before.hits + 1 ∧ after.misses = before.misses ∧ after.writeBacks = before.writeBacks
  | none   =>
    after.hits = before.hits ∧ after.misses = before.misses + 1 ∧
      after.writeBacks = before.writeBacks +
        (if lineCount C ≠ 0 ∧ (before.line (victim C before (indexOf C a))).valid = true ∧
            (before.line (victim C before (indexOf C a))).dirty = true then 1 else 0)

/-- A request served segment by segment (R80, R81): each segment is one access that counts as `CountsOne` says, and a write
then changes the data of the line it names, which becomes dirty, and nothing else. -/
def CountsEach {σ : Type} (C : CacheConfig) (low : Store σ) (write : Bool) :
    List (Nat × Nat) → Cache × σ → Cache × σ → Prop
  | [], before, after => after = before
  | (p, _) :: rest, before, after =>
    ∃ slot served m data, access C low p before = .ok slot (served, m) ∧ CountsOne C p before.1 served ∧
      CountsEach C low write rest
        (if write then served.setLine slot { served.line slot with data := data, dirty := true } else served, m) after

/-- The accesses that a level with this configuration counts for one request: one for each segment (R78, R85), and one for
a request to a zero-line cache (R82). -/
def requestCount (C : CacheConfig) (a k : Nat) : Nat := if lineCount C = 0 then 1 else (segments C a k).length

/-- The accesses L2 counts for one word access to an L1 that was `c` before it (R72, R73, R82): none on a hit; on a miss,
those of the fill and, when the victim is valid and dirty, those of its write-back; those of the word itself when the L1
has no lines. -/
def l2Accesses (C2 C : CacheConfig) (c : Cache) (a : Nat) : Nat :=
  if lineCount C = 0 then requestCount C2 a 4
  else
    match lookup C c a with
    | some _ => 0
    | none   =>
      let old := c.line (victim C c (indexOf C a))
      (if old.valid = true ∧ old.dirty = true then
          requestCount C2 (lineAddr C (victim C c (indexOf C a)) old.tag) old.data.length else 0) +
        requestCount C2 (a - offsetOf C a) C.bs

/-- A power of two. -/
def PowerOfTwo (n : Nat) : Prop := ∃ k, n = 2 ^ k

/-- The four checks of R66, each as the rule words it. -/
def Passes (C : CacheConfig) : ConfigCheck → Prop
  | .blockSize         => PowerOfTwo C.bs ∧ 4 ≤ C.bs
  | .capacityDivisible => C.bs ∣ C.cap
  | .lineCount         => C.policy = .direct → 1 ≤ C.cap / C.bs → PowerOfTwo (C.cap / C.bs)
  | .capacityLimit     => C.cap ≤ 2 ^ 32

/-- The configuration of a level (R40). -/
def levelConfig (cfg : Config) : Level → CacheConfig
  | .l1i => cfg.l1i
  | .l1d => cfg.l1d
  | .l2  => cfg.l2

/-- The byte at a of a launch image (R45): the last pair for it, else 0. -/
def imageByte (image : List Host.Cell) (a : Nat) : Byte :=
  match image.reverse.find? (fun cell => cell.1 == a) with
  | some cell => cell.2
  | none      => 0

/-- A cache as construction makes it (R41, R44). -/
structure ResetCache (C : CacheConfig) (c : Cache) : Prop where
  count    : c.lines.length = C.cap / C.bs
  lines    : ∀ l ∈ c.lines, l.valid = false ∧ l.dirty = false ∧ l.tag = 0 ∧ l.data = List.replicate C.bs 0 ∧ l.recency = 0
  counters : c.hits = 0 ∧ c.misses = 0 ∧ c.writeBacks = 0

end Sys2Proof.Statements

open Sys2Proof Sys2Proof.Machine Sys2Proof.Statements

/-! ### Encoding -/

/-- Decoding the encoding of a well-formed instruction gives it back, with every field at every value (R126, R127). -/
def Obligations.DecodeInvertsEncode : Prop := ∀ i : Instr, i.wellFormed = true → decode (encode i) = i

/-- The encoding of a decoded word is that word, and two words can decode to records that differ only in the raw word and
execute identically (R132). -/
def Obligations.EncodeInvertsDecode : Prop :=
  (∀ raw, encode (decode raw) = raw ∧ (decode raw).wellFormed = true ∧
    ∀ mode, (decodeRecord mode raw).rawWord = raw) ∧
  ∃ w w' : Word, w ≠ w' ∧
    (∀ mode, { decodeRecord mode (.arm w) with rawWord := .arm w' } = decodeRecord mode (.arm w')) ∧
    ∀ s, exec (decode (.arm w)) s = exec (decode (.arm w')) s

/-- Words of the spec's decode vectors decode to the instructions they stand for (95_test_vectors.md). -/
def Obligations.DecodeVectorWords : Prop :=
  decode (.arm 0xE2812005#32) = .addImm ⟨14, false, 1, 2, 5⟩ ∧
  decode (.arm 0xE12FFF1E#32) = .teqReg ⟨14, false, 15, 15, 0xF1, 14⟩ ∧
  decode (.arm 0xE5923000#32) = .ldr ⟨14, true, true, false, false, 2, 3, 0⟩ ∧
  decode (.arm 0xE5821004#32) = .str ⟨14, true, true, false, false, 2, 1, 4⟩ ∧
  decode (.arm 0xEBFFFFFF#32) = .bl ⟨14, 0xFFFFFF⟩ ∧
  decode (.arm 0xE8BD0001#32) = .unknown100 ⟨14, 0x0BD0001⟩ ∧
  decode (.thumb 0x1888#16) = .thumbAddReg ⟨2, 1, 0⟩ ∧
  decode (.thumb 0x1EC8#16) = .thumbSubImm ⟨3, 1, 0⟩ ∧
  decode (.thumb 0x2001#16) = .thumbUnknown 0x2001

/-- ARM decode gives the record that R126 writes down, field by field, for every word and every DP_IMM_MODE. -/
def Obligations.ArmDecodeRecord : Prop :=
  ∀ (mode : DpImmMode) (w : Word), decodeRecord mode (.arm w) = armRecordOfRule mode w

/-- Thumb decode gives the record that R127 writes down, field by field, for every halfword. -/
def Obligations.ThumbDecodeRecord : Prop :=
  ∀ (mode : DpImmMode) (h : Half), decodeRecord mode (.thumb h) = thumbRecordOfRule h

/-- The DP_IMM immediate under each DP_IMM_MODE, and that the three agree when the rotate field is 0 (R120). -/
def Obligations.DpImmediateByMode : Prop :=
  ∀ operand : BitVec 12,
    (∀ mode, (dpImmediate mode operand).toNat = dpImmOfRule mode operand.toNat) ∧
    (fieldOf operand.toNat 11 8 = 0 →
      dpImmediate .imm12 operand = dpImmediate .imm8 operand ∧ dpImmediate .rotated operand = dpImmediate .imm8 operand)

/-- The branch offset is four times the sign-extended 24-bit field, shifted once (R122). -/
def Obligations.BranchOffsetRange : Prop :=
  ∀ offset : BitVec 24,
    branchOffset offset = 4 * sext24 offset.toNat ∧
    -(2 ^ 25) ≤ branchOffset offset ∧ branchOffset offset ≤ 2 ^ 25 - 4

/-- An instruction's behaviour does not depend on the fields that R123 lists. EOR and TEQ with an immediate stop with
`OperandAbsent` whatever these fields hold (the fault records the raw word, R159). -/
def Obligations.UnreadFieldsIgnored : Prop :=
  ∀ s : State,
    (∀ i, exec (eraseUnread s.cfg.dpImmMode i) s = exec i s) ∧
    (∀ f, ∃ w, exec (.eorImm f) s = .fault (.operandAbsent w s)) ∧
    (∀ f, ∃ w, exec (.teqImm f) s = .fault (.operandAbsent w s))

/-! ### The step -/

/-- One step is: the fetch of the word at pc through L1I, then `exec` of the decoded instruction at the state that fetch
leaves (R51). In ARM state the word is the one the instruction side holds at pc, in Thumb state the halfword at pc in the
word that holds it (R92, R95). The step faults on a misaligned pc, and with the fetch's `OutOfBounds` where the word cannot
be served below MEM_SIZE (R205). -/
def Obligations.StepRunsDecodedInstruction : Prop :=
  ∀ s : State, s.Inv →
    (s.thumbMode = false →
      (s.pc.toNat % 4 ≠ 0 → step s = .fault (.alignmentFault s.pc s)) ∧
      (s.pc.toNat % 4 = 0 → FetchFits s.cfg s.pc.toNat →
        ∃ s1, fetchInstruction s.pc s = .ok (s.instrWord s.pc.toNat, s1) ∧ Fetched s s1 ∧
          step s = exec (decode (.arm (s.instrWord s.pc.toNat))) s1) ∧
      (s.pc.toNat % 4 = 0 → ¬ FetchFits s.cfg s.pc.toNat →
        ∃ a k u, fetchInstruction s.pc s = .error (.outOfBounds a k u) ∧ s.cfg.memSize < a + k ∧
          step s = .fault (.outOfBounds a k u))) ∧
    (s.thumbMode = true →
      (thumbFetchAddress s.pc).toNat = s.pc.toNat - s.pc.toNat % 4 ∧
      (s.pc.toNat % 2 ≠ 0 → step s = .fault (.alignmentFault s.pc s)) ∧
      (s.pc.toNat % 2 = 0 → FetchFits s.cfg (s.pc.toNat - s.pc.toNat % 4) →
        ∃ s1, fetchInstruction (thumbFetchAddress s.pc) s = .ok (s.instrWord (s.pc.toNat - s.pc.toNat % 4), s1) ∧
          Fetched s s1 ∧
          step s = exec (decode (.thumb (le16 (s.instrByte s.pc.toNat) (s.instrByte (s.pc.toNat + 1))))) s1) ∧
      (s.pc.toNat % 2 = 0 → ¬ FetchFits s.cfg (s.pc.toNat - s.pc.toNat % 4) →
        ∃ a k u, fetchInstruction (thumbFetchAddress s.pc) s = .error (.outOfBounds a k u) ∧ s.cfg.memSize < a + k ∧
          step s = .fault (.outOfBounds a k u)))

/-- `AlignmentFault` (R207): the three hierarchy operations raise it at an address that is not a multiple of 4, the Thumb
fetch at an odd pc, and nothing has been touched. From an aligned pc, an ARM word leaves a misaligned one only if it
writes r15 as a destination: a branch never does. -/
def Obligations.MisalignedAccessFaults : Prop :=
  (∀ (s : State) (a v : Word), a.toNat % 4 ≠ 0 →
    fetchInstruction a s = .error (.alignmentFault a s) ∧
    readData a s = .error (.alignmentFault a s) ∧
    writeData a v s = .error (.alignmentFault a s)) ∧
  (∀ s : State, s.thumbMode = true → s.pc.toNat % 2 ≠ 0 → step s = .fault (.alignmentFault s.pc s)) ∧
  (∀ (w : Word) (s t : State), s.pc.toNat % 4 = 0 → exec (decode (.arm w)) s = .next t → t.pc.toNat % 4 ≠ 0 →
    namesPcAsDestination w)

/-- Every step ends in a next state or in one of the three faults, and a fault tells its cause: an `OutOfBounds` names a
request beyond MEM_SIZE, an `AlignmentFault` an address that is not a multiple of 4, an `OperandAbsent` an EOR or TEQ word
with an immediate (R11, R202, R205, R207, R208). -/
def Obligations.FaultsNameTheirCause : Prop :=
  ∀ s : State,
    (∀ r, step s ≠ .refused r) ∧
    (∀ a k t, step s = .fault (.outOfBounds a k t) → s.cfg.memSize < a + k) ∧
    (∀ a t, step s = .fault (.alignmentFault a t) → a.toNat % 4 ≠ 0) ∧
    (∀ w t, step s = .fault (.operandAbsent w t) →
      fieldOf w.toNat 27 25 = 1 ∧ (fieldOf w.toNat 24 21 = 1 ∨ fieldOf w.toNat 24 21 = 9))

/-- At a fault the registers, the flags, the pc, the mode and every byte of data are those before the step (R210). -/
def Obligations.FaultIsPrecise : Prop :=
  ∀ (s : State) (f : Fault), s.Inv → step s = .fault f →
    SameCpu s f.left ∧ ∀ a, f.left.dataByte a = s.dataByte a

/-! ### Data processing -/

/-- ADD, SUB and RSB, both forms (R143, R144, R145). -/
def Obligations.AddSubtractResults : Prop :=
  WritingRule 4 .addImm .addReg (fun _ a b => wrap ((a.toNat : Int) + b.toNat)) ∧
  WritingRule 2 .subImm .subReg (fun _ a b => wrap ((a.toNat : Int) - b.toNat)) ∧
  WritingRule 3 .rsbImm .rsbReg (fun _ a b => wrap ((b.toNat : Int) - a.toNat))

/-- ADC, SBC and RSC, both forms, with the flag C whatever it holds (R146, R147, R148). -/
def Obligations.CarryResults : Prop :=
  WritingRule 5 .adcImm .adcReg (fun s a b => wrap ((a.toNat : Int) + b.toNat + carryOf s)) ∧
  WritingRule 6 .sbcImm .sbcReg (fun s a b => wrap ((a.toNat : Int) - b.toNat + carryOf s - 1)) ∧
  WritingRule 7 .rscImm .rscReg (fun s a b => wrap ((b.toNat : Int) - a.toNat + carryOf s - 1))

/-- MOV and MVN, both forms; `rn` is not read (R149, R154). -/
def Obligations.MoveResults : Prop :=
  WritingRule 13 .movImm .movReg (fun _ _ b => b) ∧
  WritingRule 15 .mvnImm .mvnReg (fun _ _ b => wrap (0xFFFFFFFF - (b.toNat : Int)))

/-- AND, ORR and BIC, both forms (R150, R151, R153). -/
def Obligations.LogicalResults : Prop :=
  WritingRule 0 .andImm .andReg (fun _ a b => a &&& b) ∧
  WritingRule 12 .orrImm .orrReg (fun _ a b => a ||| b) ∧
  WritingRule 14 .bicImm .bicReg (fun _ a b => a &&& wrap (0xFFFFFFFF - (b.toNat : Int)))

/-- TST, CMP and CMN, both forms: N and Z only, no register written, rd = 15 included (R155, R157, R158). -/
def Obligations.CompareResults : Prop :=
  ComparingRule 8 .tstImm .tstReg (fun a b => a &&& b) ∧
  ComparingRule 10 .cmpImm .cmpReg (fun a b => wrap ((a.toNat : Int) - b.toNat)) ∧
  ComparingRule 11 .cmnImm .cmnReg (fun a b => wrap ((a.toNat : Int) + b.toNat))

/-- EOR and TEQ read two registers; with an immediate they stop with `OperandAbsent` and write nothing (R152, R156,
R159). -/
def Obligations.RegisterOnlyResults : Prop :=
  (∀ f, HasOpcode 0 1 (.eorReg f)) ∧ (∀ f, HasOpcode 0 9 (.teqReg f)) ∧
  (∀ (f : DpReg) (s : State), ∃ t, exec (.eorReg f) s = .next t ∧
    WritesResult false f.rd (s.reg f.rn ^^^ s.reg f.rm) s t) ∧
  (∀ (f : DpReg) (s : State), ∃ t, exec (.teqReg f) s = .next t ∧ SetsFlags (s.reg f.rn ^^^ s.reg f.rm) s t) ∧
  OperandAbsentRule 1 .eorImm ∧ OperandAbsentRule 9 .teqImm

/-- The four Thumb forms, in every state: the ADD and SUB results on r0 to r7, the flags, and the PC advanced by 2; none
faults, and none names r15 (R190 to R194). -/
def Obligations.ThumbResults : Prop :=
  ∀ s : State,
    (∀ f : ThumbReg, ∃ t, exec (.thumbAddReg f) s = .next t ∧
      WritesResult true (lowReg f.rd) (wrap (((s.reg (lowReg f.rn)).toNat : Int) + (s.reg (lowReg f.rm)).toNat)) s t) ∧
    (∀ f : ThumbReg, ∃ t, exec (.thumbSubReg f) s = .next t ∧
      WritesResult true (lowReg f.rd) (wrap (((s.reg (lowReg f.rn)).toNat : Int) - (s.reg (lowReg f.rm)).toNat)) s t) ∧
    (∀ f : ThumbImm, ∃ t, exec (.thumbAddImm f) s = .next t ∧
      WritesResult true (lowReg f.rd) (wrap (((s.reg (lowReg f.rn)).toNat : Int) + f.imm.toNat)) s t) ∧
    (∀ f : ThumbImm, ∃ t, exec (.thumbSubImm f) s = .next t ∧
      WritesResult true (lowReg f.rd) (wrap (((s.reg (lowReg f.rn)).toNat : Int) - f.imm.toNat)) s t) ∧
    (∀ r : LowReg, (lowReg r).val = r.val ∧ lowReg r ≠ 15)

/-! ### Load, store and branch -/

/-- LDR (R170, R171): where the effective address is aligned and its word can be served below MEM_SIZE, it loads the word
of the data view, and the caches are as `read_data` leaves them; elsewhere it faults. -/
def Obligations.LdrLoadsWord : Prop :=
  ∀ (f : LoadStore) (s : State),
    effectiveAddress f s = wrap (((s.reg f.rn).toNat : Int) + f.offset.toNat) ∧
    ((effectiveAddress f s).toNat % 4 ≠ 0 → exec (.ldr f) s = .fault (.alignmentFault (effectiveAddress f s) s)) ∧
    (s.Inv → (effectiveAddress f s).toNat % 4 = 0 →
      (DataFits s.cfg (effectiveAddress f s).toNat →
        ∃ t s1, exec (.ldr f) s = .next t ∧ LoadsWord f.rd (s.dataWord (effectiveAddress f s).toNat) s t ∧
          readData (effectiveAddress f s) s = .ok (s.dataWord (effectiveAddress f s).toNat, s1) ∧ SameHierarchy s1 t) ∧
      (¬ DataFits s.cfg (effectiveAddress f s).toNat → ∃ a k u, exec (.ldr f) s = .fault (.outOfBounds a k u)))

/-- STR (R170, R172): where the effective address is aligned and its word can be served below MEM_SIZE, the data view
holds the bytes of `x[rd]` there afterwards, and every other byte as before, and the caches are as `write_data` leaves
them; elsewhere it faults. -/
def Obligations.StrStoresWord : Prop :=
  ∀ (f : LoadStore) (s : State),
    effectiveAddress f s = wrap (((s.reg f.rn).toNat : Int) + f.offset.toNat) ∧
    ((effectiveAddress f s).toNat % 4 ≠ 0 → exec (.str f) s = .fault (.alignmentFault (effectiveAddress f s) s)) ∧
    (s.Inv → (effectiveAddress f s).toNat % 4 = 0 →
      (DataFits s.cfg (effectiveAddress f s).toNat →
        ∃ t s1, exec (.str f) s = .next t ∧ StoresWord (effectiveAddress f s).toNat (s.reg f.rd) s t ∧
          writeData (effectiveAddress f s) (s.reg f.rd) s = .ok s1 ∧ SameHierarchy s1 t) ∧
      (¬ DataFits s.cfg (effectiveAddress f s).toNat → ∃ a k u, exec (.str f) s = .fault (.outOfBounds a k u)))

/-- B (R180, R181): the target wraps modulo 2^32 and keeps the alignment of the branch. -/
def Obligations.BranchGoesToTarget : Prop :=
  ∀ (f : Branch) (s : State),
    (wrap ((s.pc.toNat : Int) + 8 + 4 * sext24 f.offset.toNat)).toNat % 4 = s.pc.toNat % 4 ∧
    ∃ t, exec (.b f) s = .next t ∧ Branches false (wrap ((s.pc.toNat : Int) + 8 + 4 * sext24 f.offset.toNat)) s t

/-- BL (R180, R182): r14 receives the address of the next instruction, and the PC the target. -/
def Obligations.BranchLinkGoesToTarget : Prop :=
  ∀ (f : Branch) (s : State),
    ∃ t, exec (.bl f) s = .next t ∧ Branches true (wrap ((s.pc.toNat : Int) + 8 + 4 * sext24 f.offset.toNat)) s t

/-! ### UNKNOWN words -/

/-- A word that decodes to UNKNOWN ends the step with the diagnostic `UnknownOpcode(raw_word)` and changes nothing else:
no register, flag, byte, cache or PC (R55, R128, R203). The five constructors are the decodings of those words. -/
def Obligations.UnknownWordReports : Prop :=
  (∀ (mode : DpImmMode) (raw : Raw),
    ((decodeRecord mode raw).opCode = .unknown ↔ isUnknownRaw raw) ∧
    (isUnknownRaw raw →
      (decodeRecord mode raw).opType = .unknown ∧ (decodeRecord mode raw).rn = none ∧
      (decodeRecord mode raw).rd = none ∧ (decodeRecord mode raw).rm = none ∧ (decodeRecord mode raw).imm = none ∧
      ∀ s : State, exec (decode raw) s = .next { s with surfaced := .unknownOpcode raw })) ∧
  ∀ s : State,
    (∀ f, ∃ t, exec (.unknown011 f) s = .next t ∧ t = { s with surfaced := .unknownOpcode (encode (.unknown011 f)) }) ∧
    (∀ f, ∃ t, exec (.unknown100 f) s = .next t ∧ t = { s with surfaced := .unknownOpcode (encode (.unknown100 f)) }) ∧
    (∀ f, ∃ t, exec (.unknown110 f) s = .next t ∧ t = { s with surfaced := .unknownOpcode (encode (.unknown110 f)) }) ∧
    (∀ f, ∃ t, exec (.unknown111 f) s = .next t ∧ t = { s with surfaced := .unknownOpcode (encode (.unknown111 f)) }) ∧
    (∀ h, ∃ t, exec (.thumbUnknown h) s = .next t ∧ t = { s with surfaced := .unknownOpcode (.thumb h) })

/-- After an `UnknownOpcode` the core reports the same word at every following step, forever, with the registers, the pc
and the flags as they were (R204). -/
def Obligations.UnknownWordRepeatsForever : Prop :=
  ∀ (s t : State) (raw : Raw), s.Inv → step s = .next t → t.surfaced = .unknownOpcode raw →
    ∀ n, ∃ u, Runs n t u ∧ SameCpu s u ∧ u.surfaced = .unknownOpcode raw

/-! ### Flags, mode and report -/

/-- N and Z are written by every data-processing instruction, whatever they held, and by no other (R31). -/
def Obligations.OnlyDataProcessingWritesNZ : Prop :=
  (∀ (i : Instr) (s t : State), exec i s = .next t → (isDataProcessing i = false ∨ i.wellFormed = false) → SameNZ s t) ∧
  (∀ (i : Instr) (s t : State) (n z : Bool), i.wellFormed = true → isDataProcessing i = true → exec i s = .next t →
    ∃ u, exec i { s with n := n, z := z } = .next u ∧ u.n = t.n ∧ u.z = t.z)

/-- C and V, the mode bit and the configuration are written by no instruction and by no host operation, so they keep
their reset values for the whole run (R33, R34, R35, R37). -/
def Obligations.CarryOverflowAndModeNeverWritten : Prop :=
  (∀ (op : HostOp) (s t : State), hostApply op s = .next t →
    t.c = s.c ∧ t.v = s.v ∧ t.thumbMode = s.thumbMode ∧ t.cfg = s.cfg) ∧
  (∀ (n : Nat) (s t : State), Runs n s t →
    t.c = s.c ∧ t.v = s.v ∧ t.thumbMode = s.thumbMode ∧ t.cfg = s.cfg) ∧
  (∀ (L : Launch) (n : Nat) (s t : State), construct L = .ok s → Runs n s t →
    t.c = false ∧ t.v = false ∧ t.thumbMode = L.thumbInit ∧ t.cfg = L.cfg)

/-- No instruction reads N, Z or V, and only ADC, SBC and RSC read C: with other flags an instruction has the same outcome
in everything but the flags (R32). -/
def Obligations.OnlyCarryInstructionsReadFlags : Prop :=
  (∀ (i : Instr) (s : State) (n z c v : Bool), (readsCarry i = true → c = s.c) →
    AgreeButFlags (exec i s) (exec i (withFlags s n z c v))) ∧
  (∃ s : State,
    (∃ f, ¬ AgreeButFlags (exec (.adcImm f) s) (exec (.adcImm f) (withFlags s s.n s.z (!s.c) s.v))) ∧
    (∃ f, ¬ AgreeButFlags (exec (.sbcImm f) s) (exec (.sbcImm f) (withFlags s s.n s.z (!s.c) s.v))) ∧
    (∃ f, ¬ AgreeButFlags (exec (.rscImm f) s) (exec (.rscImm f) (withFlags s s.n s.z (!s.c) s.v))) ∧
    (∃ f, ¬ AgreeButFlags (exec (.adcReg f) s) (exec (.adcReg f) (withFlags s s.n s.z (!s.c) s.v))) ∧
    (∃ f, ¬ AgreeButFlags (exec (.sbcReg f) s) (exec (.sbcReg f) (withFlags s s.n s.z (!s.c) s.v))) ∧
    (∃ f, ¬ AgreeButFlags (exec (.rscReg f) s) (exec (.rscReg f) (withFlags s s.n s.z (!s.c) s.v))))

/-- The envelope's report (R56). The five UNKNOWN constructors, and no other, report `UnknownOpcode` of their own word
(R203). Every other instruction that goes on reports the registers whose value changed, in ascending order, each once; and
for LDR and STR the address with its old and new word as the data side sees them, if they differ. That the model holds the
report in its state is assumption 14. -/
def Obligations.ReportListsWhatChanged : Prop :=
  ∀ (i : Instr) (s t : State), exec i s = .next t →
    (isUnknown i = true → t.surfaced = .unknownOpcode (encode i)) ∧
    (isUnknown i = false → ∃ r, t.surfaced = .changed r ∧
      r.regs.Pairwise (fun p q => p < q) ∧ (∀ q, q ∈ r.regs ↔ s.reg q ≠ t.reg q) ∧
      (∀ f, i = .ldr f ∨ i = .str f →
        r.word = if s.dataWord (effectiveAddress f s).toNat = t.dataWord (effectiveAddress f s).toNat then none
          else some (effectiveAddress f s, s.dataWord (effectiveAddress f s).toNat,
            t.dataWord (effectiveAddress f s).toNat)) ∧
      ((∀ f, i ≠ .ldr f ∧ i ≠ .str f) → r.word = none))

/-- Executing a decoded instruction changes no L1I state: only the fetch does (R57, R91). -/
def Obligations.ExecuteLeavesL1I : Prop :=
  ∀ (raw : Raw) (s : State),
    (∀ t, hostExecute raw s = .next t → t.l1i = s.l1i) ∧ (∀ f, hostExecute raw s = .fault f → f.left.l1i = s.l1i)

/-! ### The invariant -/

/-- The invariant holds at reset. It rests on the launch parameters of assumptions 1 to 6. -/
def Obligations.InvariantAtReset : Prop := State.reset.Inv

/-- Construction gives a state that meets the invariant, for every value of the launch parameters with
1 <= MEM_SIZE <= 2^32 (R7, R231). -/
def Obligations.InvariantAtConstruction : Prop :=
  ∀ (L : Launch) (s : State), 1 ≤ L.cfg.memSize → L.cfg.memSize ≤ 2 ^ 32 → construct L = .ok s → s.Inv

/-- Every step keeps the invariant: the memory's canonical form, the shape of the caches (R38, R41), the uniqueness of tags
and recencies (R76), the recency of direct-mapped lines (R77), the clean L1I that never writes back (R88), the in-bounds
lines (R205) and the agreement of clean lines with the level below. The state a fault leaves meets it too. -/
def Obligations.StepKeepsInvariant : Prop :=
  ∀ s : State, s.Inv → (∀ t, step s = .next t → t.Inv) ∧ (∀ f, step s = .fault f → f.left.Inv)

/-- Every host operation keeps the invariant (R240). -/
def Obligations.HostOperationKeepsInvariant : Prop :=
  ∀ (op : HostOp) (s : State), s.Inv →
    (∀ t, hostApply op s = .next t → t.Inv) ∧ (∀ f, hostApply op s = .fault f → f.left.Inv)

/-! ### Construction, reset and the loader -/

/-- The four checks of R66 in their order; construction fails exactly when one of the three caches fails one, and the error
names a level and the first check it fails (R66, R206). -/
def Obligations.ConstructionChecks : Prop :=
  (∀ C : CacheConfig,
    (checkCache C = none ↔ ∀ k, Passes C k) ∧
    (checkCache C = some .blockSize ↔ ¬ Passes C .blockSize) ∧
    (checkCache C = some .capacityDivisible ↔ Passes C .blockSize ∧ ¬ Passes C .capacityDivisible) ∧
    (checkCache C = some .lineCount ↔
      Passes C .blockSize ∧ Passes C .capacityDivisible ∧ ¬ Passes C .lineCount) ∧
    (checkCache C = some .capacityLimit ↔
      Passes C .blockSize ∧ Passes C .capacityDivisible ∧ Passes C .lineCount ∧ ¬ Passes C .capacityLimit)) ∧
  (∀ L : Launch, (∃ s, construct L = .ok s) ↔
    (∀ k, Passes L.cfg.l1i k) ∧ (∀ k, Passes L.cfg.l1d k) ∧ (∀ k, Passes L.cfg.l2 k)) ∧
  (∀ (L : Launch) (e : ConfigurationError), construct L = .error e →
    checkCache (levelConfig L.cfg e.level) = some e.check)

/-- The reset state (R232), for every value of the launch parameters. -/
def Obligations.ConstructionGivesResetState : Prop :=
  ∀ (L : Launch) (s : State), construct L = .ok s →
    s.cfg = L.cfg ∧
    (∀ r : Fin 15, s.reg r.castSucc = L.regInit[r]) ∧
    s.pc = 0 ∧ s.n = false ∧ s.z = false ∧ s.c = false ∧ s.v = false ∧ s.thumbMode = L.thumbInit ∧
    ResetCache L.cfg.l1i s.l1i ∧ ResetCache L.cfg.l1d s.l1d ∧ ResetCache L.cfg.l2 s.l2 ∧
    (∀ a, a < L.cfg.memSize → s.mem.readByte a = imageByte L.memInit a)

/-- `State.reset` is a construction, with the launch parameters of assumptions 1 to 6. -/
def Obligations.ResetIsConstruction : Prop := construct Launch.default = .ok State.reset

/-- The loader (R233): the program's bytes are in main memory from address 0 and both sides see them; the rest of memory,
the CPU and the caches are as constructed; a program longer than MEM_SIZE is not loaded. -/
def Obligations.LoaderPlacesProgram : Prop :=
  ∀ (L : Launch) (s : State) (program : List Byte), construct L = .ok s →
    (L.cfg.memSize < program.length → loadProgram program s = none) ∧
    (program.length ≤ L.cfg.memSize → ∃ t, loadProgram program s = some t ∧
      (∀ i (h : i < program.length),
        t.mem.readByte i = program[i] ∧ t.instrByte i = program[i] ∧ t.dataByte i = program[i]) ∧
      (∀ a, program.length ≤ a → t.mem.readByte a = s.mem.readByte a) ∧
      SameCpu s t ∧ t.l1i = s.l1i ∧ t.l1d = s.l1d ∧ t.l2 = s.l2)

/-! ### Memory and caches -/

/-- Main memory (R61, R62): a request that names a byte at or above MEM_SIZE raises `OutOfBounds` and touches nothing, one
within it reads or writes exactly its bytes, and the list stays canonical. -/
def Obligations.MainMemoryRequests : Prop :=
  ∀ (memSize a : Nat) (m : Memory), Memory.wf m →
    (∀ k, memSize < a + k → mainRead memSize a k m = .outOfBounds a k m) ∧
    (∀ k, a + k ≤ memSize → ∃ bytes, mainRead memSize a k m = .ok bytes m ∧ bytes.length = k ∧
      ∀ i (h : i < bytes.length), bytes[i] = m.readByte (a + i)) ∧
    (∀ b : List Byte, memSize < a + b.length → mainWrite memSize a b m = .outOfBounds a b.length m) ∧
    (∀ b : List Byte, a + b.length ≤ memSize → ∃ m', mainWrite memSize a b m = .ok () m' ∧ Memory.wf m' ∧
      (∀ i (h : i < b.length), m'.readByte (a + i) = b[i]) ∧
      (∀ x, x < a ∨ a + b.length ≤ x → m'.readByte x = m.readByte x))

/-- The segments of a request (R78): they cover its bytes in ascending order and each lies in one block. An aligned word is
one segment; so is an aligned block of an upper cache that is not larger than this cache's block; a larger one is
`upper.bs / bs` segments of one whole block each. -/
def Obligations.SegmentsCoverRequest : Prop :=
  ∀ (C : CacheConfig) (a k : Nat), 0 < C.bs →
    (segments C a k).flatMap (fun seg => List.range' seg.1 seg.2) = List.range' a k ∧
    (∀ seg ∈ segments C a k, 0 < seg.2 ∧ seg.1 / C.bs = (seg.1 + seg.2 - 1) / C.bs) ∧
    (Passes C .blockSize → a % 4 = 0 → segments C a 4 = [(a, 4)]) ∧
    (PowerOfTwo C.bs → PowerOfTwo k → a % k = 0 →
      (k ≤ C.bs → segments C a k = [(a, k)]) ∧
      (C.bs < k → segments C a k = (List.range (k / C.bs)).map fun i => (a + i * C.bs, C.bs)))

/-- The block address of a line (R74) and the decomposition of an address (R68) are inverse: an address is the address of
the line its index and tag name, plus its offset, and a line's block address is below 2^32. -/
def Obligations.LineAddressInvertsDecomposition : Prop :=
  ∀ C : CacheConfig, (∀ k, Passes C k) → lineCount C ≠ 0 →
    (∀ a slot, (C.policy = .direct → slot = indexOf C a) →
      lineAddr C slot (tagOf C a) + offsetOf C a = a ∧ offsetOf C a < C.bs ∧ indexOf C a < lineCount C) ∧
    (∀ slot tag, slot < lineCount C → tag < 2 ^ tagBits C → lineAddr C slot tag < 2 ^ 32)

/-- Victim choice (R71): the indexed line of a direct-mapped cache; the first invalid line of a fully-associative one, or
else the first of its lines with the largest recency. -/
def Obligations.VictimChoice : Prop :=
  ∀ (C : CacheConfig) (c : Cache) (idx : Nat),
    (C.policy = .direct → victim C c idx = idx) ∧
    (C.policy = .fullyAssociative → c.lines ≠ [] →
      victim C c idx < c.lines.length ∧
      ((∃ l ∈ c.lines, l.valid = false) →
        (c.line (victim C c idx)).valid = false ∧ ∀ i, i < victim C c idx → (c.line i).valid = true) ∧
      ((∀ l ∈ c.lines, l.valid = true) →
        (∀ i, i < c.lines.length → (c.line i).recency ≤ (c.line (victim C c idx)).recency) ∧
        ∀ i, i < victim C c idx → (c.line i).recency < (c.line (victim C c idx)).recency))

/-- The LRU update (R75), for any cache with lines over any lower level. In a fully-associative cache an access that answers
leaves the slot it names valid with recency 0, adds 1 to the recency of every other line that was valid, and keeps every
other line that was invalid; so, when all of at least two lines are then valid, that slot is not the next victim (R71). In a
direct-mapped cache no recency changes (R77). -/
def Obligations.JustUsedLineSurvives : Prop :=
  ∀ (σ : Type) (C : CacheConfig) (low : Store σ) (a slot : Nat) (c c' : Cache) (m m' : σ),
    lineCount C ≠ 0 → c.lines.length = lineCount C → access C low a (c, m) = .ok slot (c', m') →
    (C.policy = .fullyAssociative →
      slot < lineCount C ∧ c'.lines.length = lineCount C ∧
      (c'.line slot).valid = true ∧ (c'.line slot).recency = 0 ∧
      (∀ i, i < lineCount C → i ≠ slot → (c.line i).valid = true →
        c'.line i = { c.line i with recency := (c.line i).recency + 1 }) ∧
      (∀ i, i < lineCount C → i ≠ slot → (c.line i).valid = false → c'.line i = c.line i) ∧
      (2 ≤ lineCount C → (∀ l ∈ c'.lines, l.valid = true) → ∀ idx, victim C c' idx ≠ slot)) ∧
    (C.policy = .direct → ∀ i, (c'.line i).recency = (c.line i).recency)

/-- A read returns the data view's word and a fetch the instruction view's, taken before the access; a read and a fetch
change no byte of data, a write lays its word there; none of them touches the CPU or the other L1 (R92 to R95, R101). -/
def Obligations.AccessReturnsView : Prop :=
  ∀ (s t : State) (a : Word), s.Inv →
    (∀ w, fetchInstruction a s = .ok (w, t) →
      w = s.instrWord a.toNat ∧ SameCpu s t ∧ t.l1d = s.l1d ∧ ∀ x, t.dataByte x = s.dataByte x) ∧
    (∀ w, readData a s = .ok (w, t) →
      w = s.dataWord a.toNat ∧ SameCpu s t ∧ t.l1i = s.l1i ∧ ∀ x, t.dataByte x = s.dataByte x) ∧
    (∀ v, writeData a v s = .ok t →
      SameCpu s t ∧ t.l1i = s.l1i ∧ ∀ x, t.dataByte x = flatWrite s.dataByte a.toNat v x)

/-- The data side is sequentially consistent: any sequence of reads and writes that does not fault reads what a flat memory
with no cache reads, and leaves the bytes it leaves, in every cache configuration (R96, R100). -/
def Obligations.CachesRefineFlatMemory : Prop :=
  ∀ (accesses : List DataAccess) (s t : State) (words : List Word), s.Inv →
    cachedRun accesses s = .ok (words, t) →
    words = (flatRun accesses s.dataByte).1 ∧ ∀ a, t.dataByte a = (flatRun accesses s.dataByte).2 a

/-- Only a store changes the bytes of data: a step that changes one has executed an STR (R101, R172). -/
def Obligations.OnlyStrChangesData : Prop :=
  ∀ (s t : State) (a : Nat), s.Inv → step s = .next t → t.dataByte a ≠ s.dataByte a →
    ∃ raw s1 f, fetchRaw s = .ok (raw, s1) ∧ decode raw = .str f ∧
      (effectiveAddress f s).toNat ≤ a ∧ a < (effectiveAddress f s).toNat + 4

/-- The counters of a request that answers (R78, R80, R81, R85). A cache with lines, over any lower level, counts for each
segment exactly one hit or one miss, by whether a line matched, and a write-back exactly when the victim was valid and
dirty, so hits and misses grow together by the number of segments; a zero-line cache counts one miss and nothing else
(R82). The word access of a fetch, a read or a write is one segment of its L1. -/
def Obligations.WordAccessCountsOnce : Prop :=
  (∀ (σ : Type) (C : CacheConfig) (low : Store σ) (a : Nat) (c c' : Cache) (m m' : σ), lineCount C ≠ 0 →
    (∀ k bytes, cacheRead C low a k (c, m) = .ok bytes (c', m') →
      CountsEach C low false (segments C a k) (c, m) (c', m') ∧
      c'.hits + c'.misses = c.hits + c.misses + (segments C a k).length) ∧
    (∀ bytes : List Byte, cacheWrite C low a bytes (c, m) = .ok () (c', m') →
      CountsEach C low true (segments C a bytes.length) (c, m) (c', m') ∧
      c'.hits + c'.misses = c.hits + c.misses + (segments C a bytes.length).length)) ∧
  (∀ (σ : Type) (C : CacheConfig) (low : Store σ) (a : Nat) (c c' : Cache) (m m' : σ), lineCount C = 0 →
    (∀ k bytes, cacheRead C low a k (c, m) = .ok bytes (c', m') → c' = { c with misses := c.misses + 1 }) ∧
    (∀ bytes, cacheWrite C low a bytes (c, m) = .ok () (c', m') → c' = { c with misses := c.misses + 1 })) ∧
  ∀ (s t : State) (a : Word), ConfigOk s.cfg → s.l1i.lines.length = lineCount s.cfg.l1i →
    s.l1d.lines.length = lineCount s.cfg.l1d →
    (∀ w, fetchInstruction a s = .ok (w, t) → CountsOne s.cfg.l1i a.toNat s.l1i t.l1i) ∧
    (∀ w, readData a s = .ok (w, t) → CountsOne s.cfg.l1d a.toNat s.l1d t.l1d) ∧
    (∀ v, writeData a v s = .ok t → CountsOne s.cfg.l1d a.toNat s.l1d t.l1d)

/-- Writes are write-back and write-allocate (R79): after a write that answers, L1D (if it has lines) holds the address in a
dirty line, and a write that hits changes neither L2 nor main memory. -/
def Obligations.StoreStaysInL1D : Prop :=
  ∀ (s t : State) (a v : Word), s.Inv → lineCount s.cfg.l1d ≠ 0 → writeData a v s = .ok t →
    (∃ slot, lookup s.cfg.l1d t.l1d a.toNat = some slot ∧ (t.l1d.line slot).dirty = true) ∧
    (lookup s.cfg.l1d s.l1d a.toNat ≠ none → t.l2 = s.l2 ∧ t.mem = s.mem)

/-- A second read of an address right after the first hits in L1D, returns the same word, and changes neither L2 nor main
memory (90_conflicts.md C13; R70, R101). -/
def Obligations.SecondReadHits : Prop :=
  ∀ (s t : State) (a w : Word), s.Inv → lineCount s.cfg.l1d ≠ 0 → readData a s = .ok (w, t) →
    ∃ u, readData a t = .ok (w, u) ∧ u.l1d.hits = t.l1d.hits + 1 ∧ u.l1d.misses = t.l1d.misses ∧
      u.l1d.writeBacks = t.l1d.writeBacks ∧ u.l2 = t.l2 ∧ u.mem = t.mem

/-- The flat variant (R90): with the three capacities 0, every aligned access reaches main memory unchanged and only the
miss counters move, so a fetch sees the latest store. -/
def Obligations.FlatVariantReachesMemory : Prop :=
  ∀ (s : State) (a v : Word), s.cfg.l1i.cap = 0 → s.cfg.l1d.cap = 0 → s.cfg.l2.cap = 0 → a.toNat % 4 = 0 →
    a.toNat + 4 ≤ s.cfg.memSize →
    fetchInstruction a s = .ok (wordOfBytes (s.mem.readBytes a.toNat 4),
      { s with l1i := { s.l1i with misses := s.l1i.misses + 1 }, l2 := { s.l2 with misses := s.l2.misses + 1 } }) ∧
    readData a s = .ok (wordOfBytes (s.mem.readBytes a.toNat 4),
      { s with l1d := { s.l1d with misses := s.l1d.misses + 1 }, l2 := { s.l2 with misses := s.l2.misses + 1 } }) ∧
    writeData a v s = .ok
      { s with
        l1d := { s.l1d with misses := s.l1d.misses + 1 }, l2 := { s.l2 with misses := s.l2.misses + 1 },
        mem := s.mem.writeBytes a.toNat (bytesLe32 v) } ∧
    (Memory.wf s.mem → ∃ t u, writeData a v s = .ok t ∧ fetchInstruction a t = .ok (v, u))

/-- A line that L1I holds stays stale: after a store to its address a fetch still returns the word L1I held (R99, R242). -/
def Obligations.StaleInstructionLine : Prop :=
  ∀ (s t : State) (a b v : Word), s.Inv → lookup s.cfg.l1i s.l1i b.toNat ≠ none → b.toNat % 4 = 0 →
    writeData a v s = .ok t → ∃ u, fetchInstruction b t = .ok (s.instrWord b.toNat, u)

/-- The statistics snapshot (R88) after any run: the three miss counters and the sum of the write-back counters, to which
L1I, whose lines are never dirty, adds nothing; and twice the cost metric (R89). -/
def Obligations.StatisticsSnapshot : Prop :=
  ∀ (n : Nat) (s t : State), s.Inv → Runs n s t →
    t.statistics.l1iMisses = t.l1i.misses ∧ t.statistics.l1dMisses = t.l1d.misses ∧ t.statistics.l2Misses = t.l2.misses ∧
    t.statistics.totalWriteBacks = t.l1d.writeBacks + t.l2.writeBacks ∧
    t.l1i.writeBacks = 0 ∧ (∀ l ∈ t.l1i.lines, l.dirty = false) ∧
    twiceCost t.statistics
      = t.l1i.misses + t.l1d.misses + 2 * t.l2.misses + 2 * (t.l1d.writeBacks + t.l2.writeBacks)

/-! ### The step and a miss, rule by rule -/

/-- R51 for every state, the invariant not assumed: the fetch, its fault if it faults, else `Execute` of the decoding of
what it returned, at the state it leaves. -/
def Obligations.StepIsFetchDecodeExecute : Prop :=
  ∀ s : State,
    (s.thumbMode = false →
      (∀ w s1, fetchInstruction s.pc s = .ok (w, s1) → step s = exec (decode (.arm w)) s1) ∧
      (∀ f, fetchInstruction s.pc s = .error f → step s = .fault f)) ∧
    (s.thumbMode = true →
      (fieldOf s.pc.toNat 0 0 = 1 → step s = .fault (.alignmentFault s.pc s)) ∧
      (fieldOf s.pc.toNat 0 0 = 0 →
        (∀ w s1, fetchInstruction (wrap ((s.pc.toNat : Int) - s.pc.toNat % 4)) s = .ok (w, s1) →
          step s = exec (decode (.thumb (BitVec.ofNat 16
            (if fieldOf s.pc.toNat 1 1 = 0 then fieldOf w.toNat 15 0 else fieldOf w.toNat 31 16)))) s1) ∧
        (∀ f, fetchInstruction (wrap ((s.pc.toNat : Int) - s.pc.toNat % 4)) s = .error f → step s = .fault f)))

/-- One resolved access (R70) and miss handling (R72, R73), for any cache with lines over any lower level. It counts as
`CountsOne` says. A hit names the line that matches and makes no request to the lower level. A miss names the victim; if the
victim is valid and dirty its data is written to the lower level at its own block address, and then, from the state that
leaves, the aligned block is read into its line, valid and clean. The other lines change by the LRU update only (R75). -/
def Obligations.MissWritesBackThenFills : Prop :=
  ∀ (σ : Type) (C : CacheConfig) (low : Store σ) (a slot : Nat) (c c' : Cache) (m m' : σ),
    lineCount C ≠ 0 → c.lines.length = lineCount C → (C.policy = .direct → indexOf C a < lineCount C) →
    access C low a (c, m) = .ok slot (c', m') →
    CountsOne C a c c' ∧
    (c'.line slot).recency = (if C.policy = .fullyAssociative then 0 else (c.line slot).recency) ∧
    (∀ i, i ≠ slot → c'.line i =
      if C.policy = .fullyAssociative ∧ (c.line i).valid = true then
        { c.line i with recency := (c.line i).recency + 1 }
      else c.line i) ∧
    (∀ hit, lookup C c a = some hit →
      slot = hit ∧ m' = m ∧ c'.line slot = { c.line slot with recency := (c'.line slot).recency }) ∧
    (lookup C c a = none →
      slot = victim C c (indexOf C a) ∧
      ∃ m1 bytes,
        (if (c.line slot).valid = true ∧ (c.line slot).dirty = true then
            low.write (lineAddr C slot (c.line slot).tag) (c.line slot).data m = .ok () m1
          else m1 = m) ∧
        low.read (a - offsetOf C a) C.bs m1 = .ok bytes m' ∧
        c'.line slot =
          { valid := true, dirty := false, tag := tagOf C a, data := bytes, recency := (c'.line slot).recency })

/-- L2's counters for one word access that answers: hits and misses grow together by the accesses that the L1's write-back,
fill or pass-through makes (R72, R73, R78, R82, R85), and write-backs never by more than the misses. -/
def Obligations.L2CountsItsRequests : Prop :=
  ∀ (s t : State) (a : Word), ConfigOk s.cfg → s.l1i.lines.length = lineCount s.cfg.l1i →
    s.l1d.lines.length = lineCount s.cfg.l1d →
    let grows (n : Nat) : Prop :=
      t.l2.hits + t.l2.misses = s.l2.hits + s.l2.misses + n ∧ s.l2.hits ≤ t.l2.hits ∧ s.l2.misses ≤ t.l2.misses ∧
        s.l2.writeBacks ≤ t.l2.writeBacks ∧ t.l2.writeBacks - s.l2.writeBacks ≤ t.l2.misses - s.l2.misses ∧
        (lineCount s.cfg.l2 = 0 → t.l2.hits = s.l2.hits ∧ t.l2.writeBacks = s.l2.writeBacks)
    (∀ w, fetchInstruction a s = .ok (w, t) → grows (l2Accesses s.cfg.l2 s.cfg.l1i s.l1i a.toNat)) ∧
    (∀ w, readData a s = .ok (w, t) → grows (l2Accesses s.cfg.l2 s.cfg.l1d s.l1d a.toNat)) ∧
    (∀ v, writeData a v s = .ok t → grows (l2Accesses s.cfg.l2 s.cfg.l1d s.l1d a.toNat))
end

