-- ==== Sys2Proof/Laws/Encoding.lean ====
section
/-! SUPPORT. Bit fields of joined fields, register fields, and the fields of each encoded form (30_encoding.md R112 to R119,
R124), so that a proof about `decode` of `encode` never opens a word bit by bit. -/

namespace Sys2Proof

/-! ### Register fields -/

@[simp] theorem regOf_regBits (r : Reg) : regOf (regBits r) = r := by
  apply Fin.ext
  simp [regOf, regBits]

@[simp] theorem lowRegOf_lowRegBits (r : LowReg) : lowRegOf (lowRegBits r) = r := by
  apply Fin.ext
  simp [lowRegOf, lowRegBits]

@[simp] theorem regBits_regOf (b : BitVec 4) : regBits (regOf b) = b := by
  apply BitVec.eq_of_toNat_eq
  simp [regOf, regBits]

@[simp] theorem lowRegBits_lowRegOf (b : BitVec 3) : lowRegBits (lowRegOf b) = b := by
  apply BitVec.eq_of_toNat_eq
  simp [lowRegOf, lowRegBits]

/-! ### Fields of a join -/

theorem field_join_low {m n : Nat} (x : BitVec m) (y : BitVec n) {lo len : Nat} (h : lo + len ≤ n) :
    field (x ++ y) lo len = field y lo len := by
  apply BitVec.eq_of_getLsbD_eq
  intro i hi
  have : lo + i < n := by omega
  simp [field, BitVec.getLsbD_append, hi, this]

theorem field_join_high {m n : Nat} (x : BitVec m) (y : BitVec n) {lo len : Nat} (h : n ≤ lo) :
    field (x ++ y) lo len = field x (lo - n) len := by
  apply BitVec.eq_of_getLsbD_eq
  intro i hi
  have h1 : ¬ lo + i < n := by omega
  have h2 : lo + i - n = lo - n + i := by omega
  simp [field, BitVec.getLsbD_append, hi, h1, h2]

@[simp] theorem field_whole {n : Nat} (x : BitVec n) : field x 0 n = x := by
  simp [field]

theorem bit_join_low {m n : Nat} (x : BitVec m) (y : BitVec n) {i : Nat} (h : i < n) : bit (x ++ y) i = bit y i := by
  simp [bit, BitVec.getLsbD_append, h]

theorem bit_join_high {m n : Nat} (x : BitVec m) (y : BitVec n) {i : Nat} (h : n ≤ i) :
    bit (x ++ y) i = bit x (i - n) := by
  simp [bit, BitVec.getLsbD_append, Nat.not_lt.2 h]

@[simp] theorem bit_ofBool (b : Bool) : bit (BitVec.ofBool b) 0 = b := by
  cases b <;> rfl

/-! ### Fields of the encoded forms

The word's width is written as the sum of its fields' widths, which the lemmas above take apart. -/

section
variable (opcode : BitVec 4) (f : DpImm)

theorem dpImm_group : field (encodeDpImm opcode f) 25 3 = 0b001#3 := by
  show field (n := 4 + 3 + 4 + 1 + 4 + 4 + 12) (encodeDpImm opcode f) 25 3 = _
  simp (disch := decide) only [encodeDpImm, field_join_low, field_join_high, Nat.reduceSub, field_whole]

theorem dpImm_opcode : field (encodeDpImm opcode f) 21 4 = opcode := by
  show field (n := 4 + 3 + 4 + 1 + 4 + 4 + 12) (encodeDpImm opcode f) 21 4 = _
  simp (disch := decide) only [encodeDpImm, field_join_low, field_join_high, Nat.reduceSub, field_whole]

theorem dpImm_cond : field (encodeDpImm opcode f) 28 4 = f.cond := by
  show field (n := 4 + 3 + 4 + 1 + 4 + 4 + 12) (encodeDpImm opcode f) 28 4 = _
  simp (disch := decide) only [encodeDpImm, field_join_high, Nat.reduceSub, field_whole]

theorem dpImm_s : bit (encodeDpImm opcode f) 20 = f.s := by
  show bit (n := 4 + 3 + 4 + 1 + 4 + 4 + 12) (encodeDpImm opcode f) 20 = _
  simp (disch := decide) only [encodeDpImm, bit_join_low, bit_join_high, Nat.reduceSub, bit_ofBool]

theorem dpImm_rn : field (encodeDpImm opcode f) 16 4 = regBits f.rn := by
  show field (n := 4 + 3 + 4 + 1 + 4 + 4 + 12) (encodeDpImm opcode f) 16 4 = _
  simp (disch := decide) only [encodeDpImm, field_join_low, field_join_high, Nat.reduceSub, field_whole]

theorem dpImm_rd : field (encodeDpImm opcode f) 12 4 = regBits f.rd := by
  show field (n := 4 + 3 + 4 + 1 + 4 + 4 + 12) (encodeDpImm opcode f) 12 4 = _
  simp (disch := decide) only [encodeDpImm, field_join_low, field_join_high, Nat.reduceSub, field_whole]

theorem dpImm_operand : field (encodeDpImm opcode f) 0 12 = f.operand := by
  show field (n := 4 + 3 + 4 + 1 + 4 + 4 + 12) (encodeDpImm opcode f) 0 12 = _
  simp (disch := decide) only [encodeDpImm, field_join_low, field_whole]

theorem dpImm_fields : dpImmFields (encodeDpImm opcode f) = f := by
  simp only [dpImmFields, dpImm_cond, dpImm_s, dpImm_rn, dpImm_rd, dpImm_operand, regOf_regBits]

end

section
variable (opcode : BitVec 4) (f : DpReg)

theorem dpReg_group : field (encodeDpReg opcode f) 25 3 = 0b000#3 := by
  show field (n := 4 + 3 + 4 + 1 + 4 + 4 + 8 + 4) (encodeDpReg opcode f) 25 3 = _
  simp (disch := decide) only [encodeDpReg, field_join_low, field_join_high, Nat.reduceSub, field_whole]

theorem dpReg_opcode : field (encodeDpReg opcode f) 21 4 = opcode := by
  show field (n := 4 + 3 + 4 + 1 + 4 + 4 + 8 + 4) (encodeDpReg opcode f) 21 4 = _
  simp (disch := decide) only [encodeDpReg, field_join_low, field_join_high, Nat.reduceSub, field_whole]

theorem dpReg_cond : field (encodeDpReg opcode f) 28 4 = f.cond := by
  show field (n := 4 + 3 + 4 + 1 + 4 + 4 + 8 + 4) (encodeDpReg opcode f) 28 4 = _
  simp (disch := decide) only [encodeDpReg, field_join_high, Nat.reduceSub, field_whole]

theorem dpReg_s : bit (encodeDpReg opcode f) 20 = f.s := by
  show bit (n := 4 + 3 + 4 + 1 + 4 + 4 + 8 + 4) (encodeDpReg opcode f) 20 = _
  simp (disch := decide) only [encodeDpReg, bit_join_low, bit_join_high, Nat.reduceSub, bit_ofBool]

theorem dpReg_rn : field (encodeDpReg opcode f) 16 4 = regBits f.rn := by
  show field (n := 4 + 3 + 4 + 1 + 4 + 4 + 8 + 4) (encodeDpReg opcode f) 16 4 = _
  simp (disch := decide) only [encodeDpReg, field_join_low, field_join_high, Nat.reduceSub, field_whole]

theorem dpReg_rd : field (encodeDpReg opcode f) 12 4 = regBits f.rd := by
  show field (n := 4 + 3 + 4 + 1 + 4 + 4 + 8 + 4) (encodeDpReg opcode f) 12 4 = _
  simp (disch := decide) only [encodeDpReg, field_join_low, field_join_high, Nat.reduceSub, field_whole]

theorem dpReg_shift : field (encodeDpReg opcode f) 4 8 = f.shift := by
  show field (n := 4 + 3 + 4 + 1 + 4 + 4 + 8 + 4) (encodeDpReg opcode f) 4 8 = _
  simp (disch := decide) only [encodeDpReg, field_join_low, field_join_high, Nat.reduceSub, field_whole]

theorem dpReg_rm : field (encodeDpReg opcode f) 0 4 = regBits f.rm := by
  show field (n := 4 + 3 + 4 + 1 + 4 + 4 + 8 + 4) (encodeDpReg opcode f) 0 4 = _
  simp (disch := decide) only [encodeDpReg, field_join_low, field_whole]

theorem dpReg_fields : dpRegFields (encodeDpReg opcode f) = f := by
  simp only [dpRegFields, dpReg_cond, dpReg_s, dpReg_rn, dpReg_rd, dpReg_shift, dpReg_rm, regOf_regBits]

end

section
variable (load : Bool) (f : LoadStore)

theorem loadStore_group : field (encodeLoadStore load f) 25 3 = 0b010#3 := by
  show field (n := 4 + 3 + 1 + 1 + 1 + 1 + 1 + 4 + 4 + 12) (encodeLoadStore load f) 25 3 = _
  simp (disch := decide) only [encodeLoadStore, field_join_low, field_join_high, Nat.reduceSub, field_whole]

theorem loadStore_load : bit (encodeLoadStore load f) 20 = load := by
  show bit (n := 4 + 3 + 1 + 1 + 1 + 1 + 1 + 4 + 4 + 12) (encodeLoadStore load f) 20 = _
  simp (disch := decide) only [encodeLoadStore, bit_join_low, bit_join_high, Nat.reduceSub, bit_ofBool]

theorem loadStore_cond : field (encodeLoadStore load f) 28 4 = f.cond := by
  show field (n := 4 + 3 + 1 + 1 + 1 + 1 + 1 + 4 + 4 + 12) (encodeLoadStore load f) 28 4 = _
  simp (disch := decide) only [encodeLoadStore, field_join_high, Nat.reduceSub, field_whole]

theorem loadStore_p : bit (encodeLoadStore load f) 24 = f.p := by
  show bit (n := 4 + 3 + 1 + 1 + 1 + 1 + 1 + 4 + 4 + 12) (encodeLoadStore load f) 24 = _
  simp (disch := decide) only [encodeLoadStore, bit_join_low, bit_join_high, Nat.reduceSub, bit_ofBool]

theorem loadStore_u : bit (encodeLoadStore load f) 23 = f.u := by
  show bit (n := 4 + 3 + 1 + 1 + 1 + 1 + 1 + 4 + 4 + 12) (encodeLoadStore load f) 23 = _
  simp (disch := decide) only [encodeLoadStore, bit_join_low, bit_join_high, Nat.reduceSub, bit_ofBool]

theorem loadStore_b : bit (encodeLoadStore load f) 22 = f.b := by
  show bit (n := 4 + 3 + 1 + 1 + 1 + 1 + 1 + 4 + 4 + 12) (encodeLoadStore load f) 22 = _
  simp (disch := decide) only [encodeLoadStore, bit_join_low, bit_join_high, Nat.reduceSub, bit_ofBool]

theorem loadStore_w : bit (encodeLoadStore load f) 21 = f.w := by
  show bit (n := 4 + 3 + 1 + 1 + 1 + 1 + 1 + 4 + 4 + 12) (encodeLoadStore load f) 21 = _
  simp (disch := decide) only [encodeLoadStore, bit_join_low, bit_join_high, Nat.reduceSub, bit_ofBool]

theorem loadStore_rn : field (encodeLoadStore load f) 16 4 = regBits f.rn := by
  show field (n := 4 + 3 + 1 + 1 + 1 + 1 + 1 + 4 + 4 + 12) (encodeLoadStore load f) 16 4 = _
  simp (disch := decide) only [encodeLoadStore, field_join_low, field_join_high, Nat.reduceSub, field_whole]

theorem loadStore_rd : field (encodeLoadStore load f) 12 4 = regBits f.rd := by
  show field (n := 4 + 3 + 1 + 1 + 1 + 1 + 1 + 4 + 4 + 12) (encodeLoadStore load f) 12 4 = _
  simp (disch := decide) only [encodeLoadStore, field_join_low, field_join_high, Nat.reduceSub, field_whole]

theorem loadStore_offset : field (encodeLoadStore load f) 0 12 = f.offset := by
  show field (n := 4 + 3 + 1 + 1 + 1 + 1 + 1 + 4 + 4 + 12) (encodeLoadStore load f) 0 12 = _
  simp (disch := decide) only [encodeLoadStore, field_join_low, field_whole]

theorem loadStore_fields : loadStoreFields (encodeLoadStore load f) = f := by
  simp only [loadStoreFields, loadStore_cond, loadStore_p, loadStore_u, loadStore_b, loadStore_w, loadStore_rn, loadStore_rd, loadStore_offset, regOf_regBits]

end

section
variable (link : Bool) (f : Branch)

theorem branch_group : field (encodeBranch link f) 25 3 = 0b101#3 := by
  show field (n := 4 + 3 + 1 + 24) (encodeBranch link f) 25 3 = _
  simp (disch := decide) only [encodeBranch, field_join_low, field_join_high, Nat.reduceSub, field_whole]

theorem branch_link : bit (encodeBranch link f) 24 = link := by
  show bit (n := 4 + 3 + 1 + 24) (encodeBranch link f) 24 = _
  simp (disch := decide) only [encodeBranch, bit_join_low, bit_join_high, Nat.reduceSub, bit_ofBool]

theorem branch_cond : field (encodeBranch link f) 28 4 = f.cond := by
  show field (n := 4 + 3 + 1 + 24) (encodeBranch link f) 28 4 = _
  simp (disch := decide) only [encodeBranch, field_join_high, Nat.reduceSub, field_whole]

theorem branch_offset : field (encodeBranch link f) 0 24 = f.offset := by
  show field (n := 4 + 3 + 1 + 24) (encodeBranch link f) 0 24 = _
  simp (disch := decide) only [encodeBranch, field_join_low, field_whole]

theorem branch_fields : branchFields (encodeBranch link f) = f := by
  simp only [branchFields, branch_cond, branch_offset]

end

section
variable (group : BitVec 3) (f : ArmUnknown)

theorem armUnknown_group : field (encodeArmUnknown group f) 25 3 = group := by
  show field (n := 4 + 3 + 25) (encodeArmUnknown group f) 25 3 = _
  simp (disch := decide) only [encodeArmUnknown, field_join_low, field_join_high, Nat.reduceSub, field_whole]

theorem armUnknown_cond : field (encodeArmUnknown group f) 28 4 = f.cond := by
  show field (n := 4 + 3 + 25) (encodeArmUnknown group f) 28 4 = _
  simp (disch := decide) only [encodeArmUnknown, field_join_high, Nat.reduceSub, field_whole]

theorem armUnknown_rest : field (encodeArmUnknown group f) 0 25 = f.rest := by
  show field (n := 4 + 3 + 25) (encodeArmUnknown group f) 0 25 = _
  simp (disch := decide) only [encodeArmUnknown, field_join_low, field_whole]

theorem armUnknown_fields : armUnknownFields (encodeArmUnknown group f) = f := by
  simp only [armUnknownFields, armUnknown_cond, armUnknown_rest]

end

section
variable (op : Bool) (f : ThumbReg)

theorem thumbReg_format : field (encodeThumbReg op f) 11 5 = 0b00011#5 := by
  show field (n := 5 + 1 + 1 + 3 + 3 + 3) (encodeThumbReg op f) 11 5 = _
  simp (disch := decide) only [encodeThumbReg, field_join_high, Nat.reduceSub, field_whole]

theorem thumbReg_immediate : bit (encodeThumbReg op f) 10 = false := by
  show bit (n := 5 + 1 + 1 + 3 + 3 + 3) (encodeThumbReg op f) 10 = _
  simp (disch := decide) only [encodeThumbReg, bit_join_low, bit_join_high, Nat.reduceSub]
  rfl

theorem thumbReg_op : bit (encodeThumbReg op f) 9 = op := by
  show bit (n := 5 + 1 + 1 + 3 + 3 + 3) (encodeThumbReg op f) 9 = _
  simp (disch := decide) only [encodeThumbReg, bit_join_low, bit_join_high, Nat.reduceSub, bit_ofBool]

theorem thumbReg_rm : field (encodeThumbReg op f) 6 3 = lowRegBits f.rm := by
  show field (n := 5 + 1 + 1 + 3 + 3 + 3) (encodeThumbReg op f) 6 3 = _
  simp (disch := decide) only [encodeThumbReg, field_join_low, field_join_high, Nat.reduceSub, field_whole]

theorem thumbReg_rn : field (encodeThumbReg op f) 3 3 = lowRegBits f.rn := by
  show field (n := 5 + 1 + 1 + 3 + 3 + 3) (encodeThumbReg op f) 3 3 = _
  simp (disch := decide) only [encodeThumbReg, field_join_low, field_join_high, Nat.reduceSub, field_whole]

theorem thumbReg_rd : field (encodeThumbReg op f) 0 3 = lowRegBits f.rd := by
  show field (n := 5 + 1 + 1 + 3 + 3 + 3) (encodeThumbReg op f) 0 3 = _
  simp (disch := decide) only [encodeThumbReg, field_join_low, field_whole]

theorem thumbReg_fields : thumbRegFields (encodeThumbReg op f) = f := by
  simp only [thumbRegFields, thumbReg_rm, thumbReg_rn, thumbReg_rd, lowRegOf_lowRegBits]

end

section
variable (op : Bool) (f : ThumbImm)

theorem thumbImm_format : field (encodeThumbImm op f) 11 5 = 0b00011#5 := by
  show field (n := 5 + 1 + 1 + 3 + 3 + 3) (encodeThumbImm op f) 11 5 = _
  simp (disch := decide) only [encodeThumbImm, field_join_high, Nat.reduceSub, field_whole]

theorem thumbImm_immediate : bit (encodeThumbImm op f) 10 = true := by
  show bit (n := 5 + 1 + 1 + 3 + 3 + 3) (encodeThumbImm op f) 10 = _
  simp (disch := decide) only [encodeThumbImm, bit_join_low, bit_join_high, Nat.reduceSub]
  rfl

theorem thumbImm_op : bit (encodeThumbImm op f) 9 = op := by
  show bit (n := 5 + 1 + 1 + 3 + 3 + 3) (encodeThumbImm op f) 9 = _
  simp (disch := decide) only [encodeThumbImm, bit_join_low, bit_join_high, Nat.reduceSub, bit_ofBool]

theorem thumbImm_imm : field (encodeThumbImm op f) 6 3 = f.imm := by
  show field (n := 5 + 1 + 1 + 3 + 3 + 3) (encodeThumbImm op f) 6 3 = _
  simp (disch := decide) only [encodeThumbImm, field_join_low, field_join_high, Nat.reduceSub, field_whole]

theorem thumbImm_rn : field (encodeThumbImm op f) 3 3 = lowRegBits f.rn := by
  show field (n := 5 + 1 + 1 + 3 + 3 + 3) (encodeThumbImm op f) 3 3 = _
  simp (disch := decide) only [encodeThumbImm, field_join_low, field_join_high, Nat.reduceSub, field_whole]

theorem thumbImm_rd : field (encodeThumbImm op f) 0 3 = lowRegBits f.rd := by
  show field (n := 5 + 1 + 1 + 3 + 3 + 3) (encodeThumbImm op f) 0 3 = _
  simp (disch := decide) only [encodeThumbImm, field_join_low, field_whole]

theorem thumbImm_fields : thumbImmFields (encodeThumbImm op f) = f := by
  simp only [thumbImmFields, thumbImm_imm, thumbImm_rn, thumbImm_rd, lowRegOf_lowRegBits]

end

/-! ### A word joined from its own fields -/

/-- Two adjacent fields joined are the field of both. -/
theorem field_join {n : Nat} (w : BitVec n) (lo a b : Nat) :
    field w (lo + b) a ++ field w lo b = field w lo (a + b) := by
  apply BitVec.eq_of_getLsbD_eq
  intro i hi
  simp only [field, BitVec.getLsbD_append, BitVec.getLsbD_extractLsb']
  by_cases h : i < b
  · simp [h, show i < a + b by omega]
  · simp [h, show i - b < a by omega, show i < a + b by omega, show lo + b + (i - b) = lo + i by omega]

/-- The low half of a little-endian word (R63). -/
theorem le32_low (b0 b1 b2 b3 : Byte) : field (le32 b0 b1 b2 b3) 0 16 = le16 b0 b1 := by
  apply BitVec.eq_of_getLsbD_eq
  intro i hi
  show (field (n := 8 + 8 + 8 + 8) (b3 ++ b2 ++ b1 ++ b0) 0 16).getLsbD i = BitVec.getLsbD (w := 8 + 8) (b1 ++ b0) i
  have h : i - 8 < 8 := by omega
  simp only [field, BitVec.getLsbD_extractLsb', BitVec.getLsbD_append, hi, h, Nat.zero_add, decide_true, Bool.true_and,
    if_true]

/-- The high half of a little-endian word (R63). -/
theorem le32_high (b0 b1 b2 b3 : Byte) : field (le32 b0 b1 b2 b3) 16 16 = le16 b2 b3 := by
  apply BitVec.eq_of_getLsbD_eq
  intro i hi
  show (field (n := 8 + 8 + 8 + 8) (b3 ++ b2 ++ b1 ++ b0) 16 16).getLsbD i = BitVec.getLsbD (w := 8 + 8) (b3 ++ b2) i
  have h0 : ¬ 16 + i < 8 := by omega
  have h1 : ¬ 16 + i - 8 < 8 := by omega
  have h2 : 16 + i - 8 - 8 = i := by omega
  simp only [field, BitVec.getLsbD_extractLsb', BitVec.getLsbD_append, hi, h0, h1, h2, decide_true, Bool.true_and,
    if_false]

theorem ofBool_bit {n : Nat} (w : BitVec n) (i : Nat) : BitVec.ofBool (bit w i) = field w i 1 := by
  apply BitVec.eq_of_getLsbD_eq
  intro j hj
  have : j = 0 := by omega
  subst this
  simp [bit, field]

end Sys2Proof
end

