-- ==== Sys2Proof/Laws/Geometry.lean ====
section
/-! SUPPORT. The geometry of a cache that passes the construction check (20_memory.md R66), in division and remainder: the
bit operations of R68 and R74 say which block number an address has and which one a line holds. -/

namespace Sys2Proof.Machine

theorem eq_two_pow_of_isPowerOfTwo {n : Nat} (h : isPowerOfTwo n = true) : n = 2 ^ n.log2 := by
  simpa [isPowerOfTwo] using h

/-- What the construction check says of a configuration that passes it. -/
structure GeometryOk (C : CacheConfig) : Prop where
  bsPow : C.bs = 2 ^ offsetBits C
  bsMin : 4 ≤ C.bs
  div   : lineCount C * C.bs = C.cap
  nPow  : C.policy = .direct → lineCount C ≠ 0 → lineCount C = 2 ^ indexBits C
  capMax : C.cap ≤ 2 ^ 32

theorem geometryOk_of_check {C : CacheConfig} (h : checkCache C = none) : GeometryOk C := by
  unfold checkCache at h
  split at h
  · cases h
  next h1 =>
    split at h
    · cases h
    next h2 =>
      split at h
      · cases h
      next h3 =>
        split at h
        · cases h
        next h4 =>
          simp only [Bool.not_eq_true', Bool.and_eq_false_iff, not_or, Bool.not_eq_false, decide_eq_true_eq] at h1
          refine ⟨eq_two_pow_of_isPowerOfTwo h1.1, h1.2, ?_, ?_, by omega⟩
          · have : C.cap % C.bs = 0 := by omega
            exact Nat.div_mul_cancel (Nat.dvd_of_mod_eq_zero this)
          · intro hp hn
            have : isPowerOfTwo (lineCount C) = true := by
              by_cases hq : isPowerOfTwo (lineCount C) = true
              · exact hq
              · exact absurd ⟨hp, by omega, by simp [hq]⟩ h3
            simpa only [indexBits, hp] using eq_two_pow_of_isPowerOfTwo this

/-- The number of the block that a line with this tag in this slot holds. -/
def blockOf (C : CacheConfig) (slot tag : Nat) : Nat :=
  match C.policy with
  | .direct           => tag * lineCount C + slot
  | .fullyAssociative => tag

variable {C : CacheConfig}

theorem GeometryOk.bsPos (g : GeometryOk C) : 0 < C.bs := by have := g.bsMin; omega

/-- `a & (bs - 1)` is the remainder (R68). -/
theorem offsetOf_eq (g : GeometryOk C) (a : Nat) : offsetOf C a = a % C.bs := by
  unfold offsetOf
  rw [g.bsPow]
  exact Nat.and_two_pow_sub_one_eq_mod a _

theorem offsetOf_lt (g : GeometryOk C) (a : Nat) : offsetOf C a < C.bs := by
  rw [offsetOf_eq g]
  exact Nat.mod_lt _ g.bsPos

theorem indexOf_lt (g : GeometryOk C) (hn : lineCount C ≠ 0) (a : Nat) : indexOf C a < lineCount C := by
  unfold indexOf
  split
  next hp =>
    have := g.nPow hp hn
    rw [this, Nat.and_two_pow_sub_one_eq_mod]
    exact Nat.mod_lt _ (Nat.two_pow_pos _)
  next => omega

/-- The index and the tag of an address are those of its block number (R68). -/
theorem blockOf_index_tag (g : GeometryOk C) (hn : lineCount C ≠ 0) (a : Nat) :
    blockOf C (indexOf C a) (tagOf C a) = a / C.bs := by
  unfold blockOf indexOf tagOf
  cases hp : C.policy with
  | direct =>
    have hnp := g.nPow hp hn
    have hsub : lineCount C - 1 = 2 ^ indexBits C - 1 := by rw [← hnp]
    simp only [Nat.shiftRight_eq_div_pow, Nat.pow_add, ← g.bsPow]
    rw [hsub, Nat.and_two_pow_sub_one_eq_mod, ← hnp, ← Nat.div_div_eq_div_mul]
    exact Nat.div_add_mod' _ _
  | fullyAssociative => simp only [Nat.shiftRight_eq_div_pow, ← g.bsPow]

/-- The block address of a line is its block number times the block size (R74). -/
theorem lineAddr_eq (g : GeometryOk C) {slot : Nat} (hs : slot < lineCount C) (tag : Nat) :
    lineAddr C slot tag = blockOf C slot tag * C.bs := by
  unfold lineAddr blockOf
  cases hp : C.policy with
  | direct =>
    have hnp := g.nPow hp (by omega)
    simp only
    rw [Nat.add_comm (offsetBits C), Nat.shiftLeft_add, ← Nat.shiftLeft_or_distrib, ← Nat.shiftLeft_add_eq_or_of_lt (hnp ▸ hs)]
    simp only [Nat.shiftLeft_eq, ← hnp, ← g.bsPow]
  | fullyAssociative => simp only [Nat.shiftLeft_eq, ← g.bsPow]

/-- In a direct-mapped cache the block number fixes the slot. -/
theorem slot_of_blockOf (hp : C.policy = .direct) {i j t u : Nat} (hi : i < lineCount C) (hj : j < lineCount C)
    (h : blockOf C i t = blockOf C j u) : i = j ∧ t = u := by
  simp only [blockOf, hp] at h
  have h1 : (t * lineCount C + i) % lineCount C = i := by
    rw [Nat.add_comm, Nat.add_mul_mod_self_right, Nat.mod_eq_of_lt hi]
  have h2 : (u * lineCount C + j) % lineCount C = j := by
    rw [Nat.add_comm, Nat.add_mul_mod_self_right, Nat.mod_eq_of_lt hj]
  have hij : i = j := by rw [← h1, ← h2, h]
  subst hij
  exact ⟨rfl, Nat.eq_of_mul_eq_mul_right (by omega) (Nat.add_right_cancel h)⟩

/-- The end of the last block a request touches. -/
theorem blockEnd_mono (C : CacheConfig) {d e : Nat} (h : d ≤ e) : blockEnd C d ≤ blockEnd C e := by
  unfold blockEnd
  split
  · exact h
  · exact Nat.mul_le_mul_right _ (Nat.div_le_div_right (by omega))

theorem le_blockEnd (g : GeometryOk C) (e : Nat) : e ≤ blockEnd C e := by
  unfold blockEnd
  split
  · exact Nat.le_refl e
  · have := Nat.div_add_mod' (e + C.bs - 1) C.bs
    have := Nat.mod_lt (e + C.bs - 1) g.bsPos
    have := g.bsPos
    omega

/-- The last block of a range that ends inside the block of p ends with that block. -/
theorem blockEnd_eq (g : GeometryOk C) (hn : lineCount C ≠ 0) {p e : Nat} (h1 : p < e) (h2 : e ≤ p - p % C.bs + C.bs) :
    blockEnd C e = p - p % C.bs + C.bs := by
  have hb := g.bsPos
  have hp := Nat.div_add_mod' p C.bs
  have hm := Nat.mod_lt p hb
  have : (e + C.bs - 1) / C.bs = p / C.bs + 1 := by
    rw [Nat.div_eq_of_lt_le]
    · rw [Nat.add_mul]; omega
    · rw [Nat.add_mul, Nat.add_mul]; omega
  rw [blockEnd, if_neg hn, this, Nat.add_mul]
  omega

/-- A block that a range touches ends no later than the range's last block. -/
theorem block_le_blockEnd (g : GeometryOk C) (hn : lineCount C ≠ 0) {p e : Nat} (h : p < e) :
    p - p % C.bs + C.bs ≤ blockEnd C e := by
  rw [← blockEnd_eq g hn (p := p) (e := p + 1) (by omega) (by have := Nat.mod_lt p g.bsPos; have := Nat.mod_le p C.bs; omega)]
  exact blockEnd_mono C h

/-- A block size is a multiple of 4, so an aligned word never crosses a block (R65). -/
theorem four_dvd_bs (g : GeometryOk C) : 4 ∣ C.bs := by
  have h := g.bsPow
  have : 2 ≤ offsetBits C := by
    rcases Nat.lt_or_ge (offsetBits C) 2 with hlt | hge
    · have : 2 ^ offsetBits C ≤ 2 ^ 1 := Nat.pow_le_pow_right (by omega) (by omega)
      have := g.bsMin
      omega
    · exact hge
  rw [h]
  exact Nat.pow_dvd_pow 2 this

theorem word_in_block (g : GeometryOk C) {a : Nat} (h : a % 4 = 0) : a % C.bs + 4 ≤ C.bs := by
  obtain ⟨k, hk⟩ := four_dvd_bs g
  have hm := Nat.mod_lt a g.bsPos
  have : a % C.bs % 4 = 0 := by rw [Nat.mod_mod_of_dvd a (four_dvd_bs g)]; exact h
  omega

end Sys2Proof.Machine
end

