-- ==== Sys2Proof/Laws/Memory.lean ====
section
/-! SUPPORT. The laws of main memory: a read after a write, and the canonical form (20_memory.md R60 to R62). -/

namespace Sys2Proof.Machine

@[simp] theorem Memory.readByte_nil (a : Nat) : Memory.readByte [] a = Config.background := rfl

theorem Memory.readByte_cons (x : Host.Cell) (m : Memory) (a : Nat) :
    Memory.readByte (x :: m) a = if x.1 = a then x.2 else m.readByte a := rfl

/-- An address below every listed one is not listed. -/
theorem Memory.readByte_of_below {m : Memory} {a : Nat} (h : ∀ x ∈ m, a < x.1) :
    m.readByte a = Config.background := by
  induction m with
  | nil => rfl
  | cons x m ih =>
    have hx := h x (by simp)
    have : x.1 ≠ a := by omega
    simp only [Memory.readByte_cons, if_neg this]
    exact ih fun y hy => h y (by simp [hy])

theorem Memory.readByte_consByte {m : Memory} {a : Nat} (b : Byte) (h : ∀ x ∈ m, a < x.1) (a' : Nat) :
    (Memory.consByte a b m).readByte a' = if a = a' then b else m.readByte a' := by
  unfold Memory.consByte
  split
  next hb =>
    split
    next ha => rw [← ha, Memory.readByte_of_below h, hb]
    next => rfl
  next => rfl

/-- A read after a write gives the byte written, and every other byte as before. -/
theorem Memory.readByte_writeByte {m : Memory} (h : m.Pairwise (fun x y => x.1 < y.1)) (a : Nat) (b : Byte) (a' : Nat) :
    (m.writeByte a b).readByte a' = if a = a' then b else m.readByte a' := by
  induction m with
  | nil => exact Memory.readByte_consByte b (by simp) a'
  | cons x m ih =>
    obtain ⟨hx, hm⟩ := List.pairwise_cons.1 h
    unfold Memory.writeByte
    split
    next hlt =>
      apply Memory.readByte_consByte
      intro y hy
      rcases List.mem_cons.1 hy with rfl | hy
      · exact hlt
      · exact Nat.lt_trans hlt (hx y hy)
    next hlt =>
      split
      next heq =>
        subst heq
        rw [Memory.readByte_consByte b hx]
        simp only [Memory.readByte_cons]
        split <;> rfl
      next hne =>
        simp only [Memory.readByte_cons, ih hm]
        split
        next hk => rw [if_neg (by omega)]
        next => rfl

theorem Memory.mem_consByte {m : Memory} {a : Nat} {b : Byte} {x : Host.Cell} (h : x ∈ Memory.consByte a b m) :
    x = (a, b) ∨ x ∈ m := by
  unfold Memory.consByte at h
  split at h
  · exact .inr h
  · exact List.mem_cons.1 h

/-- The pairs of a memory after a write are the pair written and pairs that were there. -/
theorem Memory.mem_writeByte {m : Memory} {a : Nat} {b : Byte} {x : Host.Cell} (h : x ∈ m.writeByte a b) :
    x = (a, b) ∨ x ∈ m := by
  induction m with
  | nil => exact Memory.mem_consByte h
  | cons y m ih =>
    unfold Memory.writeByte at h
    split at h
    · exact Memory.mem_consByte h
    · split at h
      · rcases Memory.mem_consByte h with h | h
        · exact .inl h
        · exact .inr (by simp [h])
      · rcases List.mem_cons.1 h with h | h
        · exact .inr (by simp [h])
        · rcases ih h with h | h
          · exact .inl h
          · exact .inr (by simp [h])

theorem Memory.wf_consByte {m : Memory} {a : Nat} (b : Byte) (hm : Memory.wf m) (h : ∀ x ∈ m, a < x.1) :
    Memory.wf (Memory.consByte a b m) := by
  unfold Memory.consByte
  split
  next => exact hm
  next hb =>
    refine ⟨List.pairwise_cons.2 ⟨h, hm.1⟩, fun x hx => ?_⟩
    rcases List.mem_cons.1 hx with rfl | hx
    · exact hb
    · exact hm.2 x hx

/-- A write keeps the canonical form. -/
theorem Memory.wf_writeByte {m : Memory} (hm : Memory.wf m) (a : Nat) (b : Byte) : Memory.wf (m.writeByte a b) := by
  induction m with
  | nil => exact Memory.wf_consByte b hm (by simp)
  | cons x m ih =>
    obtain ⟨hx, hp⟩ := List.pairwise_cons.1 hm.1
    have htail : Memory.wf m := ⟨hp, fun y hy => hm.2 y (by simp [hy])⟩
    unfold Memory.writeByte
    split
    next hlt =>
      refine Memory.wf_consByte b hm fun y hy => ?_
      rcases List.mem_cons.1 hy with rfl | hy
      · exact hlt
      · exact Nat.lt_trans hlt (hx y hy)
    next hlt =>
      split
      next heq => exact Memory.wf_consByte b htail (by subst heq; exact hx)
      next hne =>
        obtain ⟨hp', hb'⟩ := ih htail
        refine ⟨List.pairwise_cons.2 ⟨fun y hy => ?_, hp'⟩, fun y hy => ?_⟩
        · rcases Memory.mem_writeByte hy with rfl | hy
          · exact Nat.lt_of_le_of_ne (Nat.le_of_not_lt hlt) (Ne.symm hne)
          · exact hx y hy
        · rcases List.mem_cons.1 hy with rfl | hy
          · exact hm.2 _ (by simp)
          · exact hb' y hy

/-- Two canonical memories that read the same everywhere are the same list. -/
theorem Memory.eq_of_readByte {m m' : Memory} (h : Memory.wf m) (h' : Memory.wf m')
    (heq : ∀ a, m.readByte a = m'.readByte a) : m = m' := by
  induction m generalizing m' with
  | nil =>
    cases m' with
    | nil => rfl
    | cons y m' =>
      have := heq y.1
      simp only [Memory.readByte_nil, Memory.readByte_cons, if_true] at this
      exact absurd this.symm (h'.2 y (by simp))
  | cons x m ih =>
    obtain ⟨hx, hp⟩ := List.pairwise_cons.1 h.1
    have hxb := h.2 x (by simp)
    cases m' with
    | nil =>
      have := heq x.1
      simp only [Memory.readByte_nil, Memory.readByte_cons, if_true] at this
      exact absurd this hxb
    | cons y m' =>
      obtain ⟨hy, hp'⟩ := List.pairwise_cons.1 h'.1
      have hyb := h'.2 y (by simp)
      have hkey : x.1 = y.1 := by
        rcases Nat.lt_trichotomy x.1 y.1 with hlt | heq' | hlt
        · have e := heq x.1
          rw [Memory.readByte_of_below (m := y :: m') (a := x.1) (by
            intro z hz
            rcases List.mem_cons.1 hz with rfl | hz
            · exact hlt
            · exact Nat.lt_trans hlt (hy z hz))] at e
          simp only [Memory.readByte_cons, if_true] at e
          exact absurd e hxb
        · exact heq'
        · have e := heq y.1
          rw [Memory.readByte_of_below (m := x :: m) (a := y.1) (by
            intro z hz
            rcases List.mem_cons.1 hz with rfl | hz
            · exact hlt
            · exact Nat.lt_trans hlt (hx z hz))] at e
          simp only [Memory.readByte_cons, if_true] at e
          exact absurd e.symm hyb
      have hval : x.2 = y.2 := by
        have e := heq x.1
        simpa only [Memory.readByte_cons, if_true, hkey] using e
      have htl : m = m' := by
        refine ih ⟨hp, fun z hz => h.2 z (by simp [hz])⟩ ⟨hp', fun z hz => h'.2 z (by simp [hz])⟩ fun a => ?_
        by_cases ha : x.1 = a
        · subst ha
          rw [Memory.readByte_of_below hx, hkey, Memory.readByte_of_below hy]
        · have e := heq a
          simpa only [Memory.readByte_cons, if_neg ha, if_neg (hkey ▸ ha)] using e
      exact List.cons_eq_cons.2 ⟨Prod.ext hkey hval, htl⟩

/-! ### Several bytes -/

/-- The bytes a view shows at ascending addresses. -/
def bytesFrom (view : Nat → Byte) (a : Nat) : Nat → List Byte
  | 0 => []
  | k + 1 => view a :: bytesFrom view (a + 1) k

/-- A view with bytes laid over it from an address up. -/
def overlay (view : Nat → Byte) (a : Nat) (bytes : List Byte) (x : Nat) : Byte :=
  if a ≤ x ∧ x < a + bytes.length then bytes.getD (x - a) 0 else view x

@[simp] theorem length_bytesFrom (view : Nat → Byte) (a k : Nat) : (bytesFrom view a k).length = k := by
  induction k generalizing a with
  | zero => rfl
  | succ k ih => simp [bytesFrom, ih]

theorem getD_bytesFrom (view : Nat → Byte) (a : Nat) {k i : Nat} (h : i < k) :
    (bytesFrom view a k).getD i 0 = view (a + i) := by
  induction k generalizing a i with
  | zero => omega
  | succ k ih =>
    cases i with
    | zero => rfl
    | succ i =>
      have := ih (a + 1) (i := i) (by omega)
      simp only [bytesFrom, List.getD_cons_succ, this]
      congr 1
      omega

theorem bytesFrom_append (view : Nat → Byte) (a j k : Nat) :
    bytesFrom view a j ++ bytesFrom view (a + j) k = bytesFrom view a (j + k) := by
  induction j generalizing a with
  | zero => simp [bytesFrom]
  | succ j ih =>
    rw [show j + 1 + k = (j + k) + 1 by omega]
    simp only [bytesFrom, List.cons_append, ← ih (a + 1)]
    rw [show a + (j + 1) = a + 1 + j by omega]

/-- A list of k bytes that agrees with a view byte by byte is what the view shows. -/
theorem eq_bytesFrom {view : Nat → Byte} {a k : Nat} {l : List Byte} (hlen : l.length = k)
    (h : ∀ i, i < k → l.getD i 0 = view (a + i)) : l = bytesFrom view a k := by
  apply List.ext_getElem (by simp [hlen])
  intro i h1 h2
  have hk : i < k := hlen ▸ h1
  have := (h i hk).trans (getD_bytesFrom view a hk).symm
  simpa only [List.getD_eq_getElem?_getD, List.getElem?_eq_getElem h1, List.getElem?_eq_getElem h2, Option.getD_some] using this

theorem readBytes_eq_bytesFrom (m : Memory) (a k : Nat) : m.readBytes a k = bytesFrom m.readByte a k := by
  induction k generalizing a with
  | zero => rfl
  | succ k ih => simp only [Memory.readBytes, bytesFrom, ih]

theorem overlay_nil (view : Nat → Byte) (a : Nat) : overlay view a [] = view := by
  funext x
  exact if_neg (by simp only [List.length_nil]; omega)

theorem overlay_of_mem {view : Nat → Byte} {a x : Nat} {b : List Byte} (h : a ≤ x) (h' : x < a + b.length) :
    overlay view a b x = b.getD (x - a) 0 := if_pos ⟨h, h'⟩

theorem overlay_of_not_mem {view : Nat → Byte} {a x : Nat} {b : List Byte} (h : ¬ (a ≤ x ∧ x < a + b.length)) :
    overlay view a b x = view x := if_neg h

/-- Laying two byte strings one after the other is laying their concatenation. -/
theorem overlay_append (view : Nat → Byte) (a : Nat) (b b' : List Byte) :
    overlay (overlay view a b) (a + b.length) b' = overlay view a (b ++ b') := by
  funext x
  by_cases h1 : a + b.length ≤ x ∧ x < a + b.length + b'.length
  · rw [overlay_of_mem h1.1 h1.2, overlay_of_mem (by omega) (by simp; omega)]
    simp only [List.getD_eq_getElem?_getD]
    rw [List.getElem?_append_right (by omega)]
    congr 2
    omega
  · rw [overlay_of_not_mem h1]
    by_cases h2 : a ≤ x ∧ x < a + b.length
    · rw [overlay_of_mem h2.1 h2.2, overlay_of_mem h2.1 (by simp; omega)]
      simp only [List.getD_eq_getElem?_getD]
      rw [List.getElem?_append_left (by omega)]
    · rw [overlay_of_not_mem h2, overlay_of_not_mem (by simp; omega)]

theorem Memory.wf_writeBytes {m : Memory} (hm : Memory.wf m) (a : Nat) (b : List Byte) :
    Memory.wf (m.writeBytes a b) := by
  induction b generalizing m a with
  | nil => exact hm
  | cons x b ih => exact ih (Memory.wf_writeByte hm a x) (a + 1)

theorem Memory.mem_writeBytes {m : Memory} {a : Nat} {b : List Byte} {x : Host.Cell} (h : x ∈ m.writeBytes a b) :
    x ∈ m ∨ (a ≤ x.1 ∧ x.1 < a + b.length) := by
  induction b generalizing m a with
  | nil => exact .inl h
  | cons y b ih =>
    rcases ih h with h | h
    · rcases Memory.mem_writeByte h with rfl | h
      · exact .inr (by simp)
      · exact .inl h
    · exact .inr (by simp at h ⊢; omega)

/-- Reading after writing several bytes. -/
theorem Memory.readByte_writeBytes {m : Memory} (hm : Memory.wf m) (a : Nat) (b : List Byte) :
    (m.writeBytes a b).readByte = overlay m.readByte a b := by
  induction b generalizing m a with
  | nil => rw [overlay_nil]; rfl
  | cons x b ih =>
    have e : overlay (overlay m.readByte a [x]) (a + [x].length) b = overlay m.readByte a ([x] ++ b) := overlay_append ..
    have e1 : (m.writeByte a x).readByte = overlay m.readByte a [x] := by
      funext y
      rw [Memory.readByte_writeByte hm.1]
      by_cases hy : a = y
      · subst hy; simp [overlay]
      · rw [if_neg hy, overlay_of_not_mem (by simp; omega)]
    show ((m.writeByte a x).writeBytes (a + 1) b).readByte = _
    rw [ih (Memory.wf_writeByte hm a x), e1]
    exact e

end Sys2Proof.Machine
end

