-- ==== Sys2Proof/Laws/CacheLines.lean ====
section
/-! SUPPORT. The lines of one cache: tag match, victim, LRU update and view (20_memory.md R69 to R77, R95), said through
block numbers. -/

namespace Sys2Proof.Machine

variable {C : CacheConfig} {c : Cache}

/-! ### Reading and writing slots -/

theorem Cache.line_eq_getElem {slot : Nat} (h : slot < c.lines.length) : c.line slot = c.lines[slot] := by
  simp [Cache.line, List.getD_eq_getElem?_getD, List.getElem?_eq_getElem h]

theorem Cache.line_mk (lines : List Line) (h m w slot : Nat) :
    Cache.line ⟨lines, h, m, w⟩ slot = lines.getD slot (Line.reset 0) := rfl

/-- A line depends on the lines alone, not on the counters. -/
theorem Cache.line_congr {c d : Cache} (h : c.lines = d.lines) (slot : Nat) : c.line slot = d.line slot := by
  unfold Cache.line
  rw [h]

theorem getD_set_self {lines : List Line} {slot : Nat} {l d : Line} (h : slot < lines.length) :
    (lines.set slot l).getD slot d = l := by
  simp [List.getD_eq_getElem?_getD, h]

theorem getD_set_ne {lines : List Line} {i slot : Nat} {l d : Line} (h : slot ≠ i) :
    (lines.set slot l).getD i d = lines.getD i d := by
  simp [List.getD_eq_getElem?_getD, List.getElem?_set_ne h]

theorem Cache.setLine_line {slot : Nat} {l : Line} (h : slot < c.lines.length) (i : Nat) :
    (c.setLine slot l).line i = if slot = i then l else c.line i := by
  unfold Cache.setLine Cache.line
  split
  next e => subst e; exact getD_set_self h
  next e => exact getD_set_ne e

/-- What `touch` makes of the line in slot i. -/
def touchLine (C : CacheConfig) (slot i : Nat) (l : Line) : Line :=
  match C.policy with
  | .direct           => l
  | .fullyAssociative =>
    if i = slot then { l with recency := 0 } else if l.valid then { l with recency := l.recency + 1 } else l

@[simp] theorem length_touch (slot : Nat) (lines : List Line) : (touch C slot lines).length = lines.length := by
  unfold touch
  split <;> simp

theorem getD_touch {slot i : Nat} {lines : List Line} (h : i < lines.length) (d : Line) :
    (touch C slot lines).getD i d = touchLine C slot i (lines.getD i d) := by
  unfold touch touchLine
  cases C.policy with
  | direct => rfl
  | fullyAssociative => simp [List.getD_eq_getElem?_getD, h]

@[simp] theorem touchLine_valid (slot i : Nat) (l : Line) : (touchLine C slot i l).valid = l.valid := by
  unfold touchLine
  repeat' split
  all_goals rfl

@[simp] theorem touchLine_dirty (slot i : Nat) (l : Line) : (touchLine C slot i l).dirty = l.dirty := by
  unfold touchLine
  repeat' split
  all_goals rfl

@[simp] theorem touchLine_tag (slot i : Nat) (l : Line) : (touchLine C slot i l).tag = l.tag := by
  unfold touchLine
  repeat' split
  all_goals rfl

@[simp] theorem touchLine_data (slot i : Nat) (l : Line) : (touchLine C slot i l).data = l.data := by
  unfold touchLine
  repeat' split
  all_goals rfl

/-! ### Tag match -/

/-- Slot `slot` holds the block of address a. -/
structure Holds (C : CacheConfig) (c : Cache) (slot a : Nat) : Prop where
  lt    : slot < lineCount C
  valid : (c.line slot).valid = true
  block : blockOf C slot (c.line slot).tag = a / C.bs

/-- Two valid lines never hold the same block (R76; a direct-mapped cache has one slot for each block). -/
theorem slot_unique (w : CacheWf C c) {i j : Nat} (hi : i < lineCount C) (hj : j < lineCount C)
    (vi : (c.line i).valid = true) (vj : (c.line j).valid = true)
    (h : blockOf C i (c.line i).tag = blockOf C j (c.line j).tag) : i = j := by
  cases hp : C.policy with
  | direct => exact (slot_of_blockOf hp hi hj h).1
  | fullyAssociative => exact w.uniqueTag hp i j hi hj vi vj (by simpa [blockOf, hp] using h)

theorem Holds.unique (w : CacheWf C c) {i j a : Nat} (hi : Holds C c i a) (hj : Holds C c j a) : i = j :=
  slot_unique w hi.lt hj.lt hi.valid hj.valid (hi.block.trans hj.block.symm)

/-- The tag of an address is the tag of a line that holds it. -/
theorem tag_of_holds (g : GeometryOk C) {slot a : Nat} (h : Holds C c slot a) :
    (c.line slot).tag = tagOf C a ∧ (C.policy = .direct → slot = indexOf C a) := by
  have hn : lineCount C ≠ 0 := by have := h.lt; omega
  have e := h.block.trans (blockOf_index_tag g hn a).symm
  cases hp : C.policy with
  | direct =>
    obtain ⟨h1, h2⟩ := slot_of_blockOf hp h.lt (indexOf_lt g hn a) e
    exact ⟨h2, fun _ => h1⟩
  | fullyAssociative => exact ⟨by simpa [blockOf, hp] using e, by simp⟩

/-- A line of the right tag, in the right slot when direct-mapped, holds the address's block. -/
theorem holds_of_tag (g : GeometryOk C) {slot a : Nat} (hs : slot < lineCount C) (hv : (c.line slot).valid = true)
    (ht : (c.line slot).tag = tagOf C a) (hi : C.policy = .direct → slot = indexOf C a) : Holds C c slot a := by
  refine ⟨hs, hv, ?_⟩
  rw [ht, ← blockOf_index_tag g (by omega) a]
  cases hp : C.policy with
  | direct => rw [hi hp]
  | fullyAssociative => simp [blockOf, hp]

theorem holds_of_lookup (g : GeometryOk C) (hn : lineCount C ≠ 0) (w : CacheWf C c) {a slot : Nat}
    (h : lookup C c a = some slot) : Holds C c slot a := by
  unfold lookup at h
  split at h
  next hp =>
    split at h
    next hm =>
      cases h
      simp only [lineMatches, Bool.and_eq_true, beq_iff_eq] at hm
      exact holds_of_tag g (indexOf_lt g hn a) hm.1 hm.2 fun _ => rfl
    next => cases h
  next hp =>
    obtain ⟨hlt, hm, -⟩ := List.findIdx?_eq_some_iff_getElem.1 h
    rw [← Cache.line_eq_getElem hlt] at hm
    simp only [lineMatches, Bool.and_eq_true, beq_iff_eq] at hm
    exact holds_of_tag g (w.count ▸ hlt) hm.1 hm.2 (by simp [hp])

theorem lookup_of_holds (g : GeometryOk C) (w : CacheWf C c) {a slot : Nat} (h : Holds C c slot a) :
    lookup C c a = some slot := by
  have hn : lineCount C ≠ 0 := by have := h.lt; omega
  obtain ⟨ht, hi⟩ := tag_of_holds g h
  cases hl : lookup C c a with
  | some s => rw [Holds.unique w (holds_of_lookup g hn w hl) h]
  | none =>
    unfold lookup at hl
    split at hl
    next hp =>
      rw [← hi hp] at hl
      simp [lineMatches, h.valid, ht] at hl
    next hp =>
      rw [List.findIdx?_eq_none_iff] at hl
      have hlt : slot < c.lines.length := w.count ▸ h.lt
      have := hl c.lines[slot] (List.getElem_mem hlt)
      rw [← Cache.line_eq_getElem hlt] at this
      simp [lineMatches, h.valid, ht] at this

/-- Tag match finds exactly the slot that holds the address's block (R69). -/
theorem lookup_eq_some_iff (g : GeometryOk C) (hn : lineCount C ≠ 0) (w : CacheWf C c) {a slot : Nat} :
    lookup C c a = some slot ↔ Holds C c slot a :=
  ⟨holds_of_lookup g hn w, lookup_of_holds g w⟩

/-- Tag match fails when no slot holds the address's block (R69). -/
theorem lookup_eq_none_iff (g : GeometryOk C) (hn : lineCount C ≠ 0) (w : CacheWf C c) {a : Nat} :
    lookup C c a = none ↔ ∀ slot, ¬ Holds C c slot a := by
  constructor
  · intro h slot hs
    rw [lookup_of_holds g w hs] at h
    cases h
  · intro h
    cases hl : lookup C c a with
    | none => rfl
    | some s => exact absurd (holds_of_lookup g hn w hl) (h s)

/-! ### The view (R95) -/

theorem viewThrough_of_holds (g : GeometryOk C) (w : CacheWf C c) {slot a : Nat} (h : Holds C c slot a)
    (below : Nat → Byte) : viewThrough C c below a = (c.line slot).data.getD (a % C.bs) 0 := by
  simp [viewThrough, cacheByte, lookup_of_holds g w h, offsetOf_eq g]

theorem viewThrough_of_none (g : GeometryOk C) (hn : lineCount C ≠ 0) (w : CacheWf C c) {a : Nat}
    (h : ∀ slot, ¬ Holds C c slot a) (below : Nat → Byte) : viewThrough C c below a = below a := by
  simp [viewThrough, cacheByte, (lookup_eq_none_iff g hn w).2 h]

/-- A zero-line cache holds nothing (R82, R95). -/
theorem viewThrough_of_zero (w : CacheWf C c) (hn : lineCount C = 0) (below : Nat → Byte) :
    viewThrough C c below = below := by
  have hl : c.lines = [] := List.length_eq_zero_iff.1 (w.count.trans hn)
  funext a
  unfold viewThrough cacheByte lookup
  split <;> simp [hl, Cache.line, lineMatches, Line.reset]

/-! ### The victim -/

theorem foldl_max_le (lines : List Line) (m : Nat) :
    m ≤ lines.foldl (fun m l => max m l.recency) m ∧
      (lines.foldl (fun m l => max m l.recency) m = m ∨
        ∃ l ∈ lines, l.recency = lines.foldl (fun m l => max m l.recency) m) := by
  induction lines generalizing m with
  | nil => exact ⟨Nat.le_refl m, .inl rfl⟩
  | cons l lines ih =>
    obtain ⟨h1, h2⟩ := ih (max m l.recency)
    refine ⟨Nat.le_trans (Nat.le_max_left ..) h1, ?_⟩
    rcases h2 with h2 | ⟨x, hx, h2⟩
    · rcases Nat.le_total m l.recency with hle | hle
      · exact .inr ⟨l, by simp, (h2.trans (Nat.max_eq_right hle)).symm⟩
      · exact .inl (h2.trans (Nat.max_eq_left hle))
    · exact .inr ⟨x, by simp [hx], h2⟩

/-- The victim is a slot of the cache (R71). -/
theorem victim_lt (w : CacheWf C c) {idx : Nat} (hi : idx < lineCount C) : victim C c idx < lineCount C := by
  unfold victim
  split
  next => exact hi
  next =>
    split
    next i h =>
      obtain ⟨hlt, -⟩ := List.findIdx?_eq_some_iff_getElem.1 h
      exact w.count ▸ hlt
    next =>
      cases h : c.lines.findIdx? (fun l => l.recency == maxRecency c.lines) with
      | none => simp only [Option.getD_none]; omega
      | some i =>
        obtain ⟨hlt, -⟩ := List.findIdx?_eq_some_iff_getElem.1 h
        exact w.count ▸ hlt

/-! ### The shape is kept -/

/-- The shape of a cache, the recency of one slot aside. -/
structure CacheWfBut (C : CacheConfig) (c : Cache) (slot : Nat) : Prop where
  count : c.lines.length = lineCount C
  size : ∀ i, i < lineCount C → (c.line i).data.length = C.bs
  tagBound : ∀ i, i < lineCount C → (c.line i).valid = true → (c.line i).tag < 2 ^ tagBits C
  uniqueTag : C.policy = .fullyAssociative → ∀ i j, i < lineCount C → j < lineCount C →
    (c.line i).valid = true → (c.line j).valid = true → (c.line i).tag = (c.line j).tag → i = j
  uniqueRecency : C.policy = .fullyAssociative → ∀ i j, i < lineCount C → j < lineCount C → i ≠ slot → j ≠ slot →
    (c.line i).valid = true → (c.line j).valid = true → (c.line i).recency = (c.line j).recency → i = j
  directRecency : C.policy = .direct → ∀ i, i < lineCount C → (c.line i).recency = 0

theorem CacheWf.but (w : CacheWf C c) (slot : Nat) : CacheWfBut C c slot where
  count := w.count
  size := w.size
  tagBound := w.tagBound
  uniqueTag := w.uniqueTag
  uniqueRecency hp i j hi hj _ _ := w.uniqueRecency hp i j hi hj
  directRecency := w.directRecency

/-- The counters have no part in the shape. -/
theorem CacheWf.congr {d : Cache} (w : CacheWf C c) (h : c.lines = d.lines) : CacheWf C d := by
  have e : ∀ i, d.line i = c.line i := Cache.line_congr h.symm
  exact ⟨h ▸ w.count, by simpa only [e] using w.size, by simpa only [e] using w.tagBound,
    by simpa only [e] using w.uniqueTag, by simpa only [e] using w.uniqueRecency, by simpa only [e] using w.directRecency⟩

theorem line_touched {slot i : Nat} {lines : List Line} (h : i < lines.length) (x y z : Nat) :
    Cache.line ⟨touch C slot lines, x, y, z⟩ i = touchLine C slot i (lines.getD i (Line.reset 0)) := getD_touch h _

/-- Touching a slot repairs its recency, so the shape is whole again (R75, R76). -/
theorem CacheWfBut.touched {slot : Nat} (w : CacheWfBut C c slot) (x y z : Nat) :
    CacheWf C ⟨touch C slot c.lines, x, y, z⟩ := by
  have e : ∀ i, i < lineCount C → Cache.line ⟨touch C slot c.lines, x, y, z⟩ i = touchLine C slot i (c.line i) :=
    fun i hi => line_touched (w.count ▸ hi) x y z
  refine ⟨by simpa using w.count, fun i hi => ?_, fun i hi => ?_, fun hp i j hi hj => ?_, fun hp i j hi hj => ?_, fun hp i hi => ?_⟩
  · simpa only [e i hi, touchLine_data] using w.size i hi
  · simpa only [e i hi, touchLine_valid, touchLine_tag] using w.tagBound i hi
  · simpa only [e i hi, e j hj, touchLine_valid, touchLine_tag] using w.uniqueTag hp i j hi hj
  · rw [e i hi, e j hj, touchLine_valid, touchLine_valid]
    intro vi vj hr
    simp only [touchLine, hp, vi, vj, if_true] at hr
    by_cases h1 : i = slot <;> by_cases h2 : j = slot
    · omega
    · simp [h1, h2] at hr
    · simp [h1, h2] at hr
    · simp only [if_neg h1, if_neg h2, Nat.add_right_cancel_iff] at hr
      exact w.uniqueRecency hp i j hi hj h1 h2 vi vj hr
  · rw [e i hi]
    simpa [touchLine, hp] using w.directRecency hp i hi

/-- A line that is filled with the block of an address no line holds keeps the shape, its recency aside (R73, R76). -/
theorem CacheWf.filled (g : GeometryOk C) (w : CacheWf C c) {slot a : Nat} {bytes : List Byte} (hs : slot < lineCount C)
    (hnone : ∀ i, ¬ Holds C c i a)
    (hlen : bytes.length = C.bs) (htag : tagOf C a < 2 ^ tagBits C) :
    CacheWfBut C (c.setLine slot (filledLine C a bytes (c.line slot))) slot := by
  have hl : slot < c.lines.length := w.count ▸ hs
  have e : ∀ i, (c.setLine slot (filledLine C a bytes (c.line slot))).line i
      = if slot = i then filledLine C a bytes (c.line slot) else c.line i := Cache.setLine_line hl
  have hfresh : ∀ i, i < lineCount C → slot ≠ i → (c.line i).valid = true → C.policy = .fullyAssociative →
      (c.line i).tag ≠ tagOf C a := fun i hi _ hv hp ht =>
    hnone i (holds_of_tag g hi hv ht (by simp [hp]))
  refine ⟨by simpa [Cache.setLine] using w.count, fun i hi => ?_, fun i hi => ?_, fun hp i j hi hj => ?_,
    fun hp i j hi hj h1 h2 => ?_, fun hp i hi => ?_⟩
  · rw [e]
    split
    · exact hlen
    · exact w.size i hi
  · rw [e]
    split
    · exact fun _ => htag
    · exact w.tagBound i hi
  · rw [e, e]
    split <;> split
    · omega
    next h1 h2 => exact fun _ vj ht => absurd ht.symm (hfresh j hj h2 vj hp)
    next h1 h2 => exact fun vi _ ht => absurd ht (hfresh i hi h1 vi hp)
    · exact w.uniqueTag hp i j hi hj
  · rw [e, e, if_neg (Ne.symm h1), if_neg (Ne.symm h2)]
    exact w.uniqueRecency hp i j hi hj
  · rw [e]
    split
    next h => subst h; exact w.directRecency hp slot hi
    next => exact w.directRecency hp i hi

/-- Overwriting bytes of a line keeps the shape (R81). -/
theorem CacheWf.patched (w : CacheWf C c) {slot : Nat} {data : List Byte} (hs : slot < lineCount C)
    (hlen : data.length = C.bs) (dirty : Bool) :
    CacheWf C (c.setLine slot { c.line slot with data := data, dirty := dirty }) := by
  have e : ∀ i, (c.setLine slot { c.line slot with data := data, dirty := dirty }).line i
      = if slot = i then { c.line slot with data := data, dirty := dirty } else c.line i :=
    Cache.setLine_line (w.count ▸ hs)
  have ev : ∀ i, ((c.setLine slot { c.line slot with data := data, dirty := dirty }).line i).valid = (c.line i).valid := by
    intro i; rw [e]; split
    next h => subst h; rfl
    next => rfl
  have et : ∀ i, ((c.setLine slot { c.line slot with data := data, dirty := dirty }).line i).tag = (c.line i).tag := by
    intro i; rw [e]; split
    next h => subst h; rfl
    next => rfl
  have er : ∀ i, ((c.setLine slot { c.line slot with data := data, dirty := dirty }).line i).recency = (c.line i).recency := by
    intro i; rw [e]; split
    next h => subst h; rfl
    next => rfl
  refine ⟨by simpa [Cache.setLine] using w.count, fun i hi => ?_, by simpa only [ev, et] using w.tagBound,
    by simpa only [ev, et] using w.uniqueTag, by simpa only [ev, er] using w.uniqueRecency,
    by simpa only [er] using w.directRecency⟩
  rw [e]
  split
  · exact hlen
  · exact w.size i hi

/-- The tag of an address whose block ends at or below 2^32 is below 2^tb (R38, R41). -/
theorem tagOf_lt (g : GeometryOk C) (hn : lineCount C ≠ 0) {a : Nat} (h : a - a % C.bs + C.bs ≤ 2 ^ 32) :
    tagOf C a < 2 ^ tagBits C := by
  have hcap : lineCount C * C.bs ≤ 2 ^ 32 := g.div ▸ g.capMax
  have hb := g.bsPos
  have hdm := Nat.div_add_mod' a C.bs
  have hdiv : a / C.bs * C.bs < 2 ^ 32 := by omega
  unfold tagOf tagBits
  cases hp : C.policy with
  | direct =>
    have hnp := g.nPow hp hn
    simp only
    have hsum : indexBits C + offsetBits C ≤ 32 := by
      rw [hnp, g.bsPow, ← Nat.pow_add] at hcap
      exact (Nat.pow_le_pow_iff_right (by omega)).1 hcap
    rw [Nat.shiftRight_eq_div_pow, Nat.div_lt_iff_lt_mul (Nat.two_pow_pos _), ← Nat.pow_add,
      show 32 - indexBits C - offsetBits C + (offsetBits C + indexBits C) = 32 by omega]
    have := Nat.mod_lt a hb
    omega
  | fullyAssociative =>
    simp only
    have hle : C.bs ≤ 2 ^ 32 := Nat.le_trans (Nat.le_mul_of_pos_left _ (by omega)) hcap
    have hob : offsetBits C ≤ 32 := by
      rw [g.bsPow] at hle
      exact (Nat.pow_le_pow_iff_right (by omega)).1 hle
    rw [Nat.shiftRight_eq_div_pow, Nat.div_lt_iff_lt_mul (Nat.two_pow_pos _), ← Nat.pow_add,
      show 32 - offsetBits C + offsetBits C = 32 by omega]
    have := Nat.mod_lt a hb
    omega

end Sys2Proof.Machine
end

