-- ==== Sys2Proof/Laws/Contract.lean ====
section
/-! SUPPORT. What every level promises to the level above it, and that main memory keeps the promise. Laws/CacheAccess.lean
proves once that a cache over a level that keeps it keeps it too, which gives L2 and L1D. -/

namespace Sys2Proof.Machine

/-- The contract of a level whose state is σ. `Good` is the level's invariant, `view` the byte it shows at an address,
`Fits e` says that it can serve every byte below e.

A request within `Fits` answers, a read with what the view shows; a request beyond it raises `OutOfBounds`. A read
changes no byte of the view, and a write lays its bytes over the view; a word write that raises changes no byte (R210). -/
structure Contract {σ : Type} (S : Store σ) (Good : σ → Prop) (view : σ → Nat → Byte) (Fits : Nat → Prop) : Prop where
  fits_mono  : ∀ {d e}, d ≤ e → Fits e → Fits d
  fits_bound : ∀ {e}, Fits e → e ≤ 2 ^ 32
  read_fits  : ∀ {s} a k, Good s → Fits (a + k) →
    ∃ t, S.read a k s = .ok (bytesFrom (view s) a k) t ∧ Good t ∧ view t = view s
  read_short : ∀ {s} a k, Good s → 0 < k → ¬ Fits (a + k) →
    ∃ x j t, S.read a k s = .outOfBounds x j t ∧ Good t ∧ view t = view s
  write_fits : ∀ {s} a b, Good s → Fits (a + b.length) →
    ∃ t, S.write a b s = .ok () t ∧ Good t ∧ view t = overlay (view s) a b
  write_short : ∀ {s} a b, Good s → a % 4 = 0 → b.length = 4 → ¬ Fits (a + 4) →
    ∃ x j t, S.write a b s = .outOfBounds x j t ∧ Good t ∧ view t = view s

/-- Main memory keeps the contract (R61, R62). -/
theorem contract_mainStore {memSize : Nat} (hmax : memSize ≤ 2 ^ 32) :
    Contract (mainStore memSize) (MemoryOk memSize) Memory.readByte (fun e => e ≤ memSize) where
  fits_mono h := Nat.le_trans h
  fits_bound h := Nat.le_trans h hmax
  read_fits {m} a k hm h :=
    ⟨m, by simp [mainStore, mainRead, Nat.not_lt.2 h, readBytes_eq_bytesFrom], hm, rfl⟩
  read_short {m} a k hm _ h := ⟨a, k, m, by simp [mainStore, mainRead, Nat.not_le.1 h], hm, rfl⟩
  write_fits {m} a b hm h := by
    refine ⟨m.writeBytes a b, by simp [mainStore, mainWrite, Nat.not_lt.2 h], ⟨Memory.wf_writeBytes hm.1 a b, ?_⟩,
      Memory.readByte_writeBytes hm.1 a b⟩
    intro x hx
    rcases Memory.mem_writeBytes hx with hx | ⟨-, hx⟩
    · exact hm.2 x hx
    · omega
  write_short {m} a b hm _ hb h := ⟨a, b.length, m, by simp [mainStore, mainWrite, hb, Nat.not_le.1 h], hm, rfl⟩

end Sys2Proof.Machine
end

