-- ==== Sys2Proof/Laws/CacheAccess.lean ====
section
/-! SUPPORT. One access to a cache over a level that keeps its contract (20_memory.md R70 to R75), whole requests
(R78 to R82), and the contract of a cache. -/

namespace Sys2Proof.Machine

variable {σ : Type} {C : CacheConfig} {low : Store σ} {Good : σ → Prop} {view : σ → Nat → Byte} {Fits : Nat → Prop}

/-- What holds of a cache and the level below it, a clean line's agreement with that level aside. -/
structure LevelOk (C : CacheConfig) (Good : σ → Prop) (Fits : Nat → Prop) (c : Cache) (m : σ) : Prop where
  shape : CacheWf C c
  fit   : LinesFit C c Fits
  low   : Good m

/-- What an access or a request, whether it answers or raises, leaves of a cache and of the level below it.

Where clean lines agreed with the level below, they still do, and no byte of the view has changed. Where no line was
dirty, none is, nothing was written back and the level below shows what it showed. -/
structure Keeps (C : CacheConfig) (Good : σ → Prop) (view : σ → Nat → Byte) (Fits : Nat → Prop)
    (c : Cache) (m : σ) (c' : Cache) (m' : σ) : Prop where
  ok    : LevelOk C Good Fits c' m'
  agree : CleanAgree C c (view m) → CleanAgree C c' (view m') ∧ viewThrough C c' (view m') = viewThrough C c (view m)
  clean : NoDirty C c → NoDirty C c' ∧ view m' = view m ∧ c'.writeBacks = c.writeBacks

theorem Keeps.trans {c c' c'' : Cache} {m m' m'' : σ} (h : Keeps C Good view Fits c m c' m')
    (h' : Keeps C Good view Fits c' m' c'' m'') : Keeps C Good view Fits c m c'' m'' where
  ok := h'.ok
  agree ha := by
    obtain ⟨h1, h2⟩ := h.agree ha
    obtain ⟨h3, h4⟩ := h'.agree h1
    exact ⟨h3, h4.trans h2⟩
  clean hc := by
    obtain ⟨h1, h2, h3⟩ := h.clean hc
    obtain ⟨h4, h5, h6⟩ := h'.clean h1
    exact ⟨h4, h5.trans h2, h6.trans h3⟩

/-- The counters have no part in what is kept, but that `writeBacks` stays while no line is dirty. -/
theorem Keeps.recount {c c' : Cache} {m m' : σ} (h : Keeps C Good view Fits c m c' m') {d : Cache}
    (hl : d.lines = c.lines) (hw : d.writeBacks = c.writeBacks) : Keeps C Good view Fits d m c' m' := by
  have e : ∀ i, d.line i = c.line i := Cache.line_congr hl
  have ev : viewThrough C d (view m) = viewThrough C c (view m) := by
    funext x
    simp only [viewThrough, cacheByte, lookup, e, hl]
  refine ⟨h.ok, fun ha => ?_, fun hc => ?_⟩
  · rw [ev]
    exact h.agree (by simpa only [CleanAgree, e] using ha)
  · rw [hw]
    exact h.clean (by simpa only [NoDirty, e] using hc)

/-- Slot lines whose valid, dirty, tag and data are the same show the same and have the same dirty lines. -/
theorem keeps_of_sameLines (g : GeometryOk C) (hn : lineCount C ≠ 0) {c c' : Cache} {m : σ}
    (ok : LevelOk C Good Fits c m) (w' : CacheWf C c') (hw : c'.writeBacks = c.writeBacks)
    (h : ∀ i, i < lineCount C → (c'.line i).valid = (c.line i).valid ∧ (c'.line i).dirty = (c.line i).dirty ∧
      (c'.line i).tag = (c.line i).tag ∧ (c'.line i).data = (c.line i).data) : Keeps C Good view Fits c m c' m := by
  have hh : ∀ i a, Holds C c' i a ↔ Holds C c i a := fun i a =>
    ⟨fun ⟨h1, h2, h3⟩ => ⟨h1, (h i h1).1 ▸ h2, (h i h1).2.2.1 ▸ h3⟩,
     fun ⟨h1, h2, h3⟩ => ⟨h1, (h i h1).1.symm ▸ h2, (h i h1).2.2.1.symm ▸ h3⟩⟩
  refine ⟨⟨w', fun i hi hv => ?_, ok.low⟩, fun ha => ⟨fun i hi hv hd j hj => ?_, ?_⟩, fun hc => ⟨fun i hi => ?_, rfl, hw⟩⟩
  · rw [(h i hi).2.2.1]
    exact ok.fit i hi ((h i hi).1 ▸ hv)
  · rw [(h i hi).2.2.1, (h i hi).2.2.2]
    exact ha i hi ((h i hi).1 ▸ hv) ((h i hi).2.1 ▸ hd) j hj
  · funext x
    by_cases hx : ∃ i, Holds C c i x
    · obtain ⟨i, hi⟩ := hx
      rw [viewThrough_of_holds g ok.shape hi, viewThrough_of_holds g w' ((hh i x).2 hi), (h i hi.lt).2.2.2]
    · rw [viewThrough_of_none g hn ok.shape (fun i hi => hx ⟨i, hi⟩),
        viewThrough_of_none g hn w' (fun i hi => hx ⟨i, (hh i x).1 hi⟩)]
  · rw [(h i hi).2.1]
    exact hc i hi

/-! ### A hit -/

/-- A hit (R70): it counts one hit and touches the slot, nothing else. -/
theorem access_hit {c : Cache} {m : σ} {a slot : Nat} (h : lookup C c a = some slot) :
    access C low a (c, m) = .ok slot (⟨touch C slot c.lines, c.hits + 1, c.misses, c.writeBacks⟩, m) := by
  simp [access, h]

theorem keeps_touched (g : GeometryOk C) (hn : lineCount C ≠ 0) {c : Cache} {m : σ} (ok : LevelOk C Good Fits c m)
    (slot x y : Nat) : Keeps C Good view Fits c m ⟨touch C slot c.lines, x, y, c.writeBacks⟩ m := by
  refine keeps_of_sameLines g hn ok ((ok.shape.but slot).touched x y _) rfl fun i hi => ?_
  rw [line_touched (ok.shape.count ▸ hi)]
  exact ⟨touchLine_valid .., touchLine_dirty .., touchLine_tag .., touchLine_data ..⟩

/-! ### A miss -/

/-- The state below after the write-back of a slot (R72): the line's bytes laid over the level below if it is dirty. -/
def viewBack (C : CacheConfig) (c : Cache) (slot : Nat) (below : Nat → Byte) : Nat → Byte :=
  if (c.line slot).valid && (c.line slot).dirty then
    overlay below (lineAddr C slot (c.line slot).tag) (c.line slot).data
  else below

theorem viewBack_of_clean {c : Cache} {slot : Nat} (h : (c.line slot).dirty = false) (below : Nat → Byte) :
    viewBack C c slot below = below := by
  simp [viewBack, h]

/-- The write-back of a slot never raises (R205). -/
theorem writeBack_spec (K : Contract low Good view Fits) {c : Cache} {m : σ} (ok : LevelOk C Good Fits c m) {slot : Nat}
    (hs : slot < lineCount C) :
    ∃ w m1, writeBack C low slot (c, m) = .ok () ({ c with writeBacks := w }, m1) ∧ Good m1 ∧
      view m1 = viewBack C c slot (view m) ∧ ((c.line slot).dirty = false → w = c.writeBacks) := by
  unfold writeBack viewBack
  by_cases h : ((c.line slot).valid && (c.line slot).dirty) = true
  · simp only [Bool.and_eq_true] at h
    obtain ⟨m1, e, g1, v1⟩ := K.write_fits (lineAddr C slot (c.line slot).tag) (c.line slot).data ok.low
      (by rw [ok.shape.size slot hs]; exact ok.fit slot hs h.1)
    refine ⟨c.writeBacks + 1, m1, by simp [h, e], g1, by simp [h, v1], fun hd => ?_⟩
    rw [h.2] at hd
    cases hd
  · exact ⟨c.writeBacks, m, by simp [h], ok.low, by simp [h], fun _ => rfl⟩

/-- The bytes of a valid line's block are at its block number (R74). -/
theorem div_of_mem_line (g : GeometryOk C) {slot tag x : Nat} (hs : slot < lineCount C)
    (h : lineAddr C slot tag ≤ x ∧ x < lineAddr C slot tag + C.bs) : x / C.bs = blockOf C slot tag := by
  rw [lineAddr_eq g hs] at h
  rw [Nat.div_eq_of_lt_le h.1 (by rw [Nat.add_mul]; omega)]

theorem mem_line_of_div (g : GeometryOk C) {slot tag x : Nat} (hs : slot < lineCount C)
    (h : blockOf C slot tag = x / C.bs) : lineAddr C slot tag ≤ x ∧ x < lineAddr C slot tag + C.bs ∧
      x - lineAddr C slot tag = x % C.bs := by
  rw [lineAddr_eq g hs, h]
  have := Nat.div_add_mod' x C.bs
  have := Nat.mod_lt x g.bsPos
  omega

/-- Below a written-back slot, an address of another block shows what it showed. -/
theorem viewBack_of_other (g : GeometryOk C) {c : Cache} (w : CacheWf C c) {slot : Nat} (hs : slot < lineCount C)
    (below : Nat → Byte) {x : Nat} (h : ¬ Holds C c slot x) : viewBack C c slot below x = below x := by
  unfold viewBack
  split
  next hd =>
    simp only [Bool.and_eq_true] at hd
    apply overlay_of_not_mem
    rw [w.size slot hs]
    intro hx
    exact h ⟨hs, hd.1, (div_of_mem_line g hs hx).symm⟩
  next => rfl

/-- Below a written-back slot, an address of its block shows what the line holds, where clean lines agree. -/
theorem viewBack_of_holds (g : GeometryOk C) {c : Cache} (w : CacheWf C c) {slot : Nat} (below : Nat → Byte) {x : Nat}
    (ha : CleanAgree C c below) (h : Holds C c slot x) :
    viewBack C c slot below x = (c.line slot).data.getD (x % C.bs) 0 := by
  obtain ⟨h1, h2, h3⟩ := mem_line_of_div g h.lt h.block
  unfold viewBack
  split
  next => rw [overlay_of_mem h1 (by rw [w.size slot h.lt]; exact h2), h3]
  next hd =>
    have hdirty : (c.line slot).dirty = false := by simpa [h.valid] using hd
    have := ha slot h.lt h.valid hdirty (x % C.bs) (Nat.mod_lt x g.bsPos)
    rw [this, ← h3]
    congr 1
    omega

/-- After the write-back of a slot, before the fill. -/
theorem keeps_writtenBack (g : GeometryOk C) (hn : lineCount C ≠ 0) {c : Cache} {m m1 : σ} (ok : LevelOk C Good Fits c m)
    {slot w : Nat} (hs : slot < lineCount C) (g1 : Good m1) (v1 : view m1 = viewBack C c slot (view m))
    (hw : (c.line slot).dirty = false → w = c.writeBacks) :
    Keeps C Good view Fits c m { c with writeBacks := w } m1 := by
  have wf1 : CacheWf C { c with writeBacks := w } := ok.shape.congr rfl
  have hh : ∀ i a, Holds C { c with writeBacks := w } i a ↔ Holds C c i a := fun i a =>
    ⟨fun ⟨h1, h2, h3⟩ => ⟨h1, h2, h3⟩, fun ⟨h1, h2, h3⟩ => ⟨h1, h2, h3⟩⟩
  refine ⟨⟨wf1, ok.fit, g1⟩, fun ha => ⟨fun i hi hv hd j hj => ?_, ?_⟩, fun hc => ?_⟩
  · show (c.line i).data.getD j 0 = view m1 (lineAddr C i (c.line i).tag + j)
    have hblock : (lineAddr C i (c.line i).tag + j) / C.bs = blockOf C i (c.line i).tag :=
      div_of_mem_line g hi ⟨by omega, by omega⟩
    have hi' : Holds C c i (lineAddr C i (c.line i).tag + j) := ⟨hi, hv, hblock.symm⟩
    rw [v1]
    by_cases e : slot = i
    · subst e
      rw [viewBack_of_holds g ok.shape _ ha hi', lineAddr_eq g hs, Nat.add_comm, Nat.add_mul_mod_self_right,
        Nat.mod_eq_of_lt hj]
    · rw [viewBack_of_other g ok.shape hs _ (fun hslot => e (Holds.unique ok.shape hslot hi'))]
      exact ha i hi hv hd j hj
  · funext x
    by_cases hx : ∃ i, Holds C c i x
    · obtain ⟨i, hi⟩ := hx
      rw [viewThrough_of_holds g ok.shape hi, viewThrough_of_holds g wf1 ((hh i x).2 hi)]
      rfl
    · rw [viewThrough_of_none g hn ok.shape (fun i hi => hx ⟨i, hi⟩),
        viewThrough_of_none g hn wf1 (fun i hi => hx ⟨i, (hh i x).1 hi⟩), v1]
      exact viewBack_of_other g ok.shape hs _ (fun hi => hx ⟨slot, hi⟩)
  · exact ⟨hc, by rw [v1, viewBack_of_clean (hc slot hs)], hw (hc slot hs)⟩

/-- What an access that answers gives: the slot holds the address's block, whose bytes are the view's. -/
structure Resolved (C : CacheConfig) (view : σ → Nat → Byte) (c : Cache) (m : σ) (a slot : Nat) (c' : Cache) (m' : σ) :
    Prop where
  holds : Holds C c' slot a
  bytes : ∀ x, x / C.bs = a / C.bs → (c'.line slot).data.getD (x % C.bs) 0 = viewThrough C c (view m) x

/-- After the fill of a victim whose write-back is done (R73). -/
theorem keeps_filled (g : GeometryOk C) (K : Contract low Good view Fits) {c : Cache} {m m1 m2 : σ} {a slot w h y : Nat}
    (ok : LevelOk C Good Fits c m) (hs : slot < lineCount C)
    (hslot : C.policy = .direct → slot = indexOf C a) (hnone : ∀ i, ¬ Holds C c i a)
    (hfits : Fits (a - a % C.bs + C.bs))
    (v1 : view m1 = viewBack C c slot (view m)) (hw : (c.line slot).dirty = false → w = c.writeBacks)
    (g2 : Good m2) (v2 : view m2 = view m1)
    (c' : Cache) (hc' : c' = ⟨touch C slot (c.lines.set slot
      (filledLine C a (bytesFrom (view m1) (a - a % C.bs) C.bs) (c.line slot))), h, y, w⟩) :
    Keeps C Good view Fits c m c' m2 ∧ Resolved C view c m a slot c' m2 := by
  have hn : lineCount C ≠ 0 := by omega
  have hl : slot < c.lines.length := ok.shape.count ▸ hs
  have hbs := g.bsPos
  have hdm := Nat.div_add_mod' a C.bs
  have htag : tagOf C a < 2 ^ tagBits C := tagOf_lt g hn (K.fits_bound hfits)
  have wf' : CacheWf C c' := by
    subst hc'
    exact (ok.shape.filled g hs hnone (length_bytesFrom ..) htag).touched h y w
  have eslot : (c'.line slot).valid = true ∧ (c'.line slot).dirty = false ∧ (c'.line slot).tag = tagOf C a ∧
      (c'.line slot).data = bytesFrom (view m1) (a - a % C.bs) C.bs := by
    subst hc'
    rw [line_touched (by simpa using hl), getD_set_self hl]
    simp [filledLine]
  have eother : ∀ i, i < lineCount C → slot ≠ i → (c'.line i).valid = (c.line i).valid ∧
      (c'.line i).dirty = (c.line i).dirty ∧ (c'.line i).tag = (c.line i).tag ∧ (c'.line i).data = (c.line i).data := by
    intro i hi hne
    subst hc'
    rw [line_touched (by simpa using ok.shape.count ▸ hi), getD_set_ne hne]
    exact ⟨touchLine_valid .., touchLine_dirty .., touchLine_tag .., touchLine_data ..⟩
  have hblock : blockOf C slot (c'.line slot).tag = a / C.bs := by
    rw [eslot.2.2.1, ← blockOf_index_tag g hn a]
    cases hp : C.policy with
    | direct => rw [hslot hp]
    | fullyAssociative => simp [blockOf, hp]
  have haddr : lineAddr C slot (c'.line slot).tag = a - a % C.bs := by
    rw [lineAddr_eq g hs, hblock]
    omega
  have hholds : ∀ x, x / C.bs = a / C.bs → Holds C c' slot x := fun x hx => ⟨hs, eslot.1, hblock.trans hx.symm⟩
  have hother : ∀ i x, slot ≠ i → (Holds C c' i x ↔ Holds C c i x) := fun i x hne =>
    ⟨fun ⟨h1, h2, h3⟩ => ⟨h1, (eother i h1 hne).1 ▸ h2, (eother i h1 hne).2.2.1 ▸ h3⟩,
     fun ⟨h1, h2, h3⟩ => ⟨h1, (eother i h1 hne).1.symm ▸ h2, (eother i h1 hne).2.2.1.symm ▸ h3⟩⟩
  have hdata : ∀ x, x / C.bs = a / C.bs → (c'.line slot).data.getD (x % C.bs) 0 = view m1 x := by
    intro x hx
    rw [eslot.2.2.2, getD_bytesFrom _ _ (Nat.mod_lt x hbs)]
    congr 1
    have := Nat.div_add_mod' x C.bs
    rw [hx] at this
    omega
  have hnone' : ∀ x i, x / C.bs = a / C.bs → ¬ Holds C c i x := fun x i hx ⟨h1, h2, h3⟩ =>
    hnone i ⟨h1, h2, h3.trans hx⟩
  refine ⟨⟨⟨wf', fun i hi hv => ?_, g2⟩, fun ha => ⟨fun i hi hv hd j hj => ?_, ?_⟩, fun hc => ?_⟩, ⟨hholds a rfl, ?_⟩⟩
  · by_cases e : slot = i
    · subst e
      rw [haddr]
      exact hfits
    · rw [(eother i hi e).2.2.1]
      exact ok.fit i hi ((eother i hi e).1 ▸ hv)
  · by_cases e : slot = i
    · subst e
      have hx : (lineAddr C slot (c'.line slot).tag + j) / C.bs = a / C.bs :=
        (div_of_mem_line g hs ⟨by omega, by omega⟩).trans hblock
      rw [v2, ← hdata _ hx, lineAddr_eq g hs, Nat.add_comm, Nat.add_mul_mod_self_right, Nat.mod_eq_of_lt hj]
    · obtain ⟨e1, e2, e3, e4⟩ := eother i hi e
      rw [e1] at hv
      rw [e2] at hd
      rw [e3, e4, v2, v1, viewBack_of_other g ok.shape hs]
      · exact ha i hi hv hd j hj
      · intro hslotHolds
        have hx : (lineAddr C i (c.line i).tag + j) / C.bs = blockOf C i (c.line i).tag :=
          div_of_mem_line g hi ⟨by omega, by omega⟩
        exact e (Holds.unique ok.shape hslotHolds ⟨hi, hv, hx.symm⟩)
  · funext x
    by_cases hx : x / C.bs = a / C.bs
    · rw [viewThrough_of_holds g wf' (hholds x hx), hdata x hx, v1,
        viewBack_of_other g ok.shape hs _ (hnone' x slot hx), viewThrough_of_none g hn ok.shape (fun i => hnone' x i hx)]
    · by_cases hi : ∃ i, Holds C c i x
      · obtain ⟨i, hi⟩ := hi
        rw [viewThrough_of_holds g ok.shape hi]
        by_cases e : slot = i
        · subst e
          rw [viewThrough_of_none g hn wf', v2, v1, viewBack_of_holds g ok.shape _ ha hi]
          intro i hi'
          by_cases e : slot = i
          · subst e
            exact hx (hi'.block.symm.trans hblock)
          · exact e (Holds.unique ok.shape hi ((hother i x e).1 hi'))
        · rw [viewThrough_of_holds g wf' ((hother i x e).2 hi), (eother i hi.lt e).2.2.2]
      · rw [viewThrough_of_none g hn ok.shape (fun i h => hi ⟨i, h⟩), viewThrough_of_none g hn wf', v2, v1,
          viewBack_of_other g ok.shape hs _ (fun h => hi ⟨slot, h⟩)]
        intro i h'
        by_cases e : slot = i
        · subst e
          exact hx (h'.block.symm.trans hblock)
        · exact hi ⟨i, (hother i x e).1 h'⟩
  · refine ⟨fun i hi => ?_, by rw [v2, v1, viewBack_of_clean (hc slot hs)], by subst hc'; exact hw (hc slot hs)⟩
    by_cases e : slot = i
    · subst e
      exact eslot.2.1
    · rw [(eother i hi e).2.1]
      exact hc i hi
  · intro x hx
    rw [hdata x hx, v1, viewBack_of_other g ok.shape hs _ (hnone' x slot hx),
      viewThrough_of_none g hn ok.shape (fun i => hnone' x i hx)]

/-- One access within bounds answers (R70): the slot it gives holds the address's block. -/
theorem access_fits (g : GeometryOk C) (hn : lineCount C ≠ 0) (K : Contract low Good view Fits) {c : Cache} {m : σ}
    (ok : LevelOk C Good Fits c m) (a : Nat) (hfits : Fits (a - a % C.bs + C.bs)) :
    ∃ slot c' m', access C low a (c, m) = .ok slot (c', m') ∧ Keeps C Good view Fits c m c' m' ∧
      Resolved C view c m a slot c' m' := by
  cases hl : lookup C c a with
  | some slot =>
    have hh := holds_of_lookup g hn ok.shape hl
    refine ⟨slot, _, m, access_hit hl, keeps_touched g hn ok slot _ _, ⟨⟨hh.lt, ?_, ?_⟩, fun x hx => ?_⟩⟩
    · rw [line_touched (ok.shape.count ▸ hh.lt), touchLine_valid]; exact hh.valid
    · rw [line_touched (ok.shape.count ▸ hh.lt), touchLine_tag]; exact hh.block
    · rw [line_touched (ok.shape.count ▸ hh.lt), touchLine_data,
        viewThrough_of_holds g ok.shape (slot := slot) ⟨hh.lt, hh.valid, hh.block.trans hx.symm⟩]
      rfl
  | none =>
    have hnone := (lookup_eq_none_iff g hn ok.shape).1 hl
    have hv := victim_lt ok.shape (indexOf_lt g hn a)
    have ok1 : LevelOk C Good Fits { c with misses := c.misses + 1 } m := ⟨ok.shape.congr rfl, ok.fit, ok.low⟩
    obtain ⟨w, m1, e1, g1, v1, hw⟩ := writeBack_spec K ok1 hv
    obtain ⟨m2, e2, g2, v2⟩ := K.read_fits (s := m1) (a - a % C.bs) C.bs g1 hfits
    obtain ⟨k1, k2⟩ := keeps_filled (h := c.hits) (y := c.misses + 1) g K ok hv
      (fun hp => by simp [victim, hp]) hnone hfits v1 hw g2 v2 _ rfl
    refine ⟨_, _, m2, ?_, k1, k2⟩
    have hvic : victim C { c with misses := c.misses + 1 } (indexOf C a) = victim C c (indexOf C a) := rfl
    simp only [access, hl, miss, hvic, e1, fill, offsetOf_eq g, e2]
    rfl

/-- One access beyond bounds raises `OutOfBounds` (R205) and changes no byte of the view (R210). -/
theorem access_short (g : GeometryOk C) (hn : lineCount C ≠ 0) (K : Contract low Good view Fits) {c : Cache} {m : σ}
    (ok : LevelOk C Good Fits c m) (a : Nat) (hshort : ¬ Fits (a - a % C.bs + C.bs)) :
    ∃ x j c' m', access C low a (c, m) = .outOfBounds x j (c', m') ∧ Keeps C Good view Fits c m c' m' := by
  have hnone : ∀ i, ¬ Holds C c i a := fun i hi => by
    have := ok.fit i hi.lt hi.valid
    rw [lineAddr_eq g hi.lt, hi.block] at this
    have hdm := Nat.div_add_mod' a C.bs
    exact hshort (by rwa [show a - a % C.bs = a / C.bs * C.bs by omega])
  have hl := (lookup_eq_none_iff g hn ok.shape).2 hnone
  have hv := victim_lt ok.shape (indexOf_lt g hn a)
  have ok1 : LevelOk C Good Fits { c with misses := c.misses + 1 } m := ⟨ok.shape.congr rfl, ok.fit, ok.low⟩
  obtain ⟨w, m1, e1, g1, v1, hw⟩ := writeBack_spec K ok1 hv
  obtain ⟨x, j, m2, e2, g2, v2⟩ := K.read_short (s := m1) (a - a % C.bs) C.bs g1 g.bsPos hshort
  have k1 := keeps_writtenBack g hn ok1 hv g2 (v2.trans v1) hw
  refine ⟨x, j, _, m2, ?_, k1.recount rfl rfl⟩
  have hvic : victim C { c with misses := c.misses + 1 } (indexOf C a) = victim C c (indexOf C a) := rfl
  simp only [access, hl, miss, hvic, e1, fill, offsetOf_eq g, e2]

/-! ### Requests -/

/-- The bytes of a segment in its line are those the view shows. -/
theorem segment_bytes (g : GeometryOk C) {data : List Byte} {v : Nat → Byte} {p j : Nat} (hlen : data.length = C.bs)
    (h : ∀ x, x / C.bs = p / C.bs → data.getD (x % C.bs) 0 = v x) (hj : p % C.bs + j ≤ C.bs) :
    (data.drop (offsetOf C p)).take j = bytesFrom v p j := by
  rw [offsetOf_eq g]
  apply eq_bytesFrom (by simp; omega)
  intro i hi
  have hb := g.bsPos
  have hd : (p + i) / C.bs = p / C.bs := by
    have := Nat.div_add_mod' p C.bs
    exact Nat.div_eq_of_lt_le (by omega) (by rw [Nat.add_mul]; omega)
  have hm : (p + i) % C.bs = p % C.bs + i := by
    have h1 := Nat.div_add_mod' p C.bs
    have h2 := Nat.div_add_mod' (p + i) C.bs
    rw [hd] at h2
    omega
  rw [← h (p + i) hd, hm]
  simp only [List.getD_eq_getElem?_getD, List.getElem?_take, hi, if_true, List.getElem?_drop]

/-- The first segment of a range ends with its block or with the range (R78). -/
theorem segment_end (g : GeometryOk C) {p e : Nat} (h : p < e) :
    p < min (p - p % C.bs + C.bs) e ∧ p % C.bs + (min (p - p % C.bs + C.bs) e - p) ≤ C.bs := by
  have := Nat.mod_lt p g.bsPos
  have := Nat.mod_le p C.bs
  omega

/-- The segments of a read within bounds answer with what the view shows (R78, R80). -/
theorem readSegments_fits (g : GeometryOk C) (hn : lineCount C ≠ 0) (K : Contract low Good view Fits) (fuel : Nat) :
    ∀ {c : Cache} {m : σ} (p e : Nat), LevelOk C Good Fits c m → CleanAgree C c (view m) → e - p ≤ fuel →
      Fits (blockEnd C e) → ∃ c' m', readSegments C low (segmentsFrom C.bs fuel p e) (c, m)
        = .ok (bytesFrom (viewThrough C c (view m)) p (e - p)) (c', m') ∧ Keeps C Good view Fits c m c' m' := by
  induction fuel with
  | zero =>
    intro c m p e ok _ hle _
    refine ⟨c, m, ?_, ⟨ok, fun ha => ⟨ha, rfl⟩, fun hc => ⟨hc, rfl, rfl⟩⟩⟩
    rw [show e - p = 0 by omega]
    rfl
  | succ fuel ih =>
    intro c m p e ok ha hle hf
    unfold segmentsFrom
    split
    next hlt =>
      obtain ⟨h1, h2⟩ := segment_end g hlt
      obtain ⟨slot, c1, m1, e1, k1, r1⟩ := access_fits g hn K ok p (K.fits_mono (block_le_blockEnd g hn hlt) hf)
      obtain ⟨a1, v1⟩ := k1.agree ha
      obtain ⟨c2, m2, e2, k2⟩ := ih (min (p - p % C.bs + C.bs) e) e k1.ok a1 (by omega) hf
      refine ⟨c2, m2, ?_, k1.trans k2⟩
      simp only [readSegments, e1, e2, v1, segment_bytes g (k1.ok.shape.size slot r1.holds.lt) r1.bytes h2]
      congr 1
      have := bytesFrom_append (viewThrough C c (view m)) p (min (p - p % C.bs + C.bs) e - p)
        (e - min (p - p % C.bs + C.bs) e)
      rw [show p + (min (p - p % C.bs + C.bs) e - p) = min (p - p % C.bs + C.bs) e by omega] at this
      rw [this]
      congr 1
      omega
    next hlt =>
      refine ⟨c, m, ?_, ⟨ok, fun ha => ⟨ha, rfl⟩, fun hc => ⟨hc, rfl, rfl⟩⟩⟩
      rw [show e - p = 0 by omega]
      rfl

/-- The segments of a read beyond bounds raise `OutOfBounds` (R205). -/
theorem readSegments_short (g : GeometryOk C) (hn : lineCount C ≠ 0) (K : Contract low Good view Fits) (fuel : Nat) :
    ∀ {c : Cache} {m : σ} (p e : Nat), LevelOk C Good Fits c m → CleanAgree C c (view m) → e - p ≤ fuel → p < e →
      ¬ Fits (blockEnd C e) → ∃ x j c' m', readSegments C low (segmentsFrom C.bs fuel p e) (c, m)
        = .outOfBounds x j (c', m') ∧ Keeps C Good view Fits c m c' m' := by
  induction fuel with
  | zero => intro c m p e _ _ hle hlt; omega
  | succ fuel ih =>
    intro c m p e ok ha hle hlt hf
    unfold segmentsFrom
    rw [if_pos hlt]
    obtain ⟨h1, h2⟩ := segment_end g hlt
    by_cases hp : Fits (p - p % C.bs + C.bs)
    · obtain ⟨slot, c1, m1, e1, k1, r1⟩ := access_fits g hn K ok p hp
      have hmore : min (p - p % C.bs + C.bs) e < e := by
        rcases Nat.lt_or_ge (p - p % C.bs + C.bs) e with h | h
        · omega
        · exact absurd (blockEnd_eq g hn hlt h ▸ hp) hf
      obtain ⟨x, j, c2, m2, e2, k2⟩ := ih _ e k1.ok (k1.agree ha).1 (by omega) hmore hf
      exact ⟨x, j, c2, m2, by simp only [readSegments, e1, e2], k1.trans k2⟩
    · obtain ⟨x, j, c1, m1, e1, k1⟩ := access_short g hn K ok p hp
      exact ⟨x, j, c1, m1, by simp only [readSegments, e1], k1⟩

/-! ### Writing -/

@[simp] theorem length_patch {data bytes : List Byte} {off : Nat} (h : off + bytes.length ≤ data.length) :
    (patch data off bytes).length = data.length := by
  simp [patch]
  omega

theorem getD_patch {data bytes : List Byte} {off i : Nat} (h : off + bytes.length ≤ data.length) :
    (patch data off bytes).getD i 0
      = if off ≤ i ∧ i < off + bytes.length then bytes.getD (i - off) 0 else data.getD i 0 := by
  simp only [patch, List.getD_eq_getElem?_getD, List.append_assoc]
  have ht : (data.take off).length = off := by simp; omega
  by_cases h1 : i < off
  · rw [if_neg (by omega), List.getElem?_append_left (by omega), List.getElem?_take, if_pos h1]
  · rw [List.getElem?_append_right (by omega), ht]
    by_cases h2 : i < off + bytes.length
    · rw [if_pos ⟨by omega, h2⟩, List.getElem?_append_left (by omega)]
    · rw [if_neg (by omega), List.getElem?_append_right (by omega), List.getElem?_drop]
      congr 2
      omega

/-- Writing a segment into the line that holds its block lays the bytes over the view and leaves the line dirty (R79, R81). -/
theorem written_segment (g : GeometryOk C) {c : Cache} {m : σ} {slot p : Nat} {bytes : List Byte}
    (ok : LevelOk C Good Fits c m) (ha : CleanAgree C c (view m)) (h : Holds C c slot p)
    (hlen : p % C.bs + bytes.length ≤ C.bs) :
    LevelOk C Good Fits (c.setLine slot (writtenLine C (c.line slot) p bytes)) m ∧
      CleanAgree C (c.setLine slot (writtenLine C (c.line slot) p bytes)) (view m) ∧
      viewThrough C (c.setLine slot (writtenLine C (c.line slot) p bytes)) (view m)
        = overlay (viewThrough C c (view m)) p bytes := by
  have hn : lineCount C ≠ 0 := by have := h.lt; omega
  have hsize : (patch (c.line slot).data (offsetOf C p) bytes).length = C.bs := by
    have := ok.shape.size slot h.lt
    rw [length_patch (by rw [offsetOf_eq g, this]; exact hlen), this]
  have wf' : CacheWf C (c.setLine slot (writtenLine C (c.line slot) p bytes)) := ok.shape.patched h.lt hsize true
  have e : ∀ i, (c.setLine slot (writtenLine C (c.line slot) p bytes)).line i
      = if slot = i then writtenLine C (c.line slot) p bytes else c.line i := Cache.setLine_line (ok.shape.count ▸ h.lt)
  have hh : ∀ i a, Holds C (c.setLine slot (writtenLine C (c.line slot) p bytes)) i a ↔ Holds C c i a := by
    intro i a
    have ev : ((c.setLine slot (writtenLine C (c.line slot) p bytes)).line i).valid = (c.line i).valid := by
      rw [e]; split
      next h => subst h; rfl
      next => rfl
    have et : ((c.setLine slot (writtenLine C (c.line slot) p bytes)).line i).tag = (c.line i).tag := by
      rw [e]; split
      next h => subst h; rfl
      next => rfl
    exact ⟨fun ⟨h1, h2, h3⟩ => ⟨h1, ev ▸ h2, et ▸ h3⟩, fun ⟨h1, h2, h3⟩ => ⟨h1, ev.symm ▸ h2, et.symm ▸ h3⟩⟩
  refine ⟨⟨wf', fun i hi hv => ?_, ok.low⟩, fun i hi hv hd j hj => ?_, ?_⟩
  · rw [e] at hv ⊢
    split
    next h => subst h; rw [if_pos rfl] at hv; exact ok.fit slot hi hv
    next h => rw [if_neg h] at hv; exact ok.fit i hi hv
  · rw [e] at hv hd ⊢
    split
    next h => rw [if_pos h] at hd; cases hd
    next h => rw [if_neg h] at hv hd; exact ha i hi hv hd j hj
  · funext x
    by_cases hx : ∃ i, Holds C c i x
    · obtain ⟨i, hi⟩ := hx
      rw [viewThrough_of_holds g wf' ((hh i x).2 hi), e]
      by_cases hs : slot = i
      · subst hs
        rw [if_pos rfl]
        show (patch _ _ _).getD _ _ = _
        have hblock : x / C.bs = p / C.bs := hi.block.symm.trans h.block
        have hx1 := Nat.div_add_mod' x C.bs
        have hp1 := Nat.div_add_mod' p C.bs
        rw [hblock] at hx1
        rw [getD_patch (by rw [offsetOf_eq g, ok.shape.size slot h.lt]; exact hlen), offsetOf_eq g, overlay]
        by_cases hr : p ≤ x ∧ x < p + bytes.length
        · rw [if_pos hr, if_pos (by omega)]
          congr 1
          omega
        · rw [if_neg hr, if_neg (by omega), viewThrough_of_holds g ok.shape hi]
      · rw [if_neg hs, overlay_of_not_mem, viewThrough_of_holds g ok.shape hi]
        intro hr
        have hp1 := Nat.div_add_mod' p C.bs
        have hblock : x / C.bs = p / C.bs := Nat.div_eq_of_lt_le (by omega) (by rw [Nat.add_mul]; omega)
        exact hs (Holds.unique ok.shape h ⟨hi.lt, hi.valid, hi.block.trans hblock⟩)
    · rw [viewThrough_of_none g hn wf' (fun i hi => hx ⟨i, (hh i x).1 hi⟩), overlay_of_not_mem,
        viewThrough_of_none g hn ok.shape (fun i hi => hx ⟨i, hi⟩)]
      intro hr
      have hp1 := Nat.div_add_mod' p C.bs
      have hblock : x / C.bs = p / C.bs := Nat.div_eq_of_lt_le (by omega) (by rw [Nat.add_mul]; omega)
      exact hx ⟨slot, h.lt, h.valid, h.block.trans hblock.symm⟩

/-- The segments of a write within bounds lay the bytes over the view (R78, R81). -/
theorem writeSegments_fits (g : GeometryOk C) (hn : lineCount C ≠ 0) (K : Contract low Good view Fits) (fuel : Nat) :
    ∀ {c : Cache} {m : σ} (p e : Nat) (bytes : List Byte), LevelOk C Good Fits c m → CleanAgree C c (view m) →
      e - p ≤ fuel → bytes.length = e - p → Fits (blockEnd C e) →
      ∃ c' m', writeSegments C low (segmentsFrom C.bs fuel p e) bytes (c, m) = .ok () (c', m') ∧
        LevelOk C Good Fits c' m' ∧ CleanAgree C c' (view m') ∧
        viewThrough C c' (view m') = overlay (viewThrough C c (view m)) p bytes := by
  induction fuel with
  | zero =>
    intro c m p e bytes ok ha hle hlen _
    have : bytes = [] := List.length_eq_zero_iff.1 (by omega)
    subst this
    exact ⟨c, m, rfl, ok, ha, (overlay_nil ..).symm⟩
  | succ fuel ih =>
    intro c m p e bytes ok ha hle hlen hf
    unfold segmentsFrom
    split
    next hlt =>
      obtain ⟨h1, h2⟩ := segment_end g hlt
      generalize hq : min (p - p % C.bs + C.bs) e = q at h1 h2
      obtain ⟨slot, c1, m1, e1, k1, r1⟩ := access_fits g hn K ok p (K.fits_mono (block_le_blockEnd g hn hlt) hf)
      obtain ⟨a1, v1⟩ := k1.agree ha
      have htake : (bytes.take (q - p)).length = q - p := by simp; omega
      obtain ⟨ok2, a2, v2⟩ := written_segment (view := view) g k1.ok a1 r1.holds (bytes := bytes.take (q - p)) (by omega)
      obtain ⟨c3, m3, e3, ok3, a3, v3⟩ := ih q e (bytes.drop (q - p)) ok2 a2 (by omega) (by simp; omega) hf
      refine ⟨c3, m3, ?_, ok3, a3, ?_⟩
      · simpa only [writeSegments, e1, hq] using e3
      · rw [v3, v2, v1]
        have := overlay_append (viewThrough C c (view m)) p (bytes.take (q - p)) (bytes.drop (q - p))
        rwa [htake, show p + (q - p) = q by omega, List.take_append_drop] at this
    next hlt =>
      have : bytes = [] := List.length_eq_zero_iff.1 (by omega)
      subst this
      exact ⟨c, m, rfl, ok, ha, (overlay_nil ..).symm⟩

/-- An aligned word is one segment (R65, R78). -/
theorem segments_word (g : GeometryOk C) {a : Nat} (h : a % 4 = 0) : segments C a 4 = [(a, 4)] := by
  have h1 := word_in_block g h
  have h2 := Nat.mod_le a C.bs
  have : min (a - a % C.bs + C.bs) (a + 4) = a + 4 := by omega
  simp [segments, segmentsFrom, this]

theorem block_of_word (g : GeometryOk C) (hn : lineCount C ≠ 0) {a : Nat} (h : a % 4 = 0) :
    a - a % C.bs + C.bs = blockEnd C (a + 4) :=
  (blockEnd_eq g hn (by omega) (by have := word_in_block g h; have := Nat.mod_le a C.bs; omega)).symm

/-! ### A cache keeps the contract -/

/-- The invariant of a cache whose clean lines agree with the level below. -/
structure LevelGood (C : CacheConfig) (Good : σ → Prop) (view : σ → Nat → Byte) (Fits : Nat → Prop) (cs : Cache × σ) :
    Prop where
  ok    : LevelOk C Good Fits cs.1 cs.2
  agree : CleanAgree C cs.1 (view cs.2)

/-- The view of a cache and of the level below it. -/
def levelView (C : CacheConfig) (view : σ → Nat → Byte) (cs : Cache × σ) : Nat → Byte := viewThrough C cs.1 (view cs.2)

/-- A zero-line cache is what lies below it (R82). -/
theorem level_of_zero (hn : lineCount C = 0) {c : Cache} {m m' : σ} (ok : LevelOk C Good Fits c m) (hm : Good m') :
    LevelGood C Good view Fits ({ c with misses := c.misses + 1 }, m') ∧
      ∀ v, viewThrough C { c with misses := c.misses + 1 } v = v :=
  ⟨⟨⟨ok.shape.congr rfl, fun i hi => by omega, hm⟩, fun i hi => by omega⟩,
    fun v => viewThrough_of_zero (ok.shape.congr rfl) hn v⟩

/-- A cache over a level that keeps the contract keeps it (R80 to R85), whatever its geometry and policy. -/
theorem contract_cacheStore (g : GeometryOk C) (K : Contract low Good view Fits) :
    Contract (cacheStore C low) (LevelGood C Good view Fits) (levelView C view) (fun e => Fits (blockEnd C e)) where
  fits_mono h hf := K.fits_mono (blockEnd_mono C h) hf
  fits_bound {e} hf := Nat.le_trans (le_blockEnd g e) (K.fits_bound hf)
  read_fits := by
    rintro ⟨c, m⟩ a k ⟨ok, ha⟩ hf
    by_cases hn : lineCount C = 0
    · obtain ⟨m', e, g', v'⟩ := K.read_fits a k ok.low (by simpa [blockEnd, hn] using hf)
      refine ⟨({ c with misses := c.misses + 1 }, m'), ?_, (level_of_zero hn ok g').1, ?_⟩
      · simp [cacheStore, cacheRead, hn, zeroLineRead, e, levelView, viewThrough_of_zero ok.shape hn]
      · exact ((level_of_zero (view := view) hn ok g').2 _).trans (by rw [v', levelView, viewThrough_of_zero ok.shape hn])
    · obtain ⟨c', m', e, k'⟩ := readSegments_fits g hn K k a (a + k) ok ha (by omega) hf
      obtain ⟨a', v'⟩ := k'.agree ha
      refine ⟨(c', m'), ?_, ⟨k'.ok, a'⟩, v'⟩
      simpa [cacheStore, cacheRead, hn, segments, levelView] using e
  read_short := by
    rintro ⟨c, m⟩ a k ⟨ok, ha⟩ hk hf
    by_cases hn : lineCount C = 0
    · obtain ⟨x, j, m', e, g', v'⟩ := K.read_short a k ok.low hk (by simpa [blockEnd, hn] using hf)
      refine ⟨x, j, ({ c with misses := c.misses + 1 }, m'), ?_, (level_of_zero hn ok g').1, ?_⟩
      · simp [cacheStore, cacheRead, hn, zeroLineRead, e]
      · exact ((level_of_zero (view := view) hn ok g').2 _).trans (by rw [v', levelView, viewThrough_of_zero ok.shape hn])
    · obtain ⟨x, j, c', m', e, k'⟩ := readSegments_short g hn K k a (a + k) ok ha (by omega) (by omega) hf
      obtain ⟨a', v'⟩ := k'.agree ha
      exact ⟨x, j, (c', m'), by simpa [cacheStore, cacheRead, hn, segments] using e, ⟨k'.ok, a'⟩, v'⟩
  write_fits := by
    rintro ⟨c, m⟩ a b ⟨ok, ha⟩ hf
    by_cases hn : lineCount C = 0
    · obtain ⟨m', e, g', v'⟩ := K.write_fits a b ok.low (by simpa [blockEnd, hn] using hf)
      refine ⟨({ c with misses := c.misses + 1 }, m'), ?_, (level_of_zero hn ok g').1, ?_⟩
      · simp [cacheStore, cacheWrite, hn, zeroLineWrite, e]
      · exact ((level_of_zero (view := view) hn ok g').2 _).trans (by rw [v', levelView, viewThrough_of_zero ok.shape hn])
    · obtain ⟨c', m', e, ok', a', v'⟩ := writeSegments_fits g hn K b.length a (a + b.length) b ok ha (by omega) (by omega) hf
      exact ⟨(c', m'), by simpa [cacheStore, cacheWrite, hn, segments] using e, ⟨ok', a'⟩, v'⟩
  write_short := by
    rintro ⟨c, m⟩ a b ⟨ok, ha⟩ h4 hb hf
    by_cases hn : lineCount C = 0
    · obtain ⟨x, j, m', e, g', v'⟩ := K.write_short a b ok.low h4 hb (by simpa [blockEnd, hn] using hf)
      refine ⟨x, j, ({ c with misses := c.misses + 1 }, m'), ?_, (level_of_zero hn ok g').1, ?_⟩
      · simp [cacheStore, cacheWrite, hn, zeroLineWrite, e]
      · exact ((level_of_zero (view := view) hn ok g').2 _).trans (by rw [v', levelView, viewThrough_of_zero ok.shape hn])
    · obtain ⟨x, j, c', m', e, k'⟩ := access_short g hn K ok a (by rwa [block_of_word g hn h4])
      obtain ⟨a', v'⟩ := k'.agree ha
      refine ⟨x, j, (c', m'), ?_, ⟨k'.ok, a'⟩, v'⟩
      simp [cacheStore, cacheWrite, hn, hb, segments_word g h4, writeSegments, e]

/-- A word read whose block the level below can serve answers with what the view shows, whether clean lines agree with
that level or not (R92, R93, R95). -/
theorem cacheRead_word_fits (g : GeometryOk C) (K : Contract low Good view Fits) {c : Cache} {m : σ}
    (ok : LevelOk C Good Fits c m) {a : Nat} (h4 : a % 4 = 0) (hf : Fits (blockEnd C (a + 4))) :
    ∃ c' m', cacheRead C low a 4 (c, m) = .ok (bytesFrom (viewThrough C c (view m)) a 4) (c', m') ∧
      Keeps C Good view Fits c m c' m' := by
  by_cases hn : lineCount C = 0
  · obtain ⟨m', e, g', v'⟩ := K.read_fits a 4 ok.low (by simpa [blockEnd, hn] using hf)
    refine ⟨{ c with misses := c.misses + 1 }, m', ?_, ?_⟩
    · simp [cacheRead, hn, zeroLineRead, e, viewThrough_of_zero ok.shape hn]
    · obtain ⟨l1, l2⟩ := level_of_zero (view := view) hn ok g'
      exact ⟨l1.ok, fun _ => ⟨l1.agree, by rw [l2, viewThrough_of_zero ok.shape hn, v']⟩,
        fun _ => ⟨fun i hi => by omega, v', rfl⟩⟩
  · obtain ⟨slot, c', m', e, k', r'⟩ := access_fits g hn K ok a (by rwa [block_of_word g hn h4])
    refine ⟨c', m', ?_, k'⟩
    simp only [cacheRead, hn, if_false, segments_word g h4, readSegments, e,
      segment_bytes g (k'.ok.shape.size slot r'.holds.lt) r'.bytes (word_in_block g h4), List.append_nil]

/-- A word read whose block the level below cannot serve raises `OutOfBounds` (R205). -/
theorem cacheRead_word_short (g : GeometryOk C) (K : Contract low Good view Fits) {c : Cache} {m : σ}
    (ok : LevelOk C Good Fits c m) {a : Nat} (h4 : a % 4 = 0) (hf : ¬ Fits (blockEnd C (a + 4))) :
    ∃ x j c' m', cacheRead C low a 4 (c, m) = .outOfBounds x j (c', m') ∧ Keeps C Good view Fits c m c' m' := by
  by_cases hn : lineCount C = 0
  · obtain ⟨x, j, m', e, g', v'⟩ := K.read_short a 4 ok.low (by omega) (by simpa [blockEnd, hn] using hf)
    refine ⟨x, j, { c with misses := c.misses + 1 }, m', ?_, ?_⟩
    · simp [cacheRead, hn, zeroLineRead, e]
    · obtain ⟨l1, l2⟩ := level_of_zero (view := view) hn ok g'
      exact ⟨l1.ok, fun _ => ⟨l1.agree, by rw [l2, viewThrough_of_zero ok.shape hn, v']⟩,
        fun _ => ⟨fun i hi => by omega, v', rfl⟩⟩
  · obtain ⟨x, j, c', m', e, k'⟩ := access_short g hn K ok a (by rwa [block_of_word g hn h4])
    exact ⟨x, j, c', m', by simp [cacheRead, hn, segments_word g h4, readSegments, e], k'⟩

end Sys2Proof.Machine
end

