-- ==== Sys2Proof/Laws/State.lean ====
section
/-! SUPPORT. One lemma for each field of State under each update, so that no later proof unfolds a record update, and the
register read after a register write (10_state.md R20 to R26). -/

namespace Sys2Proof.Machine

variable (s : State)

/-! ### A register write -/

@[simp] theorem setReg_cfg (r : Reg) (v : Word) : (s.setReg r v).cfg = s.cfg := rfl
@[simp] theorem setReg_regs (r : Reg) (v : Word) : (s.setReg r v).regs = s.regs.set r v := rfl
@[simp] theorem setReg_n (r : Reg) (v : Word) : (s.setReg r v).n = s.n := rfl
@[simp] theorem setReg_z (r : Reg) (v : Word) : (s.setReg r v).z = s.z := rfl
@[simp] theorem setReg_c (r : Reg) (v : Word) : (s.setReg r v).c = s.c := rfl
@[simp] theorem setReg_v (r : Reg) (v : Word) : (s.setReg r v).v = s.v := rfl
@[simp] theorem setReg_thumbMode (r : Reg) (v : Word) : (s.setReg r v).thumbMode = s.thumbMode := rfl
@[simp] theorem setReg_l1i (r : Reg) (v : Word) : (s.setReg r v).l1i = s.l1i := rfl
@[simp] theorem setReg_l1d (r : Reg) (v : Word) : (s.setReg r v).l1d = s.l1d := rfl
@[simp] theorem setReg_l2 (r : Reg) (v : Word) : (s.setReg r v).l2 = s.l2 := rfl
@[simp] theorem setReg_mem (r : Reg) (v : Word) : (s.setReg r v).mem = s.mem := rfl
@[simp] theorem setReg_surfaced (r : Reg) (v : Word) : (s.setReg r v).surfaced = s.surfaced := rfl

/-- A register reads back what was written to it, every other one as before (R22, R23). -/
theorem reg_setReg (r q : Reg) (v : Word) : (s.setReg r v).reg q = if r = q then v else s.reg q := by
  simp only [State.reg, State.setReg]
  by_cases h : r = q
  · subst h
    simp
  · have : r.val ≠ q.val := fun e => h (Fin.ext e)
    simp [h, Vector.getElem_set_ne, this]

@[simp] theorem reg_setReg_self (r : Reg) (v : Word) : (s.setReg r v).reg r = v := by simp [reg_setReg]

theorem reg_setReg_ne {r q : Reg} (h : r ≠ q) (v : Word) : (s.setReg r v).reg q = s.reg q := by simp [reg_setReg, h]

theorem pc_eq : s.pc = s.reg 15 := rfl

theorem setPc_eq (t : Word) : s.setPc t = s.setReg 15 t := rfl

/-! ### A write of the PC -/

@[simp] theorem setPc_cfg (t : Word) : (s.setPc t).cfg = s.cfg := rfl
@[simp] theorem setPc_regs (t : Word) : (s.setPc t).regs = s.regs.set 15 t := rfl
@[simp] theorem setPc_n (t : Word) : (s.setPc t).n = s.n := rfl
@[simp] theorem setPc_z (t : Word) : (s.setPc t).z = s.z := rfl
@[simp] theorem setPc_c (t : Word) : (s.setPc t).c = s.c := rfl
@[simp] theorem setPc_v (t : Word) : (s.setPc t).v = s.v := rfl
@[simp] theorem setPc_thumbMode (t : Word) : (s.setPc t).thumbMode = s.thumbMode := rfl
@[simp] theorem setPc_l1i (t : Word) : (s.setPc t).l1i = s.l1i := rfl
@[simp] theorem setPc_l1d (t : Word) : (s.setPc t).l1d = s.l1d := rfl
@[simp] theorem setPc_l2 (t : Word) : (s.setPc t).l2 = s.l2 := rfl
@[simp] theorem setPc_mem (t : Word) : (s.setPc t).mem = s.mem := rfl
@[simp] theorem setPc_surfaced (t : Word) : (s.setPc t).surfaced = s.surfaced := rfl

@[simp] theorem pc_setPc (t : Word) : (s.setPc t).pc = t := reg_setReg_self s 15 t

theorem reg_setPc (q : Reg) (t : Word) : (s.setPc t).reg q = if q = 15 then t else s.reg q := by
  rw [setPc_eq, reg_setReg]
  by_cases h : q = 15
  · subst h; rfl
  · rw [if_neg (fun e => h e.symm), if_neg h]

/-! ### The flags -/

@[simp] theorem setNZ_cfg (res : Word) : (s.setNZ res).cfg = s.cfg := rfl
@[simp] theorem setNZ_regs (res : Word) : (s.setNZ res).regs = s.regs := rfl
@[simp] theorem setNZ_n (res : Word) : (s.setNZ res).n = flagN res := rfl
@[simp] theorem setNZ_z (res : Word) : (s.setNZ res).z = flagZ res := rfl
@[simp] theorem setNZ_c (res : Word) : (s.setNZ res).c = s.c := rfl
@[simp] theorem setNZ_v (res : Word) : (s.setNZ res).v = s.v := rfl
@[simp] theorem setNZ_thumbMode (res : Word) : (s.setNZ res).thumbMode = s.thumbMode := rfl
@[simp] theorem setNZ_l1i (res : Word) : (s.setNZ res).l1i = s.l1i := rfl
@[simp] theorem setNZ_l1d (res : Word) : (s.setNZ res).l1d = s.l1d := rfl
@[simp] theorem setNZ_l2 (res : Word) : (s.setNZ res).l2 = s.l2 := rfl
@[simp] theorem setNZ_mem (res : Word) : (s.setNZ res).mem = s.mem := rfl
@[simp] theorem setNZ_surfaced (res : Word) : (s.setNZ res).surfaced = s.surfaced := rfl

@[simp] theorem setNZ_reg (res : Word) (q : Reg) : (s.setNZ res).reg q = s.reg q := rfl
@[simp] theorem setNZ_pc (res : Word) : (s.setNZ res).pc = s.pc := rfl

/-! ### The data side -/

@[simp] theorem withDataSide_cfg (h : Cache × Cache × Memory) : (s.withDataSide h).cfg = s.cfg := rfl
@[simp] theorem withDataSide_regs (h : Cache × Cache × Memory) : (s.withDataSide h).regs = s.regs := rfl
@[simp] theorem withDataSide_n (h : Cache × Cache × Memory) : (s.withDataSide h).n = s.n := rfl
@[simp] theorem withDataSide_z (h : Cache × Cache × Memory) : (s.withDataSide h).z = s.z := rfl
@[simp] theorem withDataSide_c (h : Cache × Cache × Memory) : (s.withDataSide h).c = s.c := rfl
@[simp] theorem withDataSide_v (h : Cache × Cache × Memory) : (s.withDataSide h).v = s.v := rfl
@[simp] theorem withDataSide_thumbMode (h : Cache × Cache × Memory) : (s.withDataSide h).thumbMode = s.thumbMode := rfl
@[simp] theorem withDataSide_l1i (h : Cache × Cache × Memory) : (s.withDataSide h).l1i = s.l1i := rfl
@[simp] theorem withDataSide_l1d (h : Cache × Cache × Memory) : (s.withDataSide h).l1d = h.1 := rfl
@[simp] theorem withDataSide_l2 (h : Cache × Cache × Memory) : (s.withDataSide h).l2 = h.2.1 := rfl
@[simp] theorem withDataSide_mem (h : Cache × Cache × Memory) : (s.withDataSide h).mem = h.2.2 := rfl
@[simp] theorem withDataSide_surfaced (h : Cache × Cache × Memory) : (s.withDataSide h).surfaced = s.surfaced := rfl

@[simp] theorem withDataSide_reg (h : Cache × Cache × Memory) (q : Reg) : (s.withDataSide h).reg q = s.reg q := rfl
@[simp] theorem withDataSide_pc (h : Cache × Cache × Memory) : (s.withDataSide h).pc = s.pc := rfl

/-! ### The instruction side -/

@[simp] theorem withInstrSide_cfg (h : Cache × Cache × Memory) : (s.withInstrSide h).cfg = s.cfg := rfl
@[simp] theorem withInstrSide_regs (h : Cache × Cache × Memory) : (s.withInstrSide h).regs = s.regs := rfl
@[simp] theorem withInstrSide_n (h : Cache × Cache × Memory) : (s.withInstrSide h).n = s.n := rfl
@[simp] theorem withInstrSide_z (h : Cache × Cache × Memory) : (s.withInstrSide h).z = s.z := rfl
@[simp] theorem withInstrSide_c (h : Cache × Cache × Memory) : (s.withInstrSide h).c = s.c := rfl
@[simp] theorem withInstrSide_v (h : Cache × Cache × Memory) : (s.withInstrSide h).v = s.v := rfl
@[simp] theorem withInstrSide_thumbMode (h : Cache × Cache × Memory) : (s.withInstrSide h).thumbMode = s.thumbMode := rfl
@[simp] theorem withInstrSide_l1i (h : Cache × Cache × Memory) : (s.withInstrSide h).l1i = h.1 := rfl
@[simp] theorem withInstrSide_l1d (h : Cache × Cache × Memory) : (s.withInstrSide h).l1d = s.l1d := rfl
@[simp] theorem withInstrSide_l2 (h : Cache × Cache × Memory) : (s.withInstrSide h).l2 = h.2.1 := rfl
@[simp] theorem withInstrSide_mem (h : Cache × Cache × Memory) : (s.withInstrSide h).mem = h.2.2 := rfl
@[simp] theorem withInstrSide_surfaced (h : Cache × Cache × Memory) : (s.withInstrSide h).surfaced = s.surfaced := rfl

@[simp] theorem withInstrSide_reg (h : Cache × Cache × Memory) (q : Reg) : (s.withInstrSide h).reg q = s.reg q := rfl
@[simp] theorem withInstrSide_pc (h : Cache × Cache × Memory) : (s.withInstrSide h).pc = s.pc := rfl

/-! ### The PC advance -/

@[simp] theorem advancePc_cfg (thumb : Bool) (pc0 : Word) : (advancePc thumb pc0 s).cfg = s.cfg := by
  unfold advancePc
  split <;> rfl
@[simp] theorem advancePc_n (thumb : Bool) (pc0 : Word) : (advancePc thumb pc0 s).n = s.n := by
  unfold advancePc
  split <;> rfl
@[simp] theorem advancePc_z (thumb : Bool) (pc0 : Word) : (advancePc thumb pc0 s).z = s.z := by
  unfold advancePc
  split <;> rfl
@[simp] theorem advancePc_c (thumb : Bool) (pc0 : Word) : (advancePc thumb pc0 s).c = s.c := by
  unfold advancePc
  split <;> rfl
@[simp] theorem advancePc_v (thumb : Bool) (pc0 : Word) : (advancePc thumb pc0 s).v = s.v := by
  unfold advancePc
  split <;> rfl
@[simp] theorem advancePc_thumbMode (thumb : Bool) (pc0 : Word) : (advancePc thumb pc0 s).thumbMode = s.thumbMode := by
  unfold advancePc
  split <;> rfl
@[simp] theorem advancePc_l1i (thumb : Bool) (pc0 : Word) : (advancePc thumb pc0 s).l1i = s.l1i := by
  unfold advancePc
  split <;> rfl
@[simp] theorem advancePc_l1d (thumb : Bool) (pc0 : Word) : (advancePc thumb pc0 s).l1d = s.l1d := by
  unfold advancePc
  split <;> rfl
@[simp] theorem advancePc_l2 (thumb : Bool) (pc0 : Word) : (advancePc thumb pc0 s).l2 = s.l2 := by
  unfold advancePc
  split <;> rfl
@[simp] theorem advancePc_mem (thumb : Bool) (pc0 : Word) : (advancePc thumb pc0 s).mem = s.mem := by
  unfold advancePc
  split <;> rfl
@[simp] theorem advancePc_surfaced (thumb : Bool) (pc0 : Word) : (advancePc thumb pc0 s).surfaced = s.surfaced := by
  unfold advancePc
  split <;> rfl

/-- Every register but the PC is as the handler left it (R52). -/
theorem advancePc_reg (thumb : Bool) (pc0 : Word) {q : Reg} (h : q ≠ 15) : (advancePc thumb pc0 s).reg q = s.reg q := by
  unfold advancePc
  split
  · rw [reg_setPc, if_neg h]
  · rfl

/-- The PC after the envelope (R52, R53). -/
theorem advancePc_pc (thumb : Bool) (pc0 : Word) :
    (advancePc thumb pc0 s).pc = if s.pc = pc0 then pc0 + (if thumb then 2 else 4) else s.pc := by
  unfold advancePc
  split
  · exact pc_setPc ..
  · rfl

/-! ### The envelope -/

variable (thumb : Bool) (target : Option Word) (before after : State)

@[simp] theorem finish_cfg : (finish thumb target before after).cfg = after.cfg := advancePc_cfg ..
@[simp] theorem finish_n : (finish thumb target before after).n = after.n := advancePc_n ..
@[simp] theorem finish_z : (finish thumb target before after).z = after.z := advancePc_z ..
@[simp] theorem finish_c : (finish thumb target before after).c = after.c := advancePc_c ..
@[simp] theorem finish_v : (finish thumb target before after).v = after.v := advancePc_v ..
@[simp] theorem finish_thumbMode : (finish thumb target before after).thumbMode = after.thumbMode := advancePc_thumbMode ..
@[simp] theorem finish_l1i : (finish thumb target before after).l1i = after.l1i := advancePc_l1i ..
@[simp] theorem finish_l1d : (finish thumb target before after).l1d = after.l1d := advancePc_l1d ..
@[simp] theorem finish_l2 : (finish thumb target before after).l2 = after.l2 := advancePc_l2 ..
@[simp] theorem finish_mem : (finish thumb target before after).mem = after.mem := advancePc_mem ..

theorem finish_reg {q : Reg} (h : q ≠ 15) : (finish thumb target before after).reg q = after.reg q :=
  advancePc_reg _ thumb before.pc h

theorem finish_pc : (finish thumb target before after).pc
    = if after.pc = before.pc then before.pc + (if thumb then 2 else 4) else after.pc :=
  advancePc_pc _ thumb before.pc

theorem finish_surfaced : (finish thumb target before after).surfaced
    = .changed (changeReport target before (advancePc thumb before.pc after)) := rfl

/-! ### The views depend on the configuration and the hierarchy alone -/

theorem l2Byte_congr {s t : State} (hc : t.cfg = s.cfg) (h2 : t.l2 = s.l2) (hm : t.mem = s.mem) : t.l2Byte = s.l2Byte := by
  funext a
  simp only [State.l2Byte, hc, h2, hm]

/-- States with the same configuration and hierarchy show the same bytes. -/
theorem dataByte_congr {s t : State} (hc : t.cfg = s.cfg) (h1 : t.l1d = s.l1d) (h2 : t.l2 = s.l2) (hm : t.mem = s.mem) :
    t.dataByte = s.dataByte := by
  funext a
  simp only [State.dataByte, l2Byte_congr hc h2 hm, hc, h1]

theorem instrByte_congr {s t : State} (hc : t.cfg = s.cfg) (h1 : t.l1i = s.l1i) (h2 : t.l2 = s.l2) (hm : t.mem = s.mem) :
    t.instrByte = s.instrByte := by
  funext a
  simp only [State.instrByte, l2Byte_congr hc h2 hm, hc, h1]

@[simp] theorem finish_dataByte : (finish thumb target before after).dataByte = after.dataByte :=
  dataByte_congr (by simp) (by simp) (by simp) (by simp)

@[simp] theorem setReg_dataByte (r : Reg) (v : Word) : (s.setReg r v).dataByte = s.dataByte := rfl
@[simp] theorem setPc_dataByte (t : Word) : (s.setPc t).dataByte = s.dataByte := rfl
@[simp] theorem setNZ_dataByte (res : Word) : (s.setNZ res).dataByte = s.dataByte := rfl

end Sys2Proof.Machine
end

