-- ==== Sys2Proof/Laws/Hierarchy.lean ====
section
/-! SUPPORT. What the hierarchy's three operations do to a state that meets the invariant (20_memory.md R92 to R95,
60_exceptions.md R205, R210): each is one instance of the contract of Laws/CacheAccess.lean. -/

namespace Sys2Proof.Machine

variable {s : State}

/-! ### The levels of a state -/

/-- The invariant of L2 over main memory. -/
abbrev L2Good (cfg : Config) : Cache × Memory → Prop :=
  LevelGood cfg.l2 (MemoryOk cfg.memSize) Memory.readByte (fun e => e ≤ cfg.memSize)

/-- The view of L2 over main memory. -/
abbrev l2View (cfg : Config) : Cache × Memory → Nat → Byte := levelView cfg.l2 Memory.readByte

theorem contract_l2Store {cfg : Config} (h : ConfigOk cfg) :
    Contract (l2Store cfg) (L2Good cfg) (l2View cfg) (L2Fits cfg) :=
  contract_cacheStore (geometryOk_of_check h.l2) (contract_mainStore h.memMax)

theorem contract_l1dStore {cfg : Config} (h : ConfigOk cfg) :
    Contract (l1dStore cfg) (LevelGood cfg.l1d (L2Good cfg) (l2View cfg) (L2Fits cfg))
      (levelView cfg.l1d (l2View cfg)) (fun e => L2Fits cfg (blockEnd cfg.l1d e)) :=
  contract_cacheStore (geometryOk_of_check h.l1d) (contract_l2Store h)

theorem State.Inv.l2Good (h : s.Inv) : L2Good s.cfg (s.l2, s.mem) :=
  ⟨⟨h.l2Shape, h.l2Fits, h.memory⟩, h.l2Agree⟩

theorem State.Inv.l1dGood (h : s.Inv) : LevelGood s.cfg.l1d (L2Good s.cfg) (l2View s.cfg) (L2Fits s.cfg) s.dataSide :=
  ⟨⟨h.l1dShape, h.l1dFits, h.l2Good⟩, h.l1dAgree⟩

theorem State.Inv.l1iOk (h : s.Inv) : LevelOk s.cfg.l1i (L2Good s.cfg) (L2Fits s.cfg) s.l1i (s.l2, s.mem) :=
  ⟨h.l1iShape, h.l1iFits, h.l2Good⟩

/-- The invariant depends on the configuration and the hierarchy alone. -/
theorem State.Inv.congr {t : State} (h : s.Inv) (hc : t.cfg = s.cfg) (hi : t.l1i = s.l1i) (hd : t.l1d = s.l1d)
    (h2 : t.l2 = s.l2) (hm : t.mem = s.mem) : t.Inv := by
  have e := l2Byte_congr hc h2 hm
  constructor
  all_goals simp only [hc, hi, hd, h2, hm, e]
  · exact h.config
  · exact h.memory
  · exact h.l2Shape
  · exact h.l2Fits
  · exact h.l2Agree
  · exact h.l1dShape
  · exact h.l1dFits
  · exact h.l1dAgree
  · exact h.l1iShape
  · exact h.l1iFits
  · exact h.l1iClean
  · exact h.l1iWrites

/-- The state with a data side that keeps its invariant. -/
theorem inv_withDataSide (hs : s.Inv) {h : Cache × Cache × Memory}
    (g : LevelGood s.cfg.l1d (L2Good s.cfg) (l2View s.cfg) (L2Fits s.cfg) h) : (s.withDataSide h).Inv where
  config := hs.config
  memory := g.ok.low.ok.low
  l2Shape := g.ok.low.ok.shape
  l2Fits := g.ok.low.ok.fit
  l2Agree := g.ok.low.agree
  l1dShape := g.ok.shape
  l1dFits := g.ok.fit
  l1dAgree := g.agree
  l1iShape := hs.l1iShape
  l1iFits := hs.l1iFits
  l1iClean := hs.l1iClean
  l1iWrites := hs.l1iWrites

/-- The state with an instruction side that keeps its invariant and L2's view. -/
theorem inv_withInstrSide (hs : s.Inv) {h : Cache × Cache × Memory}
    (k : Keeps s.cfg.l1i (L2Good s.cfg) (l2View s.cfg) (L2Fits s.cfg) s.l1i (s.l2, s.mem) h.1 h.2) :
    (s.withInstrSide h).Inv ∧ (s.withInstrSide h).l2Byte = s.l2Byte := by
  obtain ⟨c, v, w⟩ := k.clean hs.l1iClean
  refine ⟨⟨hs.config, k.ok.low.ok.low, k.ok.low.ok.shape, k.ok.low.ok.fit, k.ok.low.agree, hs.l1dShape, hs.l1dFits, ?_,
    k.ok.shape, k.ok.fit, c, w.trans hs.l1iWrites⟩, v⟩
  show CleanAgree s.cfg.l1d s.l1d (l2View s.cfg h.2)
  rw [v]
  exact hs.l1dAgree

theorem wordOfBytes_bytesFrom (v : Nat → Byte) (a : Nat) :
    wordOfBytes (bytesFrom v a 4) = le32 (v a) (v (a + 1)) (v (a + 2)) (v (a + 3)) := rfl

theorem mod_of_wordAligned {a : Word} (h : wordAligned a = true) : a.toNat % 4 = 0 := by
  simpa [wordAligned] using h

/-! ### The three operations -/

/-- A fetch within bounds gives the instruction view's word, and changes L1I, L2 and main memory only, with L2's view
kept (R92, R95). -/
theorem fetchInstruction_fits (hs : s.Inv) {a : Word} (ha : wordAligned a = true) (hf : FetchFits s.cfg a.toNat) :
    ∃ h, fetchInstruction a s = .ok (s.instrWord a.toNat, s.withInstrSide h) ∧ (s.withInstrSide h).Inv ∧
      (s.withInstrSide h).l2Byte = s.l2Byte := by
  obtain ⟨c', m', e, k⟩ := cacheRead_word_fits (geometryOk_of_check hs.config.l1i) (contract_l2Store hs.config) hs.l1iOk
    (mod_of_wordAligned ha) hf
  refine ⟨(c', m'), ?_, inv_withInstrSide hs k⟩
  simp only [fetchInstruction, ha, if_true, l1iStore, cacheStore, State.instrSide, e, wordOfBytes_bytesFrom]
  rfl

/-- A fetch beyond bounds raises `OutOfBounds` (R205). -/
theorem fetchInstruction_short (hs : s.Inv) {a : Word} (ha : wordAligned a = true) (hf : ¬ FetchFits s.cfg a.toNat) :
    ∃ x j h, fetchInstruction a s = .error (.outOfBounds x j (s.withInstrSide h)) ∧ (s.withInstrSide h).Inv ∧
      (s.withInstrSide h).l2Byte = s.l2Byte := by
  obtain ⟨x, j, c', m', e, k⟩ := cacheRead_word_short (geometryOk_of_check hs.config.l1i) (contract_l2Store hs.config)
    hs.l1iOk (mod_of_wordAligned ha) hf
  refine ⟨x, j, (c', m'), ?_, inv_withInstrSide hs k⟩
  simp only [fetchInstruction, ha, if_true, l1iStore, cacheStore, State.instrSide, e]

/-- A data read within bounds gives the data view's word and changes no byte of that view (R93, R95, R101). -/
theorem readData_fits (hs : s.Inv) {a : Word} (ha : wordAligned a = true) (hf : DataFits s.cfg a.toNat) :
    ∃ h, readData a s = .ok (s.dataWord a.toNat, s.withDataSide h) ∧ (s.withDataSide h).Inv ∧
      (s.withDataSide h).dataByte = s.dataByte := by
  obtain ⟨h, e, g, v⟩ := (contract_l1dStore hs.config).read_fits a.toNat 4 hs.l1dGood hf
  refine ⟨h, ?_, inv_withDataSide hs g, v⟩
  simp only [readData, ha, if_true, e, wordOfBytes_bytesFrom]
  rfl

/-- A data read beyond bounds raises `OutOfBounds` and changes no byte of the data view (R205, R210). -/
theorem readData_short (hs : s.Inv) {a : Word} (ha : wordAligned a = true) (hf : ¬ DataFits s.cfg a.toNat) :
    ∃ x j h, readData a s = .error (.outOfBounds x j (s.withDataSide h)) ∧ (s.withDataSide h).Inv ∧
      (s.withDataSide h).dataByte = s.dataByte := by
  obtain ⟨x, j, h, e, g, v⟩ := (contract_l1dStore hs.config).read_short a.toNat 4 hs.l1dGood (by omega) hf
  refine ⟨x, j, h, ?_, inv_withDataSide hs g, v⟩
  simp only [readData, ha, if_true, e]

/-- A data write within bounds lays the word's bytes over the data view (R79, R94). -/
theorem writeData_fits (hs : s.Inv) {a : Word} (v : Word) (ha : wordAligned a = true) (hf : DataFits s.cfg a.toNat) :
    ∃ h, writeData a v s = .ok (s.withDataSide h) ∧ (s.withDataSide h).Inv ∧
      (s.withDataSide h).dataByte = overlay s.dataByte a.toNat (bytesLe32 v) := by
  obtain ⟨h, e, g, w⟩ := (contract_l1dStore hs.config).write_fits a.toNat (bytesLe32 v) hs.l1dGood hf
  refine ⟨h, ?_, inv_withDataSide hs g, w⟩
  simp only [writeData, ha, if_true, e]

/-- A data write beyond bounds raises `OutOfBounds` and changes no byte of the data view (R205, R210). -/
theorem writeData_short (hs : s.Inv) {a : Word} (v : Word) (ha : wordAligned a = true) (hf : ¬ DataFits s.cfg a.toNat) :
    ∃ x j h, writeData a v s = .error (.outOfBounds x j (s.withDataSide h)) ∧ (s.withDataSide h).Inv ∧
      (s.withDataSide h).dataByte = s.dataByte := by
  obtain ⟨x, j, h, e, g, w⟩ := (contract_l1dStore hs.config).write_short a.toNat (bytesLe32 v) hs.l1dGood
    (mod_of_wordAligned ha) rfl hf
  refine ⟨x, j, h, ?_, inv_withDataSide hs g, w⟩
  simp only [writeData, ha, if_true, e]

/-- An access at an address that is not a multiple of 4 raises `AlignmentFault` and touches nothing (R65). -/
theorem access_misaligned {a : Word} (ha : wordAligned a = false) (v : Word) :
    fetchInstruction a s = .error (.alignmentFault a s) ∧ readData a s = .error (.alignmentFault a s) ∧
      writeData a v s = .error (.alignmentFault a s) := by
  simp [fetchInstruction, readData, writeData, ha]

end Sys2Proof.Machine
end

