-- ==== Sys2Proof/Laws/Step.lean ====
section
/-! SUPPORT. The arithmetic of an instruction fetch (10_state.md R51, 20_memory.md R63, R65). -/

namespace Sys2Proof.Machine

theorem wordAligned_iff {a : Word} : wordAligned a = true ↔ a.toNat % 4 = 0 := by simp [wordAligned]

theorem wordAligned_eq_false_iff {a : Word} : wordAligned a = false ↔ a.toNat % 4 ≠ 0 := by
  simp [wordAligned]

/-- `pc[0]` is the parity of pc. -/
theorem bit_zero (pc : Word) : bit pc 0 = decide (pc.toNat % 2 ≠ 0) := by
  rcases Nat.mod_two_eq_zero_or_one pc.toNat with h | h <;> simp [bit, BitVec.getLsbD, Nat.testBit, h]

/-- The word a Thumb fetch reads starts at the multiple of 4 at or below pc. -/
theorem thumbFetchAddress_toNat (pc : Word) : (thumbFetchAddress pc).toNat = pc.toNat - pc.toNat % 4 := by
  unfold thumbFetchAddress
  have h : (pc &&& 3).toNat = pc.toNat % 4 := by
    rw [BitVec.toNat_and]
    exact Nat.and_two_pow_sub_one_eq_mod _ 2
  rw [BitVec.toNat_sub_of_le (by rw [BitVec.le_def, h]; exact Nat.mod_le _ _), h]

theorem thumbFetchAddress_aligned (pc : Word) : wordAligned (thumbFetchAddress pc) = true := by
  rw [wordAligned_iff, thumbFetchAddress_toNat]
  omega

/-- The half that `pc[1]` selects is the little-endian halfword at pc (R63). -/
theorem thumbHalf_instrWord (s : State) (h2 : s.pc.toNat % 2 = 0) :
    thumbHalf s.pc (s.instrWord (thumbFetchAddress s.pc).toNat)
      = le16 (s.instrByte s.pc.toNat) (s.instrByte (s.pc.toNat + 1)) := by
  rw [thumbFetchAddress_toNat]
  have h4 : s.pc.toNat % 4 = 0 ∨ s.pc.toNat % 4 = 2 := by omega
  have hb : bit s.pc 1 = decide (s.pc.toNat % 4 = 2) := by
    rcases h4 with h | h <;>
      simp [bit, BitVec.getLsbD, Nat.testBit, Nat.shiftRight_eq_div_pow, h] <;> omega
  rcases h4 with h | h
  · simp only [thumbHalf, hb, h, State.instrWord, Nat.sub_zero]
    exact le32_low ..
  · have e1 : s.pc.toNat - 2 + 2 = s.pc.toNat := by omega
    have e2 : s.pc.toNat - 2 + 3 = s.pc.toNat + 1 := by omega
    simp only [thumbHalf, hb, h, State.instrWord, e1, e2]
    exact le32_high ..

end Sys2Proof.Machine
end

