-- ==== Sys2Proof/Laws/Access.lean ====
section
/-! SUPPORT. Inversion of the hierarchy's operations: what an access that answered says of the cache it went through
(20_memory.md R70, R80, R81, R92 to R94). -/

namespace Sys2Proof.Machine

variable {s t : State} {C : CacheConfig} {σ : Type} {low : Store σ}

theorem lookup_of_no_lines {c : Cache} (h : c.lines = []) (a : Nat) : lookup C c a = none := by
  unfold lookup
  split
  · simp [Cache.line, h, lineMatches, Line.reset]
  · simp [h]

theorem victim_congr {c d : Cache} (h : c.lines = d.lines) (idx : Nat) : victim C c idx = victim C d idx := by
  unfold victim
  simp only [h]

/-- A fetch that answers is an aligned read through L1I. -/
theorem fetchInstruction_ok {a w : Word} (h : fetchInstruction a s = .ok (w, t)) :
    a.toNat % 4 = 0 ∧ ∃ b k, cacheRead s.cfg.l1i (l2Store s.cfg) a.toNat 4 s.instrSide = .ok b k ∧
      t = s.withInstrSide k ∧ w = wordOfBytes b := by
  unfold fetchInstruction at h
  split at h
  · rename_i ha
    refine ⟨wordAligned_iff.1 ha, ?_⟩
    split at h
    · rename_i b k e; cases h; exact ⟨b, k, e, rfl, rfl⟩
    · cases h
  · cases h

/-- A data read that answers is an aligned read through L1D. -/
theorem readData_ok {a w : Word} (h : readData a s = .ok (w, t)) :
    a.toNat % 4 = 0 ∧ ∃ b k, cacheRead s.cfg.l1d (l2Store s.cfg) a.toNat 4 s.dataSide = .ok b k ∧
      t = s.withDataSide k ∧ w = wordOfBytes b := by
  unfold readData at h
  split at h
  · rename_i ha
    refine ⟨wordAligned_iff.1 ha, ?_⟩
    split at h
    · rename_i b k e; cases h; exact ⟨b, k, e, rfl, rfl⟩
    · cases h
  · cases h

/-- A data write that answers is an aligned write through L1D. -/
theorem writeData_ok {a v : Word} (h : writeData a v s = .ok t) :
    a.toNat % 4 = 0 ∧ ∃ k, cacheWrite s.cfg.l1d (l2Store s.cfg) a.toNat (bytesLe32 v) s.dataSide = .ok () k ∧
      t = s.withDataSide k := by
  unfold writeData at h
  split at h
  · rename_i ha
    refine ⟨wordAligned_iff.1 ha, ?_⟩
    split at h
    · rename_i k e; cases h; exact ⟨k, e, rfl⟩
    · cases h
  · cases h

/-- An access that answers leaves the block in the slot it names, with the bytes of the view before it. -/
theorem access_ok {Good : σ → Prop} {view : σ → Nat → Byte} {Fits : Nat → Prop} (g : GeometryOk C)
    (hn : lineCount C ≠ 0) (K : Contract low Good view Fits) {c c' : Cache} {m m' : σ} (ok : LevelOk C Good Fits c m)
    {a slot : Nat} (h : access C low a (c, m) = .ok slot (c', m')) :
    Holds C c' slot a ∧ LevelOk C Good Fits c' m' ∧
      (∀ x, x / C.bs = a / C.bs → (c'.line slot).data.getD (x % C.bs) 0 = viewThrough C c (view m) x) := by
  by_cases hf : Fits (a - a % C.bs + C.bs)
  · obtain ⟨slot', d, n, e, k, r⟩ := access_fits g hn K ok a hf
    rw [h] at e
    cases e
    exact ⟨r.holds, k.ok, r.bytes⟩
  · obtain ⟨x, j, d, n, e, k⟩ := access_short g hn K ok a hf
    rw [h] at e
    cases e

/-- Everything an access that answers can have done (R70, R72, R73, R75). -/
theorem access_cases {c c' : Cache} {m m' : σ} {a slot : Nat} (h : access C low a (c, m) = .ok slot (c', m')) :
    (lookup C c a = some slot ∧ m' = m ∧
      c' = { c with lines := touch C slot c.lines, hits := c.hits + 1 }) ∨
    (lookup C c a = none ∧ slot = victim C c (indexOf C a) ∧ ∃ m1 bytes,
      (if (c.line slot).valid = true ∧ (c.line slot).dirty = true then
          low.write (lineAddr C slot (c.line slot).tag) (c.line slot).data m = .ok () m1
        else m1 = m) ∧
      low.read (a - offsetOf C a) C.bs m1 = .ok bytes m' ∧
      c' = { lines := touch C slot (c.lines.set slot (filledLine C a bytes (c.line slot))), hits := c.hits,
             misses := c.misses + 1,
             writeBacks := c.writeBacks +
               if (c.line slot).valid = true ∧ (c.line slot).dirty = true then 1 else 0 }) := by
  cases hl : lookup C c a with
  | some hit => rw [access_hit hl] at h; cases h; exact .inl ⟨rfl, rfl, rfl⟩
  | none =>
    right
    have hv : victim C { c with misses := c.misses + 1 } (indexOf C a) = victim C c (indexOf C a) := victim_congr rfl _
    have hline : ∀ i, Cache.line { c with misses := c.misses + 1 } i = c.line i := Cache.line_congr rfl
    simp only [access, hl, miss, hv, writeBack, hline, Bool.and_eq_true] at h
    by_cases hd : (c.line (victim C c (indexOf C a))).valid = true ∧ (c.line (victim C c (indexOf C a))).dirty = true
    · simp only [if_pos hd] at h
      cases hw : low.write (lineAddr C (victim C c (indexOf C a)) (c.line (victim C c (indexOf C a))).tag)
          (c.line (victim C c (indexOf C a))).data m with
      | outOfBounds x k y => rw [hw] at h; cases h
      | ok u y =>
        simp only [hw, fill] at h
        split at h
        next bytes m2 e => cases h; refine ⟨rfl, rfl, y, bytes, ?_, e, ?_⟩ <;> simp only [if_pos hd] <;> first | exact hw | rfl
        next => cases h
    · simp only [if_neg hd, fill] at h
      split at h
      next bytes m2 e => cases h; refine ⟨rfl, rfl, m, bytes, ?_, e, ?_⟩ <;> simp only [if_neg hd] <;> rfl
      next => cases h

/-- A word read that hits answers with the bytes of its line, and touches nothing below. -/
theorem cacheRead_hit (g : GeometryOk C) (hn : lineCount C ≠ 0) {a : Nat} (ha : a % 4 = 0) {c : Cache} {m : σ}
    {slot : Nat} (hl : lookup C c a = some slot) :
    cacheRead C low a 4 (c, m) =
      .ok (((Cache.line ⟨touch C slot c.lines, c.hits + 1, c.misses, c.writeBacks⟩ slot).data.drop (offsetOf C a)).take 4)
        (⟨touch C slot c.lines, c.hits + 1, c.misses, c.writeBacks⟩, m) := by
  simp [cacheRead, hn, segments_word g ha, readSegments, access_hit hl]

theorem touched_data {c : Cache} {slot h m w : Nat} (hs : slot < c.lines.length) :
    (Cache.line ⟨touch C slot c.lines, h, m, w⟩ slot).data = (c.line slot).data := by
  rw [line_touched hs, touchLine_data]
  rfl

end Sys2Proof.Machine
end

