-- ==== Sys2Proof/Laws/Arithmetic.lean ====
section
/-! SUPPORT. The word arithmetic of the meanings as `wrap` of mathematical integers (00_scope.md R9, 10_state.md R23): the
statements say the latter, the meanings use the former. -/

namespace Sys2Proof.Machine

theorem wrap_toNat (a : Word) : wrap a.toNat = a := by
  simp [wrap]

theorem wrap_add (x y : Int) : wrap (x + y) = wrap x + wrap y := BitVec.ofInt_add ..

theorem wrap_sub (x y : Int) : wrap (x - y) = wrap x - wrap y := by
  rw [Int.sub_eq_add_neg, wrap_add, wrap, wrap, wrap, BitVec.ofInt_neg, BitVec.sub_eq_add_neg]

/-- The flag C as a number (R146 to R148). -/
theorem wrap_carry (s : State) : wrap (if s.c then 1 else 0) = s.carry := by
  unfold State.carry
  split <;> rfl

theorem wrap_one : wrap 1 = 1 := rfl

/-- `~v` on a word is `0xFFFFFFFF - v` (R9). -/
theorem wrap_not (a : Word) : wrap ((0xFFFFFFFF : Int) - a.toNat) = ~~~a := by
  have h : wrap 0xFFFFFFFF = BitVec.allOnes 32 := by decide
  rw [wrap_sub, wrap_toNat, h, BitVec.allOnes_sub_eq_not]

end Sys2Proof.Machine
end

