-- ==== Sys2Proof/Laws/Envelope.lean ====
section
/-! SUPPORT. What the envelope and the handlers' shared operations do, said once (10_state.md R50 to R56,
40_data_processing.md R141, R142). The meanings of Machine/DataProcessing.lean, Thumb.lean and Unknown.lean are one call
of these each, so a proof about one of them cites the lemma here. -/

namespace Sys2Proof.Machine

variable {s : State}

theorem SameHierarchy.bytes {t : State} (hc : t.cfg = s.cfg) (h : SameHierarchy s t) : SameBytes s t where
  data a := congrFun (dataByte_congr hc h.l1d h.l2 h.mem) a
  instr a := congrFun (instrByte_congr hc h.l1i h.l2 h.mem) a

theorem OnlyRegsAndNZ.mk' {t : State} (cfg : t.cfg = s.cfg) (c : t.c = s.c) (v : t.v = s.v)
    (thumbMode : t.thumbMode = s.thumbMode) (h : SameHierarchy s t) : OnlyRegsAndNZ s t :=
  ⟨cfg, c, v, thumbMode, h, h.bytes cfg⟩

/-- What `writeResult` answers. -/
theorem writeResult_spec (thumb : Bool) (rd : Reg) (res : Word) (s : State) :
    ∃ t, writeResult thumb rd res s = .next t ∧ WritesResult thumb rd res s t := by
  refine ⟨_, rfl, ?_, ?_, ?_, ?_, ?_, OnlyRegsAndNZ.mk' ?_ ?_ ?_ ?_ ⟨?_, ?_, ?_, ?_⟩⟩
  · intro h
    rw [finish_reg _ _ _ _ h, setNZ_reg, reg_setReg_self]
  · intro q h1 h2
    rw [finish_reg _ _ _ _ h2, setNZ_reg, reg_setReg_ne _ (fun e => h1 e.symm)]
  · rw [finish_pc, setNZ_pc, pc_eq, pc_eq, reg_setReg]
    by_cases h : rd = 15
    · by_cases e : res = s.reg 15 <;> simp [h, e]
    · simp [h]
  · rw [finish_n, setNZ_n]; rfl
  · rw [finish_z, setNZ_z]; rfl
  all_goals simp

/-- What `compareResult` answers. -/
theorem compareResult_spec (res : Word) (s : State) :
    ∃ t, compareResult res s = .next t ∧ SetsFlags res s t := by
  refine ⟨_, rfl, ?_, ?_, ?_, ?_, OnlyRegsAndNZ.mk' ?_ ?_ ?_ ?_ ⟨?_, ?_, ?_, ?_⟩⟩
  · intro q h
    rw [finish_reg _ _ _ _ h, setNZ_reg]
  · rw [finish_pc, setNZ_pc]
    simp
  · rw [finish_n, setNZ_n]; rfl
  · rw [finish_z, setNZ_z]; rfl
  all_goals simp

/-- The registers of the report are those whose value differs (R56). -/
theorem mem_changedRegs {t : State} {q : Reg} : q ∈ changedRegs s t ↔ s.reg q ≠ t.reg q := by
  simp [changedRegs]

theorem changedRegs_sorted (s t : State) : (changedRegs s t).Pairwise (· < ·) :=
  (List.pairwise_lt_finRange 16).filter _

end Sys2Proof.Machine
end

