-- ==== Sys2Proof/Laws/PerInstr.lean ====
section
/-! SUPPORT. What holds of every instruction as syntax, one lemma for each constructor.

Family `Record`: the decoded record (10_state.md R46, 30_encoding.md R126 to R128) keeps the instruction's word, its mode,
and the presence of its fields. -/

namespace Sys2Proof.Laws.Record

/-- The raw word is a Thumb halfword. -/
def isThumbRaw : Raw → Bool
  | .arm _   => false
  | .thumb _ => true

/-- A record fits the word it came from: it keeps it (R132), its mode flag is the word's (R110), the condition is present
in ARM only (R112, R127), and an UNKNOWN record has no operand (R128). -/
def Fits (raw : Raw) (d : DecodedInstruction) : Prop :=
  d.rawWord = raw ∧ d.isThumb = isThumbRaw raw ∧ (d.condition = none ↔ d.isThumb = true) ∧
    (d.opCode = .unknown ↔ d.opType = .unknown) ∧
    (d.opType = .unknown → d.rn = none ∧ d.rd = none ∧ d.rm = none ∧ d.imm = none)

/-- Whatever DP_IMM_MODE is, the record of the instruction fits its encoding. -/
def Statement (i : Instr) : Prop := ∀ mode, Fits (encode i) (i.record mode)

theorem fits_dpImm (mode : DpImmMode) (w : Word) {op : OpCode} (h : op ≠ .unknown) (f : DpImm) :
    Fits (.arm w) (dpImmRecord mode (.arm w) op f) := by
  simp [Fits, dpImmRecord, isThumbRaw, h]

theorem fits_dpReg (w : Word) {op : OpCode} (h : op ≠ .unknown) (f : DpReg) :
    Fits (.arm w) (dpRegRecord (.arm w) op f) := by
  simp [Fits, dpRegRecord, isThumbRaw, h]

theorem fits_loadStore (w : Word) {op : OpCode} (h : op ≠ .unknown) (f : LoadStore) :
    Fits (.arm w) (loadStoreRecord (.arm w) op f) := by
  simp [Fits, loadStoreRecord, isThumbRaw, h]

theorem fits_branch (w : Word) {op : OpCode} (h : op ≠ .unknown) (f : Branch) :
    Fits (.arm w) (branchRecord (.arm w) op f) := by
  simp [Fits, branchRecord, isThumbRaw, h]

theorem fits_unknown (w : Word) (cond : BitVec 4) : Fits (.arm w) (unknownRecord (.arm w) false (some cond)) := by
  simp [Fits, unknownRecord, isThumbRaw]

theorem fits_thumbReg (h : Half) {op : OpCode} (ho : op ≠ .unknown) (f : ThumbReg) :
    Fits (.thumb h) (thumbRegRecord (.thumb h) op f) := by
  simp [Fits, thumbRegRecord, isThumbRaw, ho]

theorem fits_thumbImm (h : Half) {op : OpCode} (ho : op ≠ .unknown) (f : ThumbImm) :
    Fits (.thumb h) (thumbImmRecord (.thumb h) op f) := by
  simp [Fits, thumbImmRecord, isThumbRaw, ho]

theorem fits_thumbUnknown (h : Half) : Fits (.thumb h) (unknownRecord (.thumb h) true none) := by
  simp [Fits, unknownRecord, isThumbRaw]

theorem andImm (f : DpImm) : Statement (.andImm f) := fun mode => fits_dpImm mode _ (by decide) f
theorem eorImm (f : DpImm) : Statement (.eorImm f) := fun mode => fits_dpImm mode _ (by decide) f
theorem subImm (f : DpImm) : Statement (.subImm f) := fun mode => fits_dpImm mode _ (by decide) f
theorem rsbImm (f : DpImm) : Statement (.rsbImm f) := fun mode => fits_dpImm mode _ (by decide) f
theorem addImm (f : DpImm) : Statement (.addImm f) := fun mode => fits_dpImm mode _ (by decide) f
theorem adcImm (f : DpImm) : Statement (.adcImm f) := fun mode => fits_dpImm mode _ (by decide) f
theorem sbcImm (f : DpImm) : Statement (.sbcImm f) := fun mode => fits_dpImm mode _ (by decide) f
theorem rscImm (f : DpImm) : Statement (.rscImm f) := fun mode => fits_dpImm mode _ (by decide) f
theorem tstImm (f : DpImm) : Statement (.tstImm f) := fun mode => fits_dpImm mode _ (by decide) f
theorem teqImm (f : DpImm) : Statement (.teqImm f) := fun mode => fits_dpImm mode _ (by decide) f
theorem cmpImm (f : DpImm) : Statement (.cmpImm f) := fun mode => fits_dpImm mode _ (by decide) f
theorem cmnImm (f : DpImm) : Statement (.cmnImm f) := fun mode => fits_dpImm mode _ (by decide) f
theorem orrImm (f : DpImm) : Statement (.orrImm f) := fun mode => fits_dpImm mode _ (by decide) f
theorem movImm (f : DpImm) : Statement (.movImm f) := fun mode => fits_dpImm mode _ (by decide) f
theorem bicImm (f : DpImm) : Statement (.bicImm f) := fun mode => fits_dpImm mode _ (by decide) f
theorem mvnImm (f : DpImm) : Statement (.mvnImm f) := fun mode => fits_dpImm mode _ (by decide) f
theorem andReg (f : DpReg) : Statement (.andReg f) := fun _ => fits_dpReg _ (by decide) f
theorem eorReg (f : DpReg) : Statement (.eorReg f) := fun _ => fits_dpReg _ (by decide) f
theorem subReg (f : DpReg) : Statement (.subReg f) := fun _ => fits_dpReg _ (by decide) f
theorem rsbReg (f : DpReg) : Statement (.rsbReg f) := fun _ => fits_dpReg _ (by decide) f
theorem addReg (f : DpReg) : Statement (.addReg f) := fun _ => fits_dpReg _ (by decide) f
theorem adcReg (f : DpReg) : Statement (.adcReg f) := fun _ => fits_dpReg _ (by decide) f
theorem sbcReg (f : DpReg) : Statement (.sbcReg f) := fun _ => fits_dpReg _ (by decide) f
theorem rscReg (f : DpReg) : Statement (.rscReg f) := fun _ => fits_dpReg _ (by decide) f
theorem tstReg (f : DpReg) : Statement (.tstReg f) := fun _ => fits_dpReg _ (by decide) f
theorem teqReg (f : DpReg) : Statement (.teqReg f) := fun _ => fits_dpReg _ (by decide) f
theorem cmpReg (f : DpReg) : Statement (.cmpReg f) := fun _ => fits_dpReg _ (by decide) f
theorem cmnReg (f : DpReg) : Statement (.cmnReg f) := fun _ => fits_dpReg _ (by decide) f
theorem orrReg (f : DpReg) : Statement (.orrReg f) := fun _ => fits_dpReg _ (by decide) f
theorem movReg (f : DpReg) : Statement (.movReg f) := fun _ => fits_dpReg _ (by decide) f
theorem bicReg (f : DpReg) : Statement (.bicReg f) := fun _ => fits_dpReg _ (by decide) f
theorem mvnReg (f : DpReg) : Statement (.mvnReg f) := fun _ => fits_dpReg _ (by decide) f
theorem str (f : LoadStore) : Statement (.str f) := fun _ => fits_loadStore _ (by decide) f
theorem ldr (f : LoadStore) : Statement (.ldr f) := fun _ => fits_loadStore _ (by decide) f
theorem b (f : Branch) : Statement (.b f) := fun _ => fits_branch _ (by decide) f
theorem bl (f : Branch) : Statement (.bl f) := fun _ => fits_branch _ (by decide) f
theorem unknown011 (f : ArmUnknown) : Statement (.unknown011 f) := fun _ => fits_unknown _ f.cond
theorem unknown100 (f : ArmUnknown) : Statement (.unknown100 f) := fun _ => fits_unknown _ f.cond
theorem unknown110 (f : ArmUnknown) : Statement (.unknown110 f) := fun _ => fits_unknown _ f.cond
theorem unknown111 (f : ArmUnknown) : Statement (.unknown111 f) := fun _ => fits_unknown _ f.cond
theorem thumbAddReg (f : ThumbReg) : Statement (.thumbAddReg f) := fun _ => fits_thumbReg _ (by decide) f
theorem thumbSubReg (f : ThumbReg) : Statement (.thumbSubReg f) := fun _ => fits_thumbReg _ (by decide) f
theorem thumbAddImm (f : ThumbImm) : Statement (.thumbAddImm f) := fun _ => fits_thumbImm _ (by decide) f
theorem thumbSubImm (f : ThumbImm) : Statement (.thumbSubImm f) := fun _ => fits_thumbImm _ (by decide) f
theorem thumbUnknown (raw : Half) : Statement (.thumbUnknown raw) := fun _ => fits_thumbUnknown raw

end Sys2Proof.Laws.Record
end

