-- ==== Sys2Proof/Tests/Slice0.lean ====
section
/-! SUPPORT. The model's own tests. Every expected result is a row of 95_test_vectors.md, named in the test's comment, or is
computed by hand from the rule named there; none comes from a run of the model. After them, for each statement that has
hypotheses, a state and operands that meet them. -/

namespace Sys2Proof.Tests

open Sys2Proof.Machine Sys2Proof.Statements

/-! ### Helpers -/

/-- The outcome is a next state of which `p` holds. -/
def nextWith (r : Result) (p : State → Bool) : Bool :=
  match r with
  | .next t => p t
  | _       => false

/-- The outcome is a fault of which `p` holds. -/
def faultWith (r : Result) (p : Fault → Bool) : Bool :=
  match r with
  | .fault f => p f
  | _        => false

/-- The access answers, with a value and a state of which `p` holds. -/
def okWith {α : Type} (r : Except Fault α) (p : α → Bool) : Bool :=
  match r with
  | .ok x    => p x
  | .error _ => false

/-- Construction succeeds with a state of which `p` holds. -/
def builds (r : Except ConfigurationError State) (p : State → Bool) : Bool :=
  match r with
  | .ok s    => p s
  | .error _ => false

theorem nextWith_elim {r : Result} {p : State → Bool} (h : nextWith r p = true) : ∃ t, r = .next t ∧ p t = true := by
  cases r with
  | next t    => exact ⟨t, rfl, h⟩
  | fault f   => cases h
  | refused f => cases h

theorem faultWith_elim {r : Result} {p : Fault → Bool} (h : faultWith r p = true) : ∃ f, r = .fault f ∧ p f = true := by
  cases r with
  | next t    => cases h
  | fault f   => exact ⟨f, rfl, h⟩
  | refused f => cases h

theorem okWith_elim {α : Type} {r : Except Fault α} {p : α → Bool} (h : okWith r p = true) :
    ∃ x, r = .ok x ∧ p x = true := by
  cases r with
  | ok x    => exact ⟨x, rfl, h⟩
  | error f => cases h

theorem builds_elim {r : Except ConfigurationError State} {p : State → Bool} (h : builds r p = true) :
    ∃ s, r = .ok s ∧ p s = true := by
  cases r with
  | ok s    => exact ⟨s, rfl, h⟩
  | error e => cases h

/-- The request answers, with a value and a state of which `p` holds. -/
def answers {σ α : Type} (r : Access σ α) (p : α → σ → Bool) : Bool :=
  match r with
  | .ok x m          => p x m
  | .outOfBounds _ _ _ => false

theorem answers_elim {σ α : Type} {r : Access σ α} {p : α → σ → Bool} (h : answers r p = true) :
    ∃ x m, r = .ok x m ∧ p x m = true := by
  cases r with
  | ok x m          => exact ⟨x, m, rfl, h⟩
  | outOfBounds a k m => cases h

/-- The access fails, with a fault of which `p` holds. -/
def failsWith {α : Type} (r : Except Fault α) (p : Fault → Bool) : Bool :=
  match r with
  | .ok _    => false
  | .error f => p f

theorem failsWith_elim {α : Type} {r : Except Fault α} {p : Fault → Bool} (h : failsWith r p = true) :
    ∃ f, r = .error f ∧ p f = true := by
  cases r with
  | ok x    => cases h
  | error f => exact ⟨f, rfl, h⟩

/-- Three zero-line caches (R82) over 4 KiB. -/
def flatConfig : Config :=
  { memSize := 0x1000, dpImmMode := .imm8,
    l1i := { cap := 0, bs := 16, policy := .direct }, l1d := { cap := 0, bs := 16, policy := .direct },
    l2 := { cap := 0, bs := 16, policy := .direct } }

/-- A register file with the values given. -/
def regsWith (given : List (Reg × Word)) : Vector Word 16 :=
  given.foldl (fun regs p => regs.set p.1 p.2) (Vector.replicate 16 0)

/-- The start state of the vectors that only execute: a pc, some registers, every flag clear. -/
def start (pc : Word) (given : List (Reg × Word)) : State :=
  { cfg := flatConfig, regs := regsWith ((15, pc) :: given), n := false, z := false, c := false, v := false,
    thumbMode := false, l1i := Cache.reset 0 16, l1d := Cache.reset 0 16, l2 := Cache.reset 0 16, mem := [],
    surfaced := .nothing }

/-- `Exec(raw)` of an ARM word at pc 0x100 ends with r0 = v, pc = 0x104 and these N and Z. -/
def armGives (raw : Word) (given : List (Reg × Word)) (v : Word) (n z : Bool) : Bool :=
  nextWith (hostExecute (.arm raw) (start 0x100 given)) fun t =>
    t.reg 0 == v && t.pc == 0x104 && t.n == n && t.z == z && !t.c && !t.v

/-- `Exec(raw)` of an ARM compare at pc 0x100 changes no register but the pc, to 0x104, and sets these N and Z. -/
def armCompares (raw : Word) (given : List (Reg × Word)) (n z : Bool) : Bool :=
  nextWith (hostExecute (.arm raw) (start 0x100 given)) fun t =>
    t.regs == (start 0x104 given).regs && t.n == n && t.z == z && !t.c && !t.v

/-- `Exec(raw)` of a Thumb halfword at pc 0x200 ends with x[r] = v, pc = 0x202 and these N and Z. -/
def thumbGives (raw : Half) (given : List (Reg × Word)) (r : Reg) (v : Word) (n z : Bool) : Bool :=
  nextWith (hostExecute (.thumb raw) (start 0x200 given)) fun t =>
    t.reg r == v && t.pc == 0x202 && t.n == n && t.z == z

/-- `Exec(raw)` of a branch from a pc ends at this pc with this r14, Z kept. -/
def branchGives (raw pc target lr : Word) : Bool :=
  nextWith (hostExecute (.arm raw) { start pc [] with z := true }) fun t =>
    t.pc == target && t.reg 14 == lr && t.z && !t.n

/-- `Exec(raw)` reports the word and changes nothing else. -/
def reports (raw : Raw) : Bool :=
  nextWith (hostExecute raw (start 0x200 [(0, 5)])) fun t =>
    t == { start 0x200 [(0, 5)] with surfaced := .unknownOpcode raw }

/-! ### WellFormed: the one check refuses an ill-formed term (R127) -/

theorem test_wellFormed_refuses_add_format : (Instr.thumbUnknown 0x1888).wellFormed = false := by decide
theorem test_wellFormed_accepts_other_format : (Instr.thumbUnknown 0x2001).wellFormed = true := by decide

/-! ### Decode: words written out bit by bit from R113 to R119 and R124 -/

/-- cond 1110, 001, opcode, S, rn, rd, rotate, imm8 (R114, R115, R117). -/
theorem test_decode_dp_imm_low :
    decode (.arm 0b1110_001_0000_0_0001_0010_0000_00000101#32) = .andImm ⟨14, false, 1, 2, 5⟩ ∧
    decode (.arm 0b1110_001_0001_0_0001_0010_0000_00000101#32) = .eorImm ⟨14, false, 1, 2, 5⟩ ∧
    decode (.arm 0b1110_001_0010_0_0001_0010_0000_00000101#32) = .subImm ⟨14, false, 1, 2, 5⟩ ∧
    decode (.arm 0b1110_001_0011_0_0001_0010_0000_00000101#32) = .rsbImm ⟨14, false, 1, 2, 5⟩ ∧
    decode (.arm 0b1110_001_0100_0_0001_0010_0000_00000101#32) = .addImm ⟨14, false, 1, 2, 5⟩ ∧
    decode (.arm 0b1110_001_0101_1_1111_0010_0000_00000101#32) = .adcImm ⟨14, true, 15, 2, 5⟩ ∧
    decode (.arm 0b1110_001_0110_0_0001_0010_0000_00000101#32) = .sbcImm ⟨14, false, 1, 2, 5⟩ ∧
    decode (.arm 0b0000_001_0111_0_0001_0010_1111_11111111#32) = .rscImm ⟨0, false, 1, 2, 0xFFF⟩ := by decide

/-- The same form, opcodes 8 to 15. -/
theorem test_decode_dp_imm_high :
    decode (.arm 0b1110_001_1000_0_0001_0010_0000_00000101#32) = .tstImm ⟨14, false, 1, 2, 5⟩ ∧
    decode (.arm 0b1110_001_1001_0_0001_0010_0000_00000101#32) = .teqImm ⟨14, false, 1, 2, 5⟩ ∧
    decode (.arm 0b1110_001_1010_0_0001_0010_0000_00000101#32) = .cmpImm ⟨14, false, 1, 2, 5⟩ ∧
    decode (.arm 0b1110_001_1011_0_0001_0010_0000_00000101#32) = .cmnImm ⟨14, false, 1, 2, 5⟩ ∧
    decode (.arm 0b1110_001_1100_0_0001_0010_0000_00000101#32) = .orrImm ⟨14, false, 1, 2, 5⟩ ∧
    decode (.arm 0b1111_001_1101_0_0001_0010_0100_11111111#32) = .movImm ⟨15, false, 1, 2, 0x4FF⟩ ∧
    decode (.arm 0b1110_001_1110_0_0001_0010_0000_00000101#32) = .bicImm ⟨14, false, 1, 2, 5⟩ ∧
    decode (.arm 0b1110_001_1111_0_0001_0010_0000_00000101#32) = .mvnImm ⟨14, false, 1, 2, 5⟩ := by decide

/-- cond 1110, 000, opcode, S, rn, rd, shift, rm (R114, R116, R117). -/
theorem test_decode_dp_reg_low :
    decode (.arm 0b1110_000_0000_0_0001_0010_00000000_0011#32) = .andReg ⟨14, false, 1, 2, 0, 3⟩ ∧
    decode (.arm 0b1110_000_0001_0_0001_0010_00000000_0011#32) = .eorReg ⟨14, false, 1, 2, 0, 3⟩ ∧
    decode (.arm 0b1110_000_0010_0_0001_0010_00000000_0011#32) = .subReg ⟨14, false, 1, 2, 0, 3⟩ ∧
    decode (.arm 0b1110_000_0011_0_0001_0010_00000000_0011#32) = .rsbReg ⟨14, false, 1, 2, 0, 3⟩ ∧
    decode (.arm 0b1110_000_0100_0_0001_0010_00000000_0011#32) = .addReg ⟨14, false, 1, 2, 0, 3⟩ ∧
    decode (.arm 0b1110_000_0101_0_0001_0010_00000000_0011#32) = .adcReg ⟨14, false, 1, 2, 0, 3⟩ ∧
    decode (.arm 0b1110_000_0110_1_0001_0010_10000001_0011#32) = .sbcReg ⟨14, true, 1, 2, 0x81, 3⟩ ∧
    decode (.arm 0b1110_000_0111_0_0001_0010_00000000_0011#32) = .rscReg ⟨14, false, 1, 2, 0, 3⟩ := by decide

/-- The same form, opcodes 8 to 15. -/
theorem test_decode_dp_reg_high :
    decode (.arm 0b1110_000_1000_0_0001_0010_00000000_0011#32) = .tstReg ⟨14, false, 1, 2, 0, 3⟩ ∧
    decode (.arm 0b1110_000_1001_0_1111_1111_11110001_1110#32) = .teqReg ⟨14, false, 15, 15, 0xF1, 14⟩ ∧
    decode (.arm 0b1110_000_1010_0_0001_0010_00000000_0011#32) = .cmpReg ⟨14, false, 1, 2, 0, 3⟩ ∧
    decode (.arm 0b1110_000_1011_0_0001_0010_00000000_0011#32) = .cmnReg ⟨14, false, 1, 2, 0, 3⟩ ∧
    decode (.arm 0b1110_000_1100_0_0001_0010_00000000_0011#32) = .orrReg ⟨14, false, 1, 2, 0, 3⟩ ∧
    decode (.arm 0b1111_000_1101_0_0000_1111_00000000_1110#32) = .movReg ⟨15, false, 0, 15, 0, 14⟩ ∧
    decode (.arm 0b1110_000_1110_0_0001_0010_00000000_0011#32) = .bicReg ⟨14, false, 1, 2, 0, 3⟩ ∧
    decode (.arm 0b1110_000_1111_0_0001_0010_00000000_0011#32) = .mvnReg ⟨14, false, 1, 2, 0, 3⟩ := by decide

/-- cond, 010, P U B W L, rn, rd, offset (R118); cond, 101, L, offset (R119). -/
theorem test_decode_memory_and_branch :
    decode (.arm 0b1110_010_1_1_0_0_0_0010_0001_000000000100#32) = .str ⟨14, true, true, false, false, 2, 1, 4⟩ ∧
    decode (.arm 0b1110_010_1_0_0_0_1_0010_0011_000000000100#32) = .ldr ⟨14, true, false, false, false, 2, 3, 4⟩ ∧
    decode (.arm 0b1110_010_0_1_1_1_1_0010_0011_111111111111#32) = .ldr ⟨14, false, true, true, true, 2, 3, 0xFFF⟩ ∧
    decode (.arm 0b1110_101_0_000000000000000000000010#32) = .b ⟨14, 2⟩ ∧
    decode (.arm 0b1110_101_1_111111111111111111111111#32) = .bl ⟨14, 0xFFFFFF⟩ := by decide

/-- Groups 011, 100, 110 and 111 (R113, V-D11 to V-D14). -/
theorem test_decode_arm_unknown :
    decode (.arm 0b1110_011_1100100100001000000000011#32) = .unknown011 ⟨14, 0b1100100100001000000000011⟩ ∧
    decode (.arm 0b1110_100_0101111010000000000000001#32) = .unknown100 ⟨14, 0b0101111010000000000000001⟩ ∧
    decode (.arm 0b1110_110_0000000000000000000000000#32) = .unknown110 ⟨14, 0⟩ ∧
    decode (.arm 0b1110_111_1000000000000000000000000#32) = .unknown111 ⟨14, 0x1000000⟩ := by decide

/-- 00011, I, op, rm or imm3, rn, rd (R124, V-D18 to V-D25). -/
theorem test_decode_thumb :
    decode (.thumb 0b00011_0_0_010_001_000#16) = .thumbAddReg ⟨2, 1, 0⟩ ∧
    decode (.thumb 0b00011_0_1_010_001_000#16) = .thumbSubReg ⟨2, 1, 0⟩ ∧
    decode (.thumb 0b00011_1_0_111_001_000#16) = .thumbAddImm ⟨7, 1, 0⟩ ∧
    decode (.thumb 0b00011_1_1_111_111_111#16) = .thumbSubImm ⟨7, 7, 7⟩ ∧
    decode (.thumb 0x2001#16) = .thumbUnknown 0x2001 ∧
    decode (.thumb 0x4770#16) = .thumbUnknown 0x4770 ∧
    decode (.thumb 0#16) = .thumbUnknown 0 := by decide

/-- The records of V-D6, V-D8 and V-D11, field by field (R46, R126, R128). -/
theorem test_decode_records :
    decodeRecord .imm8 (.arm 0xE5123004) =
      { rawWord := .arm 0xE5123004, isThumb := false, condition := some 14, opType := .loadStore, opCode := .ldr,
        rn := some 2, rd := some 3, rm := none, imm := some 4 } ∧
    decodeRecord .imm8 (.arm 0xEBFFFFFF) =
      { rawWord := .arm 0xEBFFFFFF, isThumb := false, condition := some 14, opType := .branch, opCode := .bl,
        rn := none, rd := none, rm := none, imm := some (-4) } ∧
    decodeRecord .imm8 (.arm 0xE8BD0001) =
      { rawWord := .arm 0xE8BD0001, isThumb := false, condition := some 14, opType := .unknown, opCode := .unknown,
        rn := none, rd := none, rm := none, imm := none } := by decide

/-- The DP_IMM immediate under each mode (V-D15, V-D16; R120). -/
theorem test_dp_immediate_modes :
    dpImmediate .imm8 0x4FF = 0xFF ∧ dpImmediate .imm12 0x4FF = 0x4FF ∧ dpImmediate .rotated 0x4FF = 0xFF000000 ∧
    dpImmediate .imm8 0xF01 = 1 ∧ dpImmediate .imm12 0xF01 = 0xF01 ∧ dpImmediate .rotated 0xF01 = 4 := by decide

/-- Bytes in ascending address order; too few hold no instruction (R63, R110). -/
theorem test_decodeBytes :
    (decodeBytes false [0x05, 0x20, 0x81, 0xE2, 0xAA]).toOption = some (.addImm ⟨14, false, 1, 2, 5⟩, [0xAA]) ∧
    (decodeBytes true [0x88, 0x18]).toOption = some (.thumbAddReg ⟨2, 1, 0⟩, []) ∧
    (decodeBytes false [0x05, 0x20, 0x81]).toOption = none ∧ (decodeBytes true [0x88]).toOption = none := by
  decide

/-! ### Data processing (V-A1 to V-A42) -/

/-- V-A22. -/
theorem test_and_imm : armGives 0xE2010000 [(1, 0xFFFFFFFF)] 0 false true = true := by decide
/-- V-A28. -/
theorem test_eor_imm_fault : faultWith (hostExecute (.arm 0xE2210001) (start 0x100 [(0, 9), (1, 3)]))
    (fun f => f == .operandAbsent 0xE2210001 (start 0x100 [(0, 9), (1, 3)])) = true := by decide
/-- V-A8. -/
theorem test_sub_imm : armGives 0xE2410001 [] 0xFFFFFFFF true false = true := by decide
/-- V-A9. -/
theorem test_rsb_imm : armGives 0xE2610000 [(1, 5)] 0xFFFFFFFB true false = true := by decide
/-- V-A6: the S bit is ignored. -/
theorem test_add_imm : armGives 0xE2910001 [(1, 1)] 2 false false = true := by decide
/-- V-A5: a write to r15 stands, with no advance. -/
theorem test_add_imm_pc : nextWith (hostExecute (.arm 0xE28FF008) (start 0x100 [])) (fun t => t.pc == 0x108) = true := by
  decide
/-- R146 by hand, C set: 0xFFFFFFFF + 0 + 1 wraps to 0. -/
theorem test_adc_imm_carry :
    nextWith (hostExecute (.arm 0xE2A10000) { start 0x100 [(1, 0xFFFFFFFF)] with c := true })
      (fun t => t.reg 0 == 0 && t.z && t.c) = true := by decide
/-- V-A13. -/
theorem test_sbc_imm : armGives 0xE2C10003 [(1, 5)] 1 false false = true := by decide
/-- V-A15. -/
theorem test_rsc_imm : armGives 0xE2E10003 [(1, 5)] 0xFFFFFFFD true false = true := by decide
/-- V-A33. -/
theorem test_tst_imm : armCompares 0xE3110001 [(1, 2)] false true = true := by decide
/-- V-A36. -/
theorem test_teq_imm_fault : faultWith (hostExecute (.arm 0xE3310001) (start 0x100 []))
    (fun f => f == .operandAbsent 0xE3310001 (start 0x100 [])) = true := by decide
/-- V-A39. -/
theorem test_cmp_imm : armCompares 0xE3510001 [] true false = true := by decide
/-- V-A40: the flags are those of the wrapped sum. -/
theorem test_cmn_imm : armCompares 0xE3710001 [(1, 0xFFFFFFFF)] false true = true := by decide
/-- V-A24. -/
theorem test_orr_imm : armGives 0xE38100F0 [(1, 0xF)] 0xFF false false = true := by decide
/-- V-A18. -/
theorem test_mov_imm : armGives 0xE3A00000 [(0, 7)] 0 false true = true := by decide
/-- V-A29. -/
theorem test_bic_imm : armGives 0xE3C100FF [(1, 0x12345678)] 0x12345600 false false = true := by decide
/-- V-A31. -/
theorem test_mvn_imm : armGives 0xE3E00000 [] 0xFFFFFFFF true false = true := by decide
/-- V-A21. -/
theorem test_and_reg : armGives 0xE0010002 [(1, 0xFF00FF00), (2, 0x0FF00FF0)] 0x0F000F00 false false = true := by
  decide
/-- V-A26. -/
theorem test_eor_reg : armGives 0xE0210002 [(1, 0xFFFF0000), (2, 0xFF00FF00)] 0x00FFFF00 false false = true := by
  decide
/-- W5. -/
theorem test_sub_reg : armGives 0xE0400000 [(0, 123)] 0 false true = true := by decide
/-- R145 by hand: x[rm] - x[rn] = 3 - 5. -/
theorem test_rsb_reg : armGives 0xE0610002 [(1, 5), (2, 3)] 0xFFFFFFFE true false = true := by decide
/-- V-A1. -/
theorem test_add_reg : armGives 0xE0810002 [(1, 0xFFFFFFFF), (2, 1)] 0 false true = true := by decide
/-- V-A7: the condition is not evaluated (the immediate form with condition 0000). -/
theorem test_add_condition_ignored : armGives 0x02800001 [] 1 false false = true := by decide
/-- V-A11. -/
theorem test_adc_reg : armGives 0xE0A10002 [(1, 2), (2, 3)] 5 false false = true := by decide
/-- V-A14. -/
theorem test_sbc_reg : armGives 0xE0C10001 [(1, 9)] 0xFFFFFFFF true false = true := by decide
/-- R148 by hand, C clear: 6 - 5 - 1. -/
theorem test_rsc_reg : armGives 0xE0E10002 [(1, 5), (2, 6)] 0 false true = true := by decide
/-- V-A34. -/
theorem test_tst_reg : armCompares 0xE1110002 [(1, 0x80000000), (2, 0x80000001)] true false = true := by decide
/-- V-A37: the word of "BX lr" is a TEQ of r15 and r14. -/
theorem test_teq_reg : armCompares 0xE12FFF1E [(14, 0x100)] false true = true := by decide
/-- R157 by hand: 3 - 4. -/
theorem test_cmp_reg : armCompares 0xE1510002 [(1, 3), (2, 4)] true false = true := by decide
/-- R158 by hand: 0x7FFFFFFF + 1. -/
theorem test_cmn_reg : armCompares 0xE1710002 [(1, 0x7FFFFFFF), (2, 1)] true false = true := by decide
/-- V-A25. -/
theorem test_orr_reg : armGives 0xE1810002 [] 0 false true = true := by decide
/-- V-A19. -/
theorem test_mov_reg_pc : nextWith (hostExecute (.arm 0xE1A0F00E) (start 0x100 [(14, 0x200)])) (fun t => t.pc == 0x200) = true := by
  decide
/-- V-A20: r15 written with its own value advances. -/
theorem test_mov_reg_pc_self : nextWith (hostExecute (.arm 0xE1A0F00F) (start 0x100 [])) (fun t => t.pc == 0x104) = true := by
  decide
/-- V-A30. -/
theorem test_bic_reg : armGives 0xE1C10001 [(1, 0xABCD)] 0 false true = true := by decide
/-- V-A32. -/
theorem test_mvn_reg : armGives 0xE1E00001 [(1, 0xFFFFFFFF)] 0 false true = true := by decide
/-- V-A42: the word of "MUL r0, r1, r2" is an AND with its shift field ignored. -/
theorem test_and_reg_shift_ignored : armGives 0xE0000291 [(0, 0xF0), (1, 0x3C)] 0x30 false false = true := by
  decide

/-! ### Load and store (V-L1 to V-L13) -/

/-- cfgA of 95_test_vectors.md. -/
def cfgA : Config := { Config.default with memSize := 0x1000 }

/-- One `Step` in cfgA from reset at pc 0x100, with the instruction word there and the data named. -/
def loadStart (raw : Word) (given : List (Reg × Word)) (data : List Host.Cell) : State :=
  { State.reset with
    cfg := cfgA, regs := regsWith ((15, 0x100) :: given), mem := Memory.writeBytes [] 0x100 (bytesLe32 raw) ++ data }

/-- V-L10: a word is loaded whatever B says; statistics (1, 1, 2, 0). -/
theorem test_ldr :
    nextWith (step (loadStart 0xE5D23000 [(2, 0x200)] [(0x200, 0x44), (0x201, 0x33), (0x202, 0x22), (0x203, 0x11)]))
      (fun t => t.reg 3 == 0x11223344 && t.pc == 0x104 && t.statistics == ⟨1, 1, 2, 0⟩) = true := by decide

/-- V-L9: L2's 64-byte fill at MEM_SIZE faults after the counts. -/
theorem test_ldr_out_of_bounds :
    faultWith (step (loadStart 0xE5910000 [(1, 0x1000)] [])) (fun f =>
      match f with
      | .outOfBounds a k t => a == 0x1000 && k == 64 && t.pc == 0x100 && t.statistics == ⟨1, 1, 2, 0⟩
      | _                  => false) = true := by decide

/-- V-L2: the word is in a dirty L1D line and not yet in main memory. -/
theorem test_str :
    nextWith (step (loadStart 0xE5821004 [(1, 0xA1B2C3D4), (2, 0x200)] []))
      (fun t => t.dataWord 0x204 == 0xA1B2C3D4 && t.mem.readBytes 0x204 4 == [0, 0, 0, 0] &&
        (t.l1d.line 0).dirty && t.pc == 0x104) = true := by decide

/-- V-L6: STR of r15 stores the instruction's own address. -/
theorem test_str_pc :
    nextWith (step (loadStart 0xE580F200 [] [])) (fun t => t.dataWord 0x200 == 0x100) = true := by decide

/-! ### Branch (V-B1 to V-B11) -/

/-- V-B11: the largest backward offset. -/
theorem test_b : branchGives 0xEA800000 0x100 0xFE000108 0 = true := by decide
/-- V-B3: a branch to its own address advances. -/
theorem test_b_self : branchGives 0xEAFFFFFE 0x100 0x104 0 = true := by decide
/-- V-B6. -/
theorem test_bl : branchGives 0xEB000010 0x100 0x148 0x104 = true := by decide
/-- V-B7. -/
theorem test_bl_back : branchGives 0xEBFFFFFF 0 4 4 = true := by decide

/-! ### UNKNOWN words (R203) -/

/-- V-D12. -/
theorem test_unknown011 : reports (.arm 0xE7921003) = true := by decide
/-- V-D11. -/
theorem test_unknown100 : reports (.arm 0xE8BD0001) = true := by decide
/-- V-D13. -/
theorem test_unknown110 : reports (.arm 0xEC000000) = true := by decide
/-- V-D14. -/
theorem test_unknown111 : reports (.arm 0xEF000000) = true := by decide
/-- V-T9. -/
theorem test_thumb_unknown : reports (.thumb 0x2001) = true := by decide

/-! ### Thumb (V-T1 to V-T12) -/

/-- V-T2. -/
theorem test_thumb_add_reg : thumbGives 0x1888 [(1, 0xFFFFFFFF), (2, 1)] 0 0 false true = true := by decide
/-- V-T3. -/
theorem test_thumb_sub_reg : thumbGives 0x1A88 [(1, 3), (2, 4)] 0 0xFFFFFFFF true false = true := by decide
/-- V-T5. -/
theorem test_thumb_add_imm : thumbGives 0x1DC8 [(1, 1)] 0 8 false false = true := by decide
/-- V-T8. -/
theorem test_thumb_sub_imm : thumbGives 0x1E40 [] 0 0xFFFFFFFF true false = true := by decide

/-- The word 0x1C811C40 of V-T11 at 0x200, in Thumb state, at a pc. -/
def thumbStart (pc : Word) : State :=
  { State.reset with
    cfg := cfgA, thumbMode := true, regs := regsWith [(15, pc)],
    mem := [(0x200, 0x40), (0x201, 0x1C), (0x202, 0x81), (0x203, 0x1C)] }

/-- V-T11: at 0x202 the high half runs, ADD r1, r0, #2. -/
theorem test_thumb_high_half :
    nextWith (step (thumbStart 0x202)) (fun t => t.reg 1 == 2 && t.reg 0 == 0 && t.pc == 0x204) = true := by
  decide

/-- V-T12. -/
theorem test_thumb_odd_pc :
    faultWith (step (thumbStart 0x201)) (fun f => f == .alignmentFault 0x201 (thumbStart 0x201)) = true := by
  decide

/-! ### Caches and construction (V-H1 to V-H9, V-C1 to V-C9, W2, W3) -/

/-- n, offset, index and tag bits, and the offset, index and tag of an address. -/
def decomposed (C : CacheConfig) (a : Nat) : List Nat :=
  [lineCount C, offsetBits C, indexBits C, tagBits C, offsetOf C a, indexOf C a, tagOf C a]

/-- V-H1 to V-H3: the decomposition of 0x12345678 (R68, R41). -/
theorem test_decomposition :
    decomposed Config.default.l1i 0x12345678 = [64, 4, 6, 22, 0x8, 0x27, 0x48D15] ∧
    decomposed Config.default.l1d 0x12345678 = [64, 4, 0, 28, 0x8, 0, 0x1234567] ∧
    decomposed Config.default.l2 0x12345678 = [64, 6, 6, 20, 0x38, 0x19, 0x12345] := by decide

/-- V-C1 to V-C9 (R66). -/
theorem test_configuration_checks :
    checkCache ⟨1000, 16, .direct⟩ = some .capacityDivisible ∧ checkCache ⟨48, 16, .direct⟩ = some .lineCount ∧
    checkCache ⟨48, 16, .fullyAssociative⟩ = none ∧ checkCache ⟨64, 12, .direct⟩ = some .blockSize ∧
    checkCache ⟨64, 2, .direct⟩ = some .blockSize ∧ checkCache ⟨8, 16, .direct⟩ = some .capacityDivisible ∧
    checkCache ⟨0, 16, .direct⟩ = none ∧ checkCache ⟨0, 16, .fullyAssociative⟩ = none ∧
    checkCache ⟨2 ^ 33, 16, .direct⟩ = some .capacityLimit := by decide

/-- A line of 16 zero bytes. -/
def zeroLine (dirty : Bool) (tag recency : Nat) : Line :=
  { valid := true, dirty := dirty, tag := tag, data := List.replicate 16 0, recency := recency }

/-- W2, second step: a read of 0x50 in a 64/16 direct cache evicts the dirty line of 0x10 to the level below. -/
theorem test_eviction_writes_back :
    (match cacheRead ⟨64, 16, .direct⟩ (mainStore 0x1000) 0x50 4
        ({ Cache.reset 4 16 with lines := (Cache.reset 4 16).lines.set 1 { zeroLine true 0 0 with
            data := [0xEF, 0xBE, 0xAD, 0xDE] ++ List.replicate 12 0 }, misses := 1 }, []) with
     | .ok _ (c, m) => c.misses == 2 && c.writeBacks == 1 && (c.line 1).tag == 1 && !(c.line 1).dirty &&
         m.readBytes 0x10 4 == [0xEF, 0xBE, 0xAD, 0xDE]
     | _            => false) = true := by decide

/-- W3, fifth read: 0x40 evicts slot 0 of a full 64/16 fully-associative cache, and the other lines age. -/
theorem test_lru_eviction :
    (match cacheRead ⟨64, 16, .fullyAssociative⟩ (mainStore 0x1000) 0x40 4
        ({ lines := [zeroLine false 0 3, zeroLine false 1 2, zeroLine false 2 1, zeroLine false 3 0], hits := 0,
           misses := 4, writeBacks := 0 }, []) with
     | .ok _ (c, _) => c.lines.map (fun l => (l.tag, l.recency)) == [(4, 0), (1, 3), (2, 2), (3, 1)] && c.misses == 5
     | _            => false) = true := by decide

/-- V-H5, first read: L1's 32-byte fill at 0x20 reaches L2 as two 16-byte segments, two misses. -/
theorem test_spanning_fill :
    answers (cacheRead ⟨64, 32, .direct⟩ (cacheStore ⟨64, 16, .direct⟩ (mainStore 0x1000)) 0x24 4
        (Cache.reset 2 32, Cache.reset 4 16, []))
      (fun _ m => m.1.misses == 1 && m.1.hits == 0 && m.2.1.misses == 2 && m.2.1.hits == 0) = true := by decide

/-! ### Canonical memory -/

/-- A write of the byte that an unlisted address reads as removes the entry, and addresses stay rising. -/
theorem test_memory_canonical :
    Memory.writeByte [(4, 1), (9, 2)] 4 0 = [(9, 2)] ∧ Memory.writeByte [(4, 1), (9, 2)] 7 3 = [(4, 1), (7, 3), (9, 2)] ∧
    Memory.writeByte [(4, 1)] 4 5 = [(4, 5)] ∧ Memory.wf [(4, 1), (9, 2)] ∧ ¬ Memory.wf [(4, 0)] := by decide

/-! ### A state that meets the invariant

64 bytes of memory; L1I holds the block at 0, L1D a dirty block at 0x10 and a clean one at 0x20, L2 the block at 0x30. -/

/-- STR r1, [r2, #4]; the UNKNOWN word 0xE8BD0001; EOR r0, r1, #1; LDR r0, [r3]. -/
def witnessCode : List Byte := bytesLe32 0xE5821004 ++ bytesLe32 0xE8BD0001 ++ bytesLe32 0xE2210001 ++ bytesLe32 0xE5930000

def witnessConfig : Config :=
  { memSize := 64, dpImmMode := .imm8, l1i := { cap := 16, bs := 16, policy := .direct },
    l1d := { cap := 32, bs := 16, policy := .fullyAssociative }, l2 := { cap := 32, bs := 16, policy := .direct } }

/-- The witness state at a pc, in ARM or Thumb state. -/
def witness (pc : Word) (thumb : Bool) : State :=
  { cfg := witnessConfig, n := true, z := false, c := true, v := false, thumbMode := thumb,
    regs := regsWith [(1, 0xA1B2C3D4), (2, 0x14), (3, 0x40), (14, 0x202), (15, pc)],
    l1i := { lines := [{ zeroLine false 0 0 with data := witnessCode }], hits := 0, misses := 1, writeBacks := 0 },
    l1d := { lines := [{ zeroLine true 1 1 with data := 5 :: List.replicate 15 0 }, zeroLine false 2 0], hits := 0,
             misses := 2, writeBacks := 0 },
    l2  := { lines := [Line.reset 16, { zeroLine false 1 0 with data := 7 :: List.replicate 15 0 }], hits := 0,
             misses := 3, writeBacks := 0 },
    mem := [(0x30, 7)], surfaced := .nothing }

theorem witness_geometry : lineCount witnessConfig.l1i = 1 ∧ lineCount witnessConfig.l1d = 2 ∧ lineCount witnessConfig.l2 = 2 := by
  decide

theorem witness_configOk : ConfigOk witnessConfig := ⟨by decide, by decide, by decide, by decide, by decide⟩

theorem witness_l1i : CacheWf witnessConfig.l1i (witness 0 false).l1i where
  count := by decide
  size := by decide
  tagBound := by decide
  uniqueTag := fun h => by cases h
  uniqueRecency := fun h => by cases h
  directRecency := by decide

theorem witness_l1d : CacheWf witnessConfig.l1d (witness 0 false).l1d where
  count := by decide
  size := by decide
  tagBound := by decide
  uniqueTag := fun _ i j hi hj =>
    (by decide : ∀ i, i < 2 → ∀ j, j < 2 → ((witness 0 false).l1d.line i).valid = true →
      ((witness 0 false).l1d.line j).valid = true →
      ((witness 0 false).l1d.line i).tag = ((witness 0 false).l1d.line j).tag → i = j) i hi j hj
  uniqueRecency := fun _ i j hi hj =>
    (by decide : ∀ i, i < 2 → ∀ j, j < 2 → ((witness 0 false).l1d.line i).valid = true →
      ((witness 0 false).l1d.line j).valid = true →
      ((witness 0 false).l1d.line i).recency = ((witness 0 false).l1d.line j).recency → i = j) i hi j hj
  directRecency := fun h => by cases h

theorem witness_l2 : CacheWf witnessConfig.l2 (witness 0 false).l2 where
  count := by decide
  size := by decide
  tagBound := by decide
  uniqueTag := fun h => by cases h
  uniqueRecency := fun h => by cases h
  directRecency := by decide

theorem witness_inv_at_zero : (witness 0 false).Inv where
  config := witness_configOk
  memory := ⟨by decide, by decide⟩
  l2Shape := witness_l2
  l2Fits := by unfold LinesFit; decide
  l2Agree := by unfold CleanAgree; decide
  l1dShape := witness_l1d
  l1dFits := by unfold LinesFit L2Fits; decide
  l1dAgree := by unfold CleanAgree; decide
  l1iShape := witness_l1i
  l1iFits := by unfold LinesFit L2Fits; decide
  l1iClean := by unfold NoDirty; decide
  l1iWrites := rfl

theorem witness_inv (pc : Word) (thumb : Bool) : (witness pc thumb).Inv :=
  witness_inv_at_zero.congr rfl rfl rfl rfl rfl

/-- A launch that construction accepts, with a program byte and a register. -/
def witnessLaunch : Launch :=
  { cfg := witnessConfig, regInit := Vector.replicate 15 9, thumbInit := true, memInit := [(3, 1), (3, 2), (70, 4)] }

/-! ### For each statement with hypotheses, a state and operands that meet them -/

/-! #### Encoding and the step -/

theorem witness_decodeInvertsEncode :
    (Instr.thumbUnknown 0xFFFF).wellFormed = true ∧ (Instr.addImm ⟨15, true, 15, 15, 0xFFF⟩).wellFormed = true := by decide

/-- The rotate field at 0, imm8 at both ends. -/
theorem witness_dpImmediateByMode : fieldOf (0x000#12).toNat 11 8 = 0 ∧ fieldOf (0x0FF#12).toNat 11 8 = 0 := by decide

/-- A misaligned ARM pc. -/
theorem witness_stepRuns_armMisaligned :
    (witness 3 false).Inv ∧ (witness 3 false).thumbMode = false ∧ (witness 3 false).pc.toNat % 4 ≠ 0 :=
  ⟨witness_inv .., by decide, by decide⟩

/-- The last word of memory. -/
theorem witness_stepRuns_armFits :
    (witness 0x3C false).Inv ∧ (witness 0x3C false).thumbMode = false ∧ (witness 0x3C false).pc.toNat % 4 = 0 ∧
      FetchFits (witness 0x3C false).cfg (witness 0x3C false).pc.toNat :=
  ⟨witness_inv .., by decide, by decide, by unfold FetchFits L2Fits; decide⟩

/-- The first word above memory. -/
theorem witness_stepRuns_armShort :
    (witness 0x40 false).Inv ∧ (witness 0x40 false).thumbMode = false ∧ (witness 0x40 false).pc.toNat % 4 = 0 ∧
      ¬ FetchFits (witness 0x40 false).cfg (witness 0x40 false).pc.toNat :=
  ⟨witness_inv .., by decide, by decide, by unfold FetchFits L2Fits; decide⟩

theorem witness_stepRuns_thumbMisaligned :
    (witness 1 true).Inv ∧ (witness 1 true).thumbMode = true ∧ (witness 1 true).pc.toNat % 2 ≠ 0 :=
  ⟨witness_inv .., by decide, by decide⟩

/-- The last halfword of memory. -/
theorem witness_stepRuns_thumbFits :
    (witness 0x3E true).Inv ∧ (witness 0x3E true).thumbMode = true ∧ (witness 0x3E true).pc.toNat % 2 = 0 ∧
      FetchFits (witness 0x3E true).cfg ((witness 0x3E true).pc.toNat - (witness 0x3E true).pc.toNat % 4) :=
  ⟨witness_inv .., by decide, by decide, by unfold FetchFits L2Fits; decide⟩

theorem witness_stepRuns_thumbShort :
    (witness 0x40 true).Inv ∧ (witness 0x40 true).thumbMode = true ∧ (witness 0x40 true).pc.toNat % 2 = 0 ∧
      ¬ FetchFits (witness 0x40 true).cfg ((witness 0x40 true).pc.toNat - (witness 0x40 true).pc.toNat % 4) :=
  ⟨witness_inv .., by decide, by decide, by unfold FetchFits L2Fits; decide⟩

/-- A fetch that answers and one that fails, in ARM and in Thumb state: the low and the high half of a word, and an odd pc. -/
theorem witness_stepIsFetchDecodeExecute :
    ((witness 0x3C false).thumbMode = false ∧ (∃ x, fetchInstruction (witness 0x3C false).pc (witness 0x3C false) = .ok x ∧ true = true)) ∧
    (∃ f, fetchInstruction (witness 2 false).pc (witness 2 false) = .error f ∧ true = true) ∧
    ((witness 0 true).thumbMode = true ∧ fieldOf (witness 1 true).pc.toNat 0 0 = 1 ∧
      fieldOf (witness 0x3E true).pc.toNat 0 0 = 0 ∧ fieldOf (witness 0x3C true).pc.toNat 1 1 = 0 ∧
      fieldOf (witness 0x3E true).pc.toNat 1 1 = 1) ∧
    (∃ x, fetchInstruction (wrap (((witness 0x3E true).pc.toNat : Int) - (witness 0x3E true).pc.toNat % 4)) (witness 0x3E true)
      = .ok x ∧ true = true) ∧
    (∃ f, fetchInstruction (wrap (((witness 0x42 true).pc.toNat : Int) - (witness 0x42 true).pc.toNat % 4)) (witness 0x42 true)
      = .error f ∧ true = true) :=
  ⟨⟨by decide, okWith_elim (by decide)⟩, failsWith_elim (by decide), by decide, okWith_elim (by decide),
    failsWith_elim (by decide)⟩

theorem witness_misaligned_address : (0x102#32).toNat % 4 ≠ 0 ∧ (0xFFFFFFFF#32).toNat % 4 ≠ 0 := by decide

theorem witness_misaligned_thumbPc : (witness 0xFFFFFFFF true).thumbMode = true ∧ (witness 0xFFFFFFFF true).pc.toNat % 2 ≠ 0 := by
  decide

/-- MOV pc, lr with r14 = 0x202. -/
theorem witness_misaligned_leaves :
    (witness 0 false).pc.toNat % 4 = 0 ∧
      ∃ t, exec (decode (.arm 0xE1A0F00E)) (witness 0 false) = .next t ∧ (t.pc.toNat % 4 != 0) = true :=
  ⟨by decide, nextWith_elim (by decide)⟩

/-- LDR r0, [r3] with r3 = MEM_SIZE, at 0x0C. -/
theorem witness_outOfBounds :
    ∃ f, step (witness 0xC false) = .fault f ∧ (match f with | .outOfBounds a k _ => a == 0x40 && k == 16 | _ => false) = true :=
  faultWith_elim (by decide)

theorem witness_alignmentFault :
    ∃ f, step (witness 2 false) = .fault f ∧ (match f with | .alignmentFault a _ => a == 2 | _ => false) = true :=
  faultWith_elim (by decide)

/-- EOR r0, r1, #1 at 8. -/
theorem witness_operandAbsent :
    ∃ f, step (witness 8 false) = .fault f ∧ (match f with | .operandAbsent w _ => w == 0xE2210001 | _ => false) = true :=
  faultWith_elim (by decide)

/-- The hypotheses of `FaultIsPrecise`, and of the fault clauses of the invariant statements. -/
theorem witness_faultIsPrecise : (witness 0xC false).Inv ∧ ∃ f, step (witness 0xC false) = .fault f ∧ true = true :=
  ⟨witness_inv .., faultWith_elim (by decide)⟩

/-! #### Instructions -/

/-- A result written to r15 that differs from the pc, and one that equals it (R52); and a destination that is not r15. -/
theorem witness_writesResult :
    (∃ t, exec (.addImm ⟨14, false, 15, 15, 8⟩) (witness 0 false) = .next t ∧ (t.pc == 8) = true) ∧
    (∃ t, exec (.movReg ⟨14, false, 0, 15, 0, 15⟩) (witness 0 false) = .next t ∧ (t.pc == 4) = true) ∧
    (∃ t, exec (.addImm ⟨14, false, 1, 0, 0⟩) (witness 0 false) = .next t ∧ (t.reg 0 == 0xA1B2C3D4) = true) :=
  ⟨nextWith_elim (by decide), nextWith_elim (by decide), nextWith_elim (by decide)⟩

/-- An effective address that is not a multiple of 4. -/
theorem witness_loadStore_misaligned : (effectiveAddress ⟨14, true, true, false, false, 2, 0, 1⟩ (witness 0 false)).toNat % 4 ≠ 0 := by
  decide

/-- The last word of memory: r3 - 4, by a wrap. -/
theorem witness_loadStore_fits :
    (witness 0 false).Inv ∧ (effectiveAddress ⟨14, true, true, false, false, 2, 0, 0x28⟩ (witness 0 false)).toNat % 4 = 0 ∧
      DataFits (witness 0 false).cfg (effectiveAddress ⟨14, true, true, false, false, 2, 0, 0x28⟩ (witness 0 false)).toNat :=
  ⟨witness_inv .., by decide, by unfold DataFits L2Fits; decide⟩

/-- The first word above memory. -/
theorem witness_loadStore_short :
    (witness 0 false).Inv ∧ (effectiveAddress ⟨14, true, true, false, false, 3, 0, 0⟩ (witness 0 false)).toNat % 4 = 0 ∧
      ¬ DataFits (witness 0 false).cfg (effectiveAddress ⟨14, true, true, false, false, 3, 0, 0⟩ (witness 0 false)).toNat :=
  ⟨witness_inv .., by decide, by unfold DataFits L2Fits; decide⟩

/-- One word of each class that decodes to UNKNOWN. -/
theorem witness_isUnknownRaw :
    isUnknownRaw (.arm 0xE7921003) ∧ isUnknownRaw (.arm 0xE8BD0001) ∧ isUnknownRaw (.arm 0xEC000000) ∧
    isUnknownRaw (.arm 0xEF000000) ∧ isUnknownRaw (.thumb 0x2001) := by unfold isUnknownRaw; decide

/-- The UNKNOWN word at 4. -/
theorem witness_unknownRepeats :
    (witness 4 false).Inv ∧
      ∃ t, step (witness 4 false) = .next t ∧ (t.surfaced == .unknownOpcode (.arm 0xE8BD0001)) = true :=
  ⟨witness_inv .., nextWith_elim (by decide)⟩

/-! #### Flags, mode and report -/

/-- A store, which writes no flag; an ill-formed term; and a data-processing instruction. -/
theorem witness_onlyDataProcessing :
    isDataProcessing (.str ⟨14, true, true, false, false, 2, 1, 4⟩) = false ∧
    (∃ t, exec (.str ⟨14, true, true, false, false, 2, 1, 4⟩) (witness 0 false) = .next t ∧ true = true) ∧
    (Instr.thumbUnknown 0x1888).wellFormed = false ∧
    (∃ t, exec (.thumbUnknown 0x1888) (witness 0 false) = .next t ∧ true = true) ∧
    (Instr.thumbSubImm ⟨1, 0, 0⟩).wellFormed = true ∧ isDataProcessing (.thumbSubImm ⟨1, 0, 0⟩) = true ∧
    (∃ t, exec (.thumbSubImm ⟨1, 0, 0⟩) (witness 0 false) = .next t ∧ true = true) :=
  ⟨by decide, nextWith_elim (by decide), by decide, nextWith_elim (by decide), by decide, by decide,
    nextWith_elim (by decide)⟩

/-- Each host operation can answer a next state. -/
theorem witness_hostApply :
    (∃ t, hostApply (.writePc 3) (witness 0 false) = .next t ∧ true = true) ∧
    (∃ t, hostApply (.execute (.thumb 0x1888)) (witness 0 false) = .next t ∧ true = true) ∧
    (∃ t, hostApply (.fetchInstruction 0x10) (witness 0 false) = .next t ∧ true = true) ∧
    (∃ t, hostApply (.readData 0x30) (witness 0 false) = .next t ∧ true = true) ∧
    (∃ t, hostApply (.writeData 0x3C 1) (witness 0 false) = .next t ∧ true = true) ∧
    (∃ t, hostApply .step (witness 0 false) = .next t ∧ true = true) ∧
    (∃ f, hostApply (.readData 0x40) (witness 0 false) = .fault f ∧ true = true) :=
  ⟨nextWith_elim (by decide), nextWith_elim (by decide), nextWith_elim (by decide), nextWith_elim (by decide),
    nextWith_elim (by decide), nextWith_elim (by decide), faultWith_elim (by decide)⟩

/-- A run of two steps: the store at 0 and the UNKNOWN word at 4. -/
theorem witness_runs : ∃ t, Runs 2 (witness 0 false) t ∧ (t.surfaced == .unknownOpcode (.arm 0xE8BD0001)) = true :=
  nextWith_elim (r := Sys2Proof.core.run 2 (witness 0 false)) (by decide)

/-- A carry instruction at a state whose C the other state shares. -/
theorem witness_onlyCarry : readsCarry (.adcImm ⟨14, false, 1, 0, 0⟩) = true ∧ true = (witness 0 false).c := by decide

/-- A store that changes a word, a data-processing instruction that changes a register and the pc, and an UNKNOWN one. -/
theorem witness_report :
    (isUnknown (.str ⟨14, true, true, false, false, 2, 1, 4⟩) = false ∧
      ∃ t, exec (.str ⟨14, true, true, false, false, 2, 1, 4⟩) (witness 0 false) = .next t ∧
        (t.surfaced == .changed ⟨[15], some (0x18, 0, 0xA1B2C3D4)⟩) = true) ∧
    (isUnknown (.movImm ⟨14, false, 0, 1, 1⟩) = false ∧
      ∃ t, exec (.movImm ⟨14, false, 0, 1, 1⟩) (witness 0 false) = .next t ∧
        (t.surfaced == .changed ⟨[1, 15], none⟩) = true) ∧
    (isUnknown (.unknown100 ⟨14, 0x0BD0001⟩) = true ∧
      ∃ t, exec (.unknown100 ⟨14, 0x0BD0001⟩) (witness 0 false) = .next t ∧
        (t.surfaced == .unknownOpcode (.arm 0xE8BD0001)) = true) :=
  ⟨⟨by decide, nextWith_elim (by decide)⟩, ⟨by decide, nextWith_elim (by decide)⟩, ⟨by decide, nextWith_elim (by decide)⟩⟩

/-- An executed word that goes on, and one that faults. -/
theorem witness_executeLeavesL1I :
    (∃ t, hostExecute (.arm 0xE5821004) (witness 0 false) = .next t ∧ true = true) ∧
    (∃ f, hostExecute (.arm 0xE5930000) (witness 0 false) = .fault f ∧ true = true) :=
  ⟨nextWith_elim (by decide), faultWith_elim (by decide)⟩

/-! #### The invariant, construction and the loader -/

/-- A launch that construction accepts; a step from the state it builds answers (the halfword of zeros at 0 is UNKNOWN). -/
theorem witness_construct :
    1 ≤ witnessLaunch.cfg.memSize ∧ witnessLaunch.cfg.memSize ≤ 2 ^ 32 ∧
      ∃ s, construct witnessLaunch = .ok s ∧
        (s.mem == [(3, 2)] && s.reg 0 == 9 && s.thumbMode && nextWith (step s) (fun t => t.pc == 0)) = true :=
  ⟨by decide, by decide, builds_elim (by decide)⟩

/-- A launch whose L1D fails the second check of R66. -/
theorem witness_constructFails :
    construct { witnessLaunch with cfg := { witnessConfig with l1d := ⟨1000, 16, .direct⟩ } }
      = .error ⟨.l1d, .capacityDivisible⟩ := by rfl

theorem witness_stepKeepsInvariant :
    (witness 0 false).Inv ∧ ∃ t, step (witness 0 false) = .next t ∧ (t.dataWord 0x18 == 0xA1B2C3D4) = true :=
  ⟨witness_inv .., nextWith_elim (by decide)⟩

/-- Programs of the lengths 0, MEM_SIZE and MEM_SIZE + 1. -/
theorem witness_loader :
    ([] : List Byte).length ≤ witnessLaunch.cfg.memSize ∧ (List.replicate 64 (1 : Byte)).length ≤ witnessLaunch.cfg.memSize ∧
    witnessLaunch.cfg.memSize < (List.replicate 65 (1 : Byte)).length := by decide

/-! #### Memory and caches -/

/-- A canonical memory, and requests that end at MEM_SIZE and one byte above it. -/
theorem witness_mainMemory :
    Memory.wf [(0x30, 7)] ∧ 64 < 0x3D + 4 ∧ 0x3C + 4 ≤ 64 ∧ 64 < 64 + [(1 : Byte)].length ∧ 63 + [(1 : Byte)].length ≤ 64 := by
  decide

theorem witness_passes (k : ConfigCheck) : Passes witnessConfig.l1d k ∧ Passes witnessConfig.l2 k := by
  cases k <;> unfold Passes
  · exact ⟨⟨⟨4, by decide⟩, by decide⟩, ⟨4, by decide⟩, by decide⟩
  · decide
  · exact ⟨fun h => (by cases h), fun _ _ => ⟨1, by decide⟩⟩
  · decide

/-- The last word of a block, and a request that crosses into the next. -/
theorem witness_segments : 0 < witnessConfig.l2.bs ∧ 0xC % 4 = 0 ∧ segments witnessConfig.l2 0xE 4 = [(0xE, 2), (0x10, 2)] := by
  decide

/-- A block of an upper cache as large as L2's block, and one of four of them. -/
theorem witness_segments_blocks :
    PowerOfTwo witnessConfig.l2.bs ∧ PowerOfTwo 16 ∧ 0x30 % 16 = 0 ∧ 16 ≤ witnessConfig.l2.bs ∧
    PowerOfTwo 64 ∧ 0x40 % 64 = 0 ∧ witnessConfig.l2.bs < 64 :=
  ⟨⟨4, by decide⟩, ⟨4, by decide⟩, by decide, by decide, ⟨6, by decide⟩, by decide, by decide⟩

/-- A direct-mapped cache with its address's own slot, a fully-associative one with any slot, and the largest tag. -/
theorem witness_lineAddress :
    lineCount witnessConfig.l2 ≠ 0 ∧ witnessConfig.l2.policy = .direct ∧ 1 = indexOf witnessConfig.l2 0x3C ∧
    lineCount witnessConfig.l1d ≠ 0 ∧ witnessConfig.l1d.policy ≠ .direct ∧
    1 < lineCount witnessConfig.l2 ∧ 2 ^ 27 - 1 < 2 ^ tagBits witnessConfig.l2 := by decide

/-- A fully-associative cache with an invalid line, and a full one. -/
theorem witness_victim :
    witnessConfig.l2.policy = .direct ∧ witnessConfig.l1d.policy = .fullyAssociative ∧
    (Cache.reset 2 16).lines ≠ [] ∧ (∃ l ∈ (Cache.reset 2 16).lines, l.valid = false) ∧
    (witness 0 false).l1d.lines ≠ [] ∧ (∀ l ∈ (witness 0 false).l1d.lines, l.valid = true) := by decide

/-- In the full L1D, of two lines: an access to 0x10, which hits in slot 0, and one to 0x30, which misses, writes the dirty
line of slot 0 back and fills it; after both every line is valid. -/
theorem witness_access_fullyAssociative :
    witnessConfig.l1d.policy = .fullyAssociative ∧ 2 ≤ lineCount witnessConfig.l1d ∧
    (witness 0 false).l1d.lines.length = lineCount witnessConfig.l1d ∧
    lookup witnessConfig.l1d (witness 0 false).l1d 0x10 = some 0 ∧
    lookup witnessConfig.l1d (witness 0 false).l1d 0x30 = none ∧
    (∃ slot m, access witnessConfig.l1d (l2Store witnessConfig) 0x10 (witness 0 false).dataSide = .ok slot m ∧
      (slot == 0 && m.1.lines.all (fun l => l.valid) && m.1.writeBacks == 0) = true) ∧
    (∃ slot m, access witnessConfig.l1d (l2Store witnessConfig) 0x30 (witness 0 false).dataSide = .ok slot m ∧
      (slot == 0 && m.1.lines.all (fun l => l.valid) && m.1.writeBacks == 1) = true) :=
  ⟨by decide, by decide, by decide, by decide, by decide, answers_elim (by decide), answers_elim (by decide)⟩

/-- In a fully-associative cache of two invalid lines, an access fills the first and leaves the other invalid. -/
theorem witness_access_invalid :
    (Cache.reset 2 16).lines.length = lineCount witnessConfig.l1d ∧
    ∃ slot m, access witnessConfig.l1d (mainStore 64) 0 (Cache.reset 2 16, []) = .ok slot m ∧
      (slot == 0 && !(m.1.line 1).valid) = true :=
  ⟨by decide, answers_elim (by decide)⟩

/-- In the direct-mapped L2: a miss whose victim is invalid, and a hit. -/
theorem witness_access_direct :
    witnessConfig.l2.policy = .direct ∧ lineCount witnessConfig.l2 ≠ 0 ∧
    (witness 0 false).l2.lines.length = lineCount witnessConfig.l2 ∧
    indexOf witnessConfig.l2 0 < lineCount witnessConfig.l2 ∧ indexOf witnessConfig.l2 0x30 < lineCount witnessConfig.l2 ∧
    (∃ slot m, access witnessConfig.l2 (mainStore 64) 0 ((witness 0 false).l2, (witness 0 false).mem) = .ok slot m ∧
      (m.1.misses == 4) = true) ∧
    (∃ slot m, access witnessConfig.l2 (mainStore 64) 0x30 ((witness 0 false).l2, (witness 0 false).mem) = .ok slot m ∧
      (m.1.hits == 1) = true) :=
  ⟨by decide, by decide, by decide, by decide, by decide, answers_elim (by decide), answers_elim (by decide)⟩

/-- A read and a write of two segments through L2, and a read and a write through a zero-line cache, each of which
answers. -/
theorem witness_requests :
    lineCount witnessConfig.l2 ≠ 0 ∧ lineCount flatConfig.l2 = 0 ∧
    (∃ x m, cacheRead witnessConfig.l2 (mainStore 64) 0xE 4 ((witness 0 false).l2, (witness 0 false).mem) = .ok x m ∧
      (m.1.misses == 5) = true) ∧
    (∃ x m, cacheWrite witnessConfig.l2 (mainStore 64) 0x1E [1, 2, 3, 4] ((witness 0 false).l2, (witness 0 false).mem)
      = .ok x m ∧ (m.1.misses == 5) = true) ∧
    (∃ x m, cacheRead flatConfig.l2 (mainStore 64) 0x3C 4 (Cache.reset 0 16, []) = .ok x m ∧ (m.1.misses == 1) = true) ∧
    (∃ x m, cacheWrite flatConfig.l2 (mainStore 64) 0x3C [1] (Cache.reset 0 16, []) = .ok x m ∧ (m.1.misses == 1) = true) :=
  ⟨by decide, by decide, answers_elim (by decide), answers_elim (by decide), answers_elim (by decide),
    answers_elim (by decide)⟩

/-- A fetch that misses, a read that misses and evicts the dirty line, and a write that hits, each of which answers. -/
theorem witness_accesses :
    (witness 0 false).Inv ∧
    (∃ x, fetchInstruction 0x30 (witness 0 false) = .ok x ∧ (x.1 == 7) = true) ∧
    (∃ x, readData 0x30 (witness 0 false) = .ok x ∧ (x.1 == 7 && x.2.l1d.writeBacks == 1) = true) ∧
    (∃ t, writeData 0x10 1 (witness 0 false) = .ok t ∧ (t.dataWord 0x10 == 1) = true) :=
  ⟨witness_inv .., okWith_elim (by decide), okWith_elim (by decide), okWith_elim (by decide)⟩

/-- A write, a read that evicts it, and a read that brings it back. -/
theorem witness_cachesRefine :
    (witness 0 false).Inv ∧
      ∃ x, cachedRun [.write 0x10 1, .read 0x30, .read 0x00, .read 0x10] (witness 0 false) = .ok x ∧ (x.1 == [7, 0, 1]) = true :=
  ⟨witness_inv .., okWith_elim (by decide)⟩

/-- The store at 0 changes the byte at 0x18. -/
theorem witness_onlyStr :
    (witness 0 false).Inv ∧
      ∃ t, step (witness 0 false) = .next t ∧ (t.dataByte 0x18 != (witness 0 false).dataByte 0x18) = true :=
  ⟨witness_inv .., nextWith_elim (by decide)⟩

/-- The lengths that `WordAccessCountsOnce` and `L2CountsItsRequests` ask for; `witness_accesses` has the accesses, among
them a hit (the write) and a miss with a dirty victim (the read). -/
theorem witness_counts :
    ConfigOk (witness 0 false).cfg ∧ (witness 0 false).l1i.lines.length = lineCount (witness 0 false).cfg.l1i ∧
      (witness 0 false).l1d.lines.length = lineCount (witness 0 false).cfg.l1d :=
  ⟨witness_configOk, by decide, by decide⟩

/-- A cache with lines, a read and a write that answer, and an address that L1D holds. -/
theorem witness_storeAndSecondRead :
    (witness 0 false).Inv ∧ lineCount (witness 0 false).cfg.l1d ≠ 0 ∧
      (lookup (witness 0 false).cfg.l1d (witness 0 false).l1d (0x10#32).toNat).isSome = true :=
  ⟨witness_inv .., by decide, by decide⟩

/-- The flat variant at the last word of its memory. -/
theorem witness_flat :
    (start 0 []).cfg.l1i.cap = 0 ∧ (start 0 []).cfg.l1d.cap = 0 ∧ (start 0 []).cfg.l2.cap = 0 ∧
    (0xFFC#32).toNat % 4 = 0 ∧ (0xFFC#32).toNat + 4 ≤ (start 0 []).cfg.memSize ∧ Memory.wf (start 0 []).mem := by decide

/-- A store to the block that L1I holds: the fetch still gives the old word (D23). -/
theorem witness_stale :
    (witness 0 false).Inv ∧ (lookup (witness 0 false).cfg.l1i (witness 0 false).l1i (4#32).toNat).isSome = true ∧
    (4#32).toNat % 4 = 0 ∧
      ∃ t, writeData 4 0 (witness 0 false) = .ok t ∧
        okWith (fetchInstruction 4 t) (fun x => x.1 == 0xE8BD0001) = true :=
  ⟨witness_inv .., by decide, by decide, okWith_elim (by decide)⟩

/-- A run that faults nowhere and misses somewhere. -/
theorem witness_statistics : (witness 0x10 false).Inv ∧ ∃ t, Runs 1 (witness 0x10 false) t ∧ (t.l1i.misses == 2) = true :=
  ⟨witness_inv .., nextWith_elim (r := Sys2Proof.core.run 1 (witness 0x10 false)) (by decide)⟩

end Sys2Proof.Tests
end

/-! ## Scope: a step ends in a next state or in a fault that tells its cause (00_scope.md R11, 60_exceptions.md R202 to R208) -/

/-! ### An `OutOfBounds` comes from main memory, whatever caches stand above it -/

namespace Sys2Proof.Machine

/-- If the request failed, it records a request beyond `bound` (R205). -/
def Access.NamesBeyond {σ α : Type} (bound : Nat) : Access σ α → Prop
  | .ok _ _            => True
  | .outOfBounds a k _ => bound < a + k

theorem Access.NamesBeyond.lt {σ α : Type} {bound a k : Nat} {r : Access σ α} {m : σ} (h : r.NamesBeyond bound)
    (e : r = .outOfBounds a k m) : bound < a + k := by
  subst e
  exact h

/-- Whatever its state, the level fails only with a record of a request beyond `bound` (R205). -/
structure Store.FailsBeyond {σ : Type} (bound : Nat) (S : Store σ) : Prop where
  read  : ∀ a k s, (S.read a k s).NamesBeyond bound
  write : ∀ a b s, (S.write a b s).NamesBeyond bound

theorem mainStore_failsBeyond (memSize : Nat) : (mainStore memSize).FailsBeyond memSize where
  read a k m := by
    simp only [mainStore, mainRead]
    split
    next h => exact h
    next => trivial
  write a b m := by
    simp only [mainStore, mainWrite]
    split
    next h => exact h
    next => trivial

section
variable {σ : Type} {C : CacheConfig} {low : Store σ} {bound : Nat} (hlow : low.FailsBeyond bound)
include hlow

theorem writeBack_namesBeyond (slot : Nat) (cs : Cache × σ) : (writeBack C low slot cs).NamesBeyond bound := by
  unfold writeBack
  split
  · split
    next => trivial
    next e => exact (hlow.write _ _ _).lt e
  · trivial

theorem fill_namesBeyond (a slot : Nat) (cs : Cache × σ) : (fill C low a slot cs).NamesBeyond bound := by
  unfold fill
  split
  next => trivial
  next e => exact (hlow.read _ _ _).lt e

theorem miss_namesBeyond (a : Nat) (cs : Cache × σ) : (miss C low a cs).NamesBeyond bound := by
  unfold miss
  split
  next cs1 _ => exact fill_namesBeyond hlow a _ cs1
  next e => exact (writeBack_namesBeyond hlow _ cs).lt e

theorem access_namesBeyond (a : Nat) (cs : Cache × σ) : (access C low a cs).NamesBeyond bound := by
  unfold access
  split
  next => trivial
  next => exact miss_namesBeyond hlow a _

theorem readSegments_namesBeyond (segs : List (Nat × Nat)) (cs : Cache × σ) :
    (readSegments C low segs cs).NamesBeyond bound := by
  induction segs generalizing cs with
  | nil => trivial
  | cons seg rest ih =>
    unfold readSegments
    split
    next e => exact (access_namesBeyond hlow _ cs).lt e
    next cs1 _ =>
      split
      next e => exact (ih cs1).lt e
      next => trivial

theorem writeSegments_namesBeyond (segs : List (Nat × Nat)) (bytes : List Byte) (cs : Cache × σ) :
    (writeSegments C low segs bytes cs).NamesBeyond bound := by
  induction segs generalizing bytes cs with
  | nil => trivial
  | cons seg rest ih =>
    unfold writeSegments
    split
    next e => exact (access_namesBeyond hlow _ cs).lt e
    next => exact ih _ _

theorem zeroLineRead_namesBeyond (a k : Nat) (cs : Cache × σ) : (zeroLineRead low a k cs).NamesBeyond bound := by
  unfold zeroLineRead
  split
  next => trivial
  next e => exact (hlow.read _ _ _).lt e

theorem zeroLineWrite_namesBeyond (a : Nat) (bytes : List Byte) (cs : Cache × σ) :
    (zeroLineWrite low a bytes cs).NamesBeyond bound := by
  unfold zeroLineWrite
  split
  next => trivial
  next e => exact (hlow.write _ _ _).lt e

/-- A cache only passes on the failures of the level below it (R70 to R82). -/
theorem cacheStore_failsBeyond : (cacheStore C low).FailsBeyond bound where
  read a k cs := by
    simp only [cacheStore, cacheRead]
    split
    next => exact zeroLineRead_namesBeyond hlow a k cs
    next => exact readSegments_namesBeyond hlow _ cs
  write a b cs := by
    simp only [cacheStore, cacheWrite]
    split
    next => exact zeroLineWrite_namesBeyond hlow a b cs
    next => exact writeSegments_namesBeyond hlow _ b cs

end

theorem l2Store_failsBeyond (cfg : Config) : (l2Store cfg).FailsBeyond cfg.memSize :=
  cacheStore_failsBeyond (mainStore_failsBeyond cfg.memSize)

theorem l1iStore_failsBeyond (cfg : Config) : (l1iStore cfg).FailsBeyond cfg.memSize :=
  cacheStore_failsBeyond (l2Store_failsBeyond cfg)

theorem l1dStore_failsBeyond (cfg : Config) : (l1dStore cfg).FailsBeyond cfg.memSize :=
  cacheStore_failsBeyond (l2Store_failsBeyond cfg)

/-! ### The causes of the faults -/

open Sys2Proof.Statements

/-- The information a fault records implies its cause, in a machine with this much memory (R202, R205, R207, R208). -/
def Fault.TellsCause (memSize : Nat) : Fault → Prop
  | .outOfBounds a k _  => memSize < a + k
  | .alignmentFault a _ => a.toNat % 4 ≠ 0
  | .operandAbsent w _  =>
    fieldOf w.toNat 27 25 = 1 ∧ (fieldOf w.toNat 24 21 = 1 ∨ fieldOf w.toNat 24 21 = 9)

variable {s : State} {a v : Word} {fault : Fault}

theorem fetchInstruction_error (h : fetchInstruction a s = .error fault) : fault.TellsCause s.cfg.memSize := by
  unfold fetchInstruction at h
  split at h
  next =>
    split at h
    next => cases h
    next e => cases h; exact ((l1iStore_failsBeyond s.cfg).read _ _ _).lt e
  next ha => cases h; exact mt wordAligned_iff.2 ha

theorem readData_error (h : readData a s = .error fault) : fault.TellsCause s.cfg.memSize := by
  unfold readData at h
  split at h
  next =>
    split at h
    next => cases h
    next e => cases h; exact ((l1dStore_failsBeyond s.cfg).read _ _ _).lt e
  next ha => cases h; exact mt wordAligned_iff.2 ha

theorem writeData_error (h : writeData a v s = .error fault) : fault.TellsCause s.cfg.memSize := by
  unfold writeData at h
  split at h
  next =>
    split at h
    next => cases h
    next e => cases h; exact ((l1dStore_failsBeyond s.cfg).write _ _ _).lt e
  next ha => cases h; exact mt wordAligned_iff.2 ha

/-- A step's fetch raises at an odd Thumb pc, or answers or raises as the hierarchy's fetch does (R51). -/
theorem fetchRaw_cases (s : State) :
    (s.pc.toNat % 2 ≠ 0 ∧ fetchRaw s = .error (.alignmentFault s.pc s)) ∨
    (∃ a fault, fetchInstruction a s = .error fault ∧ fetchRaw s = .error fault) ∨
    (∃ a w raw t, fetchInstruction a s = .ok (w, t) ∧ fetchRaw s = .ok (raw, t)) := by
  unfold fetchRaw
  split
  next =>
    split
    next hodd => exact .inl ⟨by simpa [bit_zero] using hodd, rfl⟩
    next =>
      split
      next e => exact .inr (.inr ⟨_, _, _, _, e, rfl⟩)
      next e => exact .inr (.inl ⟨_, _, e, rfl⟩)
  next =>
    split
    next e => exact .inr (.inr ⟨_, _, _, _, e, rfl⟩)
    next e => exact .inr (.inl ⟨_, _, e, rfl⟩)

/-! ### Execution -/

/-- `raw[hi:lo]` of a word's number is the number of the field (R8). -/
theorem fieldOf_toNat {n : Nat} (w : BitVec n) (lo len : Nat) :
    fieldOf w.toNat (lo + len) lo = (field w lo (len + 1)).toNat := by
  simp [fieldOf, field, BitVec.extractLsb'_toNat, Nat.shiftRight_eq_div_pow]

/-- The group and the opcode of an encoded DP_IMM word (R113, R114). -/
theorem fieldOf_encodeDpImm (opcode : BitVec 4) (f : DpImm) :
    fieldOf (encodeDpImm opcode f).toNat 27 25 = 1 ∧ fieldOf (encodeDpImm opcode f).toNat 24 21 = opcode.toNat := by
  constructor
  · rw [fieldOf_toNat _ 25 2, dpImm_group]; rfl
  · rw [fieldOf_toNat _ 21 3, dpImm_opcode]

/-- The outcome is a next state or a fault that tells its cause (R11, R202). -/
def NextOrTellingFault (memSize : Nat) : Result → Prop
  | .next _      => True
  | .fault fault => fault.TellsCause memSize
  | .refused _   => False

theorem execStr_nextOrTellingFault (f : LoadStore) (s : State) : NextOrTellingFault s.cfg.memSize (execStr f s) := by
  unfold execStr
  split
  next => trivial
  next e => exact writeData_error e

theorem execLdr_nextOrTellingFault (f : LoadStore) (s : State) : NextOrTellingFault s.cfg.memSize (execLdr f s) := by
  unfold execLdr
  split
  next => trivial
  next e => exact readData_error e

/-- Only STR, LDR, and EOR and TEQ with an immediate can fault; every other arm answers a next state as it is written. -/
theorem exec_nextOrTellingFault (i : Instr) (s : State) : NextOrTellingFault s.cfg.memSize (exec i s) := by
  cases i with
  | eorImm f => exact ⟨(fieldOf_encodeDpImm 1 f).1, .inl (fieldOf_encodeDpImm 1 f).2⟩
  | teqImm f => exact ⟨(fieldOf_encodeDpImm 9 f).1, .inr (fieldOf_encodeDpImm 9 f).2⟩
  | str f => exact execStr_nextOrTellingFault f s
  | ldr f => exact execLdr_nextOrTellingFault f s
  | _ => trivial

theorem step_nextOrTellingFault (s : State) : NextOrTellingFault s.cfg.memSize (step s) := by
  unfold step
  obtain ⟨hodd, e⟩ | ⟨a, fault, hf, e⟩ | ⟨a, w, raw, t, hf, e⟩ := fetchRaw_cases s <;> rw [e]
  · show s.pc.toNat % 4 ≠ 0
    omega
  · exact fetchInstruction_error hf
  · obtain ⟨-, -, k, -, rfl, -⟩ := fetchInstruction_ok hf
    exact exec_nextOrTellingFault (decode raw) (s.withInstrSide k)

end Sys2Proof.Machine

namespace Sys2Proof.Proofs

open Sys2Proof.Machine

/-- Settles O11: the fetch and the arms of `exec` raise only faults whose record tells their cause, and refuse nothing. -/
theorem faultsNameTheirCause : Obligations.FaultsNameTheirCause := by
  intro s
  have h := step_nextOrTellingFault s
  refine ⟨fun r e => ?_, fun a k t e => ?_, fun a t e => ?_, fun w t e => ?_⟩ <;> rw [e] at h <;> exact h

end Sys2Proof.Proofs

/-! ## State: what a step, an instruction and a host operation change, and what they keep (10_state.md R20 to R57) -/

/-! ### Classes of instructions -/

namespace Sys2Proof.Machine

open Sys2Proof.Statements

theorem isDataProcessing_of_dpImm {i : Instr} {opcode : BitVec 4} {f : DpImm}
    (h : encode i = .arm (encodeDpImm opcode f)) : isDataProcessing i = true := by
  simp [isDataProcessing, h, (fieldOf_encodeDpImm opcode f).1]

theorem isDataProcessing_of_dpReg {i : Instr} {opcode : BitVec 4} {f : DpReg}
    (h : encode i = .arm (encodeDpReg opcode f)) : isDataProcessing i = true := by
  simp [isDataProcessing, h, fieldOf_toNat _ 25 2, dpReg_group]

theorem isDataProcessing_of_thumbReg {i : Instr} {op : Bool} {f : ThumbReg}
    (h : encode i = .thumb (encodeThumbReg op f)) : isDataProcessing i = true := by
  simp [isDataProcessing, h, fieldOf_toNat _ 11 4, thumbReg_format]

theorem isDataProcessing_of_thumbImm {i : Instr} {op : Bool} {f : ThumbImm}
    (h : encode i = .thumb (encodeThumbImm op f)) : isDataProcessing i = true := by
  simp [isDataProcessing, h, fieldOf_toNat _ 11 4, thumbImm_format]

/-- An ARM word of another group than 000 and 001 is not data processing (R113). -/
theorem isDataProcessing_of_group {i : Instr} {w : Word} {g : BitVec 3} (h : encode i = .arm w)
    (hw : field w 25 3 = g) (hg : 1 < g.toNat) : isDataProcessing i = false := by
  simp [isDataProcessing, h, fieldOf_toNat _ 25 2, hw, hg]

/-- An UNKNOWN instruction stands for a word that is not data processing (R113, R127). -/
theorem isDataProcessing_of_isUnknown {i : Instr} (h : isUnknown i = true) (hw : i.wellFormed = true) :
    isDataProcessing i = false := by
  cases i with
  | unknown011 f => exact isDataProcessing_of_group rfl (armUnknown_group _ f) (by decide)
  | unknown100 f => exact isDataProcessing_of_group rfl (armUnknown_group _ f) (by decide)
  | unknown110 f => exact isDataProcessing_of_group rfl (armUnknown_group _ f) (by decide)
  | unknown111 f => exact isDataProcessing_of_group rfl (armUnknown_group _ f) (by decide)
  | thumbUnknown raw =>
    have : field raw 11 5 ≠ 3#5 := bne_iff_ne.1 hw
    simpa [isDataProcessing, encode, fieldOf_toNat _ 11 4, ← BitVec.toNat_inj] using this
  | _ => cases h

theorem wellFormed_of_not_isUnknown {i : Instr} (h : isUnknown i = false) : i.wellFormed = true := by
  cases i with
  | thumbUnknown raw => cases h
  | _ => rfl

/-! ### What an arm of `exec` is -/

/-- A handler's result reads no flag, or C alone where `carry` says so (R32). -/
def ReadsAtMostCarry (carry : Bool) (res : State → Word) : Prop :=
  ∀ s n z c v, (carry = true → c = s.c) → res (withFlags s n z c v) = res s

/-- Each instruction is one call of one shared operation of the envelope (R50, R55, R141, R159), LDR, STR, B or BL. -/
inductive ExecCases (i : Instr) : Prop
  | writes (thumb : Bool) (rd : Reg) (res : State → Word) (dp : isDataProcessing i = true)
      (known : isUnknown i = false) (reads : ReadsAtMostCarry (readsCarry i) res)
      (run : ∀ s, exec i s = writeResult thumb rd (res s) s)
  | compares (res : State → Word) (dp : isDataProcessing i = true) (known : isUnknown i = false)
      (reads : ReadsAtMostCarry (readsCarry i) res) (run : ∀ s, exec i s = compareResult (res s) s)
  | absent (w : Word) (dp : isDataProcessing i = true) (run : ∀ s, exec i s = raiseOperandAbsent w s)
  | stores (f : LoadStore) (eq : i = .str f)
  | loads (f : LoadStore) (eq : i = .ldr f)
  | branches (f : Branch) (eq : i = .b f)
  | links (f : Branch) (eq : i = .bl f)
  | unknown (cls : isUnknown i = true) (run : ∀ s, exec i s = reportUnknown (encode i) s)

theorem exec_cases (i : Instr) : ExecCases i := by
  cases i with
  | eorImm f | teqImm f => exact .absent _ (isDataProcessing_of_dpImm rfl) fun _ => rfl
  | tstImm f | cmpImm f | cmnImm f =>
    exact .compares _ (isDataProcessing_of_dpImm rfl) rfl (fun _ _ _ _ _ _ => rfl) fun _ => rfl
  | tstReg f | teqReg f | cmpReg f | cmnReg f =>
    exact .compares _ (isDataProcessing_of_dpReg rfl) rfl (fun _ _ _ _ _ _ => rfl) fun _ => rfl
  | andImm f | subImm f | rsbImm f | addImm f | orrImm f | movImm f | bicImm f | mvnImm f =>
    exact .writes _ _ _ (isDataProcessing_of_dpImm rfl) rfl (fun _ _ _ _ _ _ => rfl) fun _ => rfl
  | andReg f | eorReg f | subReg f | rsbReg f | addReg f | orrReg f | movReg f | bicReg f | mvnReg f =>
    exact .writes _ _ _ (isDataProcessing_of_dpReg rfl) rfl (fun _ _ _ _ _ _ => rfl) fun _ => rfl
  | adcImm f | sbcImm f | rscImm f =>
    exact .writes _ _ _ (isDataProcessing_of_dpImm rfl) rfl
      (fun _ _ _ _ _ hc => by obtain rfl := hc rfl; rfl) fun _ => rfl
  | adcReg f | sbcReg f | rscReg f =>
    exact .writes _ _ _ (isDataProcessing_of_dpReg rfl) rfl
      (fun _ _ _ _ _ hc => by obtain rfl := hc rfl; rfl) fun _ => rfl
  | thumbAddReg f | thumbSubReg f =>
    exact .writes _ _ _ (isDataProcessing_of_thumbReg rfl) rfl (fun _ _ _ _ _ _ => rfl) fun _ => rfl
  | thumbAddImm f | thumbSubImm f =>
    exact .writes _ _ _ (isDataProcessing_of_thumbImm rfl) rfl (fun _ _ _ _ _ _ => rfl) fun _ => rfl
  | str f => exact .stores f rfl
  | ldr f => exact .loads f rfl
  | b f => exact .branches f rfl
  | bl f => exact .links f rfl
  | unknown011 | unknown100 | unknown110 | unknown111 | thumbUnknown => exact .unknown rfl fun _ => rfl

/-! ### What every state that an outcome leaves satisfies -/

/-- The state an outcome leaves, a next state or that of a fault (R210), satisfies P. -/
def Leaves (P : State → Prop) : Result → Prop
  | .next t    => P t
  | .fault f   => P f.left
  | .refused _ => True

theorem Leaves.next {P : State → Prop} {r : Result} {t : State} (h : Leaves P r) (e : r = .next t) : P t := by
  subst e
  exact h

theorem Leaves.fault {P : State → Prop} {r : Result} {f : Fault} (h : Leaves P r) (e : r = .fault f) : P f.left := by
  subst e
  exact h

theorem Leaves.mono {P Q : State → Prop} {r : Result} (h : Leaves P r) (hpq : ∀ t, P t → Q t) : Leaves Q r := by
  cases r with
  | next t => exact hpq t h
  | fault f => exact hpq f.left h
  | refused _ => trivial

section
variable {P : State → Prop} {s : State}

/-- A fetch leaves the state itself or one with another instruction side. -/
theorem fetchInstruction_leaves (a : Word) (hs : P s) (h : ∀ k, P (s.withInstrSide k)) :
    Leaves P (outcomeOfAccess (fetchInstruction a s)) := by
  unfold fetchInstruction
  split
  · split <;> exact h _
  · exact hs

/-- A data read leaves the state itself or one with another data side. -/
theorem readData_leaves (a : Word) (hs : P s) (h : ∀ k, P (s.withDataSide k)) :
    Leaves P (outcomeOfAccess (readData a s)) := by
  unfold readData
  split
  · split <;> exact h _
  · exact hs

/-- A data write leaves the state itself or one with another data side. -/
theorem writeData_leaves (a v : Word) (hs : P s) (h : ∀ k, P (s.withDataSide k)) :
    Leaves P (outcomeOfAccess ((writeData a v s).map fun t => ((), t))) := by
  unfold writeData
  split
  · split <;> exact h _
  · exact hs

/-- The envelope changes the PC and the report only (R52, R56). -/
theorem finish_onlyRegsAndNZ (thumb : Bool) (target : Option Word) (before after : State) :
    OnlyRegsAndNZ after (finish thumb target before after) :=
  .mk' (by simp) (by simp) (by simp) (by simp) ⟨by simp, by simp, by simp, by simp⟩

theorem setReg_onlyRegsAndNZ (s : State) (r : Reg) (v : Word) : OnlyRegsAndNZ s (s.setReg r v) :=
  .mk' rfl rfl rfl rfl ⟨rfl, rfl, rfl, rfl⟩

/-- What holds of a state, is kept by a change of registers, N, Z and report, and is kept by a data access, holds of every
state that an instruction leaves. -/
theorem exec_leaves (i : Instr) (hs : P s) (same : ∀ t u, P t → OnlyRegsAndNZ t u → P u)
    (read : ∀ a, Leaves P (outcomeOfAccess (readData a s)))
    (write : ∀ a v, Leaves P (outcomeOfAccess ((writeData a v s).map fun t => ((), t)))) : Leaves P (exec i s) := by
  cases exec_cases i with
  | writes thumb rd res _ _ _ run =>
    obtain ⟨t, e, w⟩ := writeResult_spec thumb rd (res s) s
    rw [run, e]
    exact same _ _ hs w.rest
  | compares res _ _ _ run =>
    obtain ⟨t, e, w⟩ := compareResult_spec (res s) s
    rw [run, e]
    exact same _ _ hs w.rest
  | absent w _ run => rw [run]; exact hs
  | stores f eq =>
    subst eq
    have h := write (effectiveAddress f s) (s.reg f.rd)
    simp only [exec, execStr]
    split
    next e => rw [e] at h; exact same _ _ h (finish_onlyRegsAndNZ ..)
    next e => rw [e] at h; exact h
  | loads f eq =>
    subst eq
    have h := read (effectiveAddress f s)
    simp only [exec, execLdr]
    split
    next e => rw [e] at h; exact same _ _ (same _ _ h (setReg_onlyRegsAndNZ ..)) (finish_onlyRegsAndNZ ..)
    next e => rw [e] at h; exact h
  | branches f eq =>
    subst eq
    exact same _ _ (same _ _ hs (setReg_onlyRegsAndNZ s pcReg _)) (finish_onlyRegsAndNZ ..)
  | links f eq =>
    subst eq
    have hlr := same _ _ hs (setReg_onlyRegsAndNZ s lrReg (s.pc + 4))
    exact same _ _ (same _ _ hlr (setReg_onlyRegsAndNZ _ pcReg _)) (finish_onlyRegsAndNZ ..)
  | unknown _ run => rw [run]; exact same _ _ hs (.mk' rfl rfl rfl rfl ⟨rfl, rfl, rfl, rfl⟩)

/-- What holds of every state that the fetch of a step leaves, and of every state that an instruction leaves after it,
holds of every state that the step leaves. -/
theorem step_leaves (odd : P s) (fetch : ∀ a, Leaves P (outcomeOfAccess (fetchInstruction a s)))
    (run : ∀ i t, P t → Leaves P (exec i t)) : Leaves P (step s) := by
  unfold step
  obtain ⟨-, e⟩ | ⟨a, fault, hf, e⟩ | ⟨a, w, raw, t, hf, e⟩ := fetchRaw_cases s <;> rw [e]
  · exact odd
  · have h := fetch a
    rw [hf] at h
    exact h
  · have h := fetch a
    rw [hf] at h
    exact run _ t h

end

/-! ### The invariant -/

section
variable {s : State}

theorem fetchInstruction_leaves_inv (hs : s.Inv) (a : Word) :
    Leaves State.Inv (outcomeOfAccess (fetchInstruction a s)) := by
  cases ha : wordAligned a with
  | false => rw [(access_misaligned ha 0).1]; exact hs
  | true =>
    by_cases hf : FetchFits s.cfg a.toNat
    · obtain ⟨k, e, h, -⟩ := fetchInstruction_fits hs ha hf
      rw [e]; exact h
    · obtain ⟨x, j, k, e, h, -⟩ := fetchInstruction_short hs ha hf
      rw [e]; exact h

theorem readData_leaves_inv (hs : s.Inv) (a : Word) : Leaves State.Inv (outcomeOfAccess (readData a s)) := by
  cases ha : wordAligned a with
  | false => rw [(access_misaligned ha 0).2.1]; exact hs
  | true =>
    by_cases hf : DataFits s.cfg a.toNat
    · obtain ⟨k, e, h, -⟩ := readData_fits hs ha hf
      rw [e]; exact h
    · obtain ⟨x, j, k, e, h, -⟩ := readData_short hs ha hf
      rw [e]; exact h

theorem writeData_leaves_inv (hs : s.Inv) (a v : Word) :
    Leaves State.Inv (outcomeOfAccess ((writeData a v s).map fun t => ((), t))) := by
  cases ha : wordAligned a with
  | false => rw [(access_misaligned ha v).2.2]; exact hs
  | true =>
    by_cases hf : DataFits s.cfg a.toNat
    · obtain ⟨k, e, h, -⟩ := writeData_fits hs v ha hf
      rw [e]; exact h
    · obtain ⟨x, j, k, e, h, -⟩ := writeData_short hs v ha hf
      rw [e]; exact h

theorem State.Inv.onlyRegsAndNZ {t : State} (hs : s.Inv) (h : OnlyRegsAndNZ s t) : t.Inv :=
  hs.congr h.cfg h.hierarchy.l1i h.hierarchy.l1d h.hierarchy.l2 h.hierarchy.mem

theorem exec_leaves_inv (i : Instr) (hs : s.Inv) : Leaves State.Inv (exec i s) :=
  exec_leaves i hs (fun _ _ => State.Inv.onlyRegsAndNZ) (readData_leaves_inv hs) (writeData_leaves_inv hs)

theorem step_leaves_inv (hs : s.Inv) : Leaves State.Inv (step s) :=
  step_leaves hs (fetchInstruction_leaves_inv hs) fun i _ => exec_leaves_inv i

end

/-! ### The setup of a state, and L1I under an instruction -/

/-- C, V, the mode bit and the configuration are as before (R33, R35, R37). -/
structure SameSetup (s t : State) : Prop where
  c         : t.c = s.c
  v         : t.v = s.v
  thumbMode : t.thumbMode = s.thumbMode
  cfg       : t.cfg = s.cfg

theorem SameSetup.refl (s : State) : SameSetup s s := ⟨rfl, rfl, rfl, rfl⟩

theorem SameSetup.trans {s t u : State} (h : SameSetup s t) (g : SameSetup t u) : SameSetup s u :=
  ⟨g.c.trans h.c, g.v.trans h.v, g.thumbMode.trans h.thumbMode, g.cfg.trans h.cfg⟩

theorem OnlyRegsAndNZ.sameSetup {s t : State} (h : OnlyRegsAndNZ s t) : SameSetup s t :=
  ⟨h.c, h.v, h.thumbMode, h.cfg⟩

theorem withDataSide_sameSetup (s : State) (k : Cache × Cache × Memory) : SameSetup s (s.withDataSide k) :=
  ⟨rfl, rfl, rfl, rfl⟩

theorem withInstrSide_sameSetup (s : State) (k : Cache × Cache × Memory) : SameSetup s (s.withInstrSide k) :=
  ⟨rfl, rfl, rfl, rfl⟩

section
variable (s : State)

theorem fetchInstruction_leaves_sameSetup (a : Word) :
    Leaves (SameSetup s) (outcomeOfAccess (fetchInstruction a s)) :=
  fetchInstruction_leaves a (.refl s) (withInstrSide_sameSetup s)

theorem readData_leaves_sameSetup (a : Word) : Leaves (SameSetup s) (outcomeOfAccess (readData a s)) :=
  readData_leaves a (.refl s) (withDataSide_sameSetup s)

theorem writeData_leaves_sameSetup (a v : Word) :
    Leaves (SameSetup s) (outcomeOfAccess ((writeData a v s).map fun t => ((), t))) :=
  writeData_leaves a v (.refl s) (withDataSide_sameSetup s)

theorem exec_leaves_sameSetup (i : Instr) : Leaves (SameSetup s) (exec i s) :=
  exec_leaves i (.refl s) (fun _ _ h g => h.trans g.sameSetup) (readData_leaves_sameSetup s)
    (writeData_leaves_sameSetup s)

theorem exec_leaves_l1i (i : Instr) : Leaves (fun t => t.l1i = s.l1i) (exec i s) :=
  exec_leaves i rfl (fun _ _ h g => g.hierarchy.l1i.trans h) (fun a => readData_leaves a rfl fun _ => rfl)
    (fun a v => writeData_leaves a v rfl fun _ => rfl)

end

theorem hostApply_leaves_sameSetup (op : HostOp) (s : State) : Leaves (SameSetup s) (hostApply op s) := by
  cases op with
  | writePc a => exact (setReg_onlyRegsAndNZ s pcReg a).sameSetup
  | execute raw => exact exec_leaves_sameSetup s (decode raw)
  | fetchInstruction a => exact fetchInstruction_leaves_sameSetup s a
  | readData a => exact readData_leaves_sameSetup s a
  | writeData a v => exact writeData_leaves_sameSetup s a v
  | step =>
    exact step_leaves (.refl s) (fetchInstruction_leaves_sameSetup s)
      fun i t h => (exec_leaves_sameSetup t i).mono fun _ => h.trans

/-! ### Runs -/

/-- A run of a machine that ends in t is a step that answers, and a run from there. -/
theorem core_run_succ {M : Host.Core} {n : Nat} {s t : M.State} :
    M.run (n + 1) s = .next t ↔ ∃ u, M.step s = .next u ∧ M.run n u = .next t := by
  rw [Host.Core.run]
  cases M.step s <;> simp

theorem runs_zero {s t : State} : Runs 0 s t ↔ s = t :=
  ⟨Host.Outcome.next.inj, fun h => h ▸ rfl⟩

theorem runs_succ {n : Nat} {s t : State} : Runs (n + 1) s t ↔ ∃ u, step s = .next u ∧ Runs n u t :=
  core_run_succ (M := Sys2Proof.core)

/-- What every step keeps, a run keeps. -/
theorem Runs.keeps {P : State → Prop} (hstep : ∀ s t, P s → step s = .next t → P t) {n : Nat} {s t : State}
    (h : Runs n s t) (hs : P s) : P t := by
  induction n generalizing s with
  | zero => exact runs_zero.1 h ▸ hs
  | succ n ih =>
    obtain ⟨u, hu, hr⟩ := runs_succ.1 h
    exact ih hr (hstep s u hs hu)

theorem Runs.sameSetup {n : Nat} {s t : State} (h : Runs n s t) : SameSetup s t :=
  h.keeps (P := SameSetup s) (fun u _ hu e => hu.trans ((hostApply_leaves_sameSetup .step u).next e)) (.refl s)

/-- C and V are 0 at construction, and the mode bit and the configuration are the launch parameters (R34, R36, R40). -/
theorem construct_setup {L : Launch} {s : State} (h : construct L = .ok s) :
    s.c = false ∧ s.v = false ∧ s.thumbMode = L.thumbInit ∧ s.cfg = L.cfg := by
  unfold construct at h
  split at h
  · cases h
  · cases h
    exact ⟨rfl, rfl, rfl, rfl⟩

/-! ### The next state of an instruction -/

@[simp] theorem isDataProcessing_str (f : LoadStore) : isDataProcessing (.str f) = false :=
  isDataProcessing_of_group rfl (loadStore_group ..) (by decide)

@[simp] theorem isDataProcessing_ldr (f : LoadStore) : isDataProcessing (.ldr f) = false :=
  isDataProcessing_of_group rfl (loadStore_group ..) (by decide)

@[simp] theorem isDataProcessing_b (f : Branch) : isDataProcessing (.b f) = false :=
  isDataProcessing_of_group rfl (branch_group ..) (by decide)

@[simp] theorem isDataProcessing_bl (f : Branch) : isDataProcessing (.bl f) = false :=
  isDataProcessing_of_group rfl (branch_group ..) (by decide)

/-- The address of an instruction's data access (R170). -/
def dataTarget (i : Instr) (s : State) : Option Word :=
  match i with
  | .ldr f | .str f => some (effectiveAddress f s)
  | _               => none

theorem dataTarget_of_isDataProcessing {i : Instr} (h : isDataProcessing i = true) (s : State) :
    dataTarget i s = none := by
  cases i with
  | ldr f => simp at h
  | str f => simp at h
  | _ => rfl

section
variable {s t : State} {i : Instr}

theorem execStr_next {f : LoadStore} (h : execStr f s = .next t) :
    ∃ k, t = finish false (some (effectiveAddress f s)) s (s.withDataSide k) := by
  unfold execStr at h
  split at h
  next e =>
    obtain ⟨-, k, -, rfl⟩ := writeData_ok e
    cases h
    exact ⟨k, rfl⟩
  next => cases h

theorem execLdr_next {f : LoadStore} (h : execLdr f s = .next t) :
    ∃ k v, t = finish false (some (effectiveAddress f s)) s ((s.withDataSide k).setReg f.rd v) := by
  unfold execLdr at h
  split at h
  next e =>
    obtain ⟨-, _, k, -, rfl, -⟩ := readData_ok e
    cases h
    exact ⟨k, _, rfl⟩
  next => cases h

/-- An instruction that goes on has left the state as it was, with the diagnostic, when it is UNKNOWN (R55); else the
envelope has finished what its handler left, and only a data-processing handler writes N and Z (R31, R50). -/
theorem exec_next_cases (h : exec i s = .next t) :
    (isUnknown i = true ∧ t = { s with surfaced := .unknownOpcode (encode i) }) ∨
    (isUnknown i = false ∧ ∃ thumb after, t = finish thumb (dataTarget i s) s after ∧
      (isDataProcessing i = false → SameNZ s after)) := by
  cases exec_cases i with
  | writes thumb rd res dp known _ run =>
    rw [run] at h
    cases h
    exact .inr ⟨known, thumb, _, by rw [dataTarget_of_isDataProcessing dp], by simp [dp]⟩
  | compares res dp known _ run =>
    rw [run] at h
    cases h
    exact .inr ⟨known, false, _, by rw [dataTarget_of_isDataProcessing dp], by simp [dp]⟩
  | absent w _ run => rw [run] at h; cases h
  | stores f eq =>
    subst eq
    obtain ⟨k, rfl⟩ := execStr_next h
    exact .inr ⟨rfl, false, _, rfl, fun _ => ⟨rfl, rfl⟩⟩
  | loads f eq =>
    subst eq
    obtain ⟨k, v, rfl⟩ := execLdr_next h
    exact .inr ⟨rfl, false, _, rfl, fun _ => ⟨rfl, rfl⟩⟩
  | branches f eq => subst eq; cases h; exact .inr ⟨rfl, false, _, rfl, fun _ => ⟨rfl, rfl⟩⟩
  | links f eq => subst eq; cases h; exact .inr ⟨rfl, false, _, rfl, fun _ => ⟨rfl, rfl⟩⟩
  | unknown cls run => rw [run] at h; cases h; exact .inl ⟨cls, rfl⟩

theorem exec_sameNZ (h : exec i s = .next t) (hi : isDataProcessing i = false ∨ i.wellFormed = false) :
    SameNZ s t := by
  obtain ⟨-, rfl⟩ | ⟨known, thumb, after, rfl, nz⟩ := exec_next_cases h
  · exact ⟨rfl, rfl⟩
  · have nz := nz (hi.resolve_right (by simp [wellFormed_of_not_isUnknown known]))
    exact ⟨(finish_n ..).trans nz.n, (finish_z ..).trans nz.z⟩

/-- A data-processing instruction gives N and Z of its result, which reads neither. -/
theorem exec_nz_of_isDataProcessing (hw : i.wellFormed = true) (hd : isDataProcessing i = true)
    (h : exec i s = .next t) (n z : Bool) :
    ∃ u, exec i (withFlags s n z s.c s.v) = .next u ∧ u.n = t.n ∧ u.z = t.z := by
  cases exec_cases i with
  | writes thumb rd res _ _ reads run =>
    rw [run] at h ⊢
    cases h
    exact ⟨_, rfl, by simp [reads s n z s.c s.v fun _ => rfl]⟩
  | compares res _ _ reads run =>
    rw [run] at h ⊢
    cases h
    exact ⟨_, rfl, by simp [reads s n z s.c s.v fun _ => rfl]⟩
  | absent w _ run => rw [run] at h; cases h
  | stores f eq | loads f eq | branches f eq | links f eq => simp [eq] at hd
  | unknown cls _ => simp [isDataProcessing_of_isUnknown cls hw] at hd

end

/-! ### The report -/

/-- What the report lists (R56), in terms of the state the envelope leaves. -/
theorem finish_report (thumb : Bool) (target : Option Word) (before after : State) :
    (finish thumb target before after).surfaced
      = .changed (changeReport target before (finish thumb target before after)) := rfl

end Sys2Proof.Machine

/-! ### Other flags -/

namespace Sys2Proof.Statements

open Sys2Proof.Machine

section
variable {s t : State} (h : SameButFlags s t)
include h

theorem SameButFlags.reg_eq (q : Reg) : t.reg q = s.reg q := by
  simp only [State.reg, h.regs]

theorem SameButFlags.pc_eq : t.pc = s.pc := h.reg_eq 15

theorem SameButFlags.dataWord_eq (a : Nat) : t.dataWord a = s.dataWord a := by
  simp only [State.dataWord, dataByte_congr h.cfg h.hierarchy.l1d h.hierarchy.l2 h.hierarchy.mem]

theorem SameButFlags.setReg (r : Reg) (v : Word) : SameButFlags (s.setReg r v) (t.setReg r v) where
  cfg := h.cfg
  regs := congrArg (·.set r v) h.regs
  thumbMode := h.thumbMode
  hierarchy := ⟨h.hierarchy.l1i, h.hierarchy.l1d, h.hierarchy.l2, h.hierarchy.mem⟩
  surfaced := h.surfaced

theorem SameButFlags.setNZ (res : Word) : SameButFlags (s.setNZ res) (t.setNZ res) where
  cfg := h.cfg
  regs := h.regs
  thumbMode := h.thumbMode
  hierarchy := ⟨h.hierarchy.l1i, h.hierarchy.l1d, h.hierarchy.l2, h.hierarchy.mem⟩
  surfaced := h.surfaced

theorem SameButFlags.withDataSide (k : Cache × Cache × Memory) :
    SameButFlags (s.withDataSide k) (t.withDataSide k) where
  cfg := h.cfg
  regs := h.regs
  thumbMode := h.thumbMode
  hierarchy := ⟨h.hierarchy.l1i, rfl, rfl, rfl⟩
  surfaced := h.surfaced

theorem SameButFlags.withSurfaced (d : Surfaced) :
    SameButFlags { s with surfaced := d } { t with surfaced := d } where
  cfg := h.cfg
  regs := h.regs
  thumbMode := h.thumbMode
  hierarchy := ⟨h.hierarchy.l1i, h.hierarchy.l1d, h.hierarchy.l2, h.hierarchy.mem⟩
  surfaced := rfl

theorem SameButFlags.advance (thumb : Bool) (pc0 : Word) :
    SameButFlags (advancePc thumb pc0 s) (advancePc thumb pc0 t) := by
  unfold advancePc
  rw [h.pc_eq]
  split
  · exact h.setReg pcReg _
  · exact h

/-- The envelope's report reads no flag (R56). -/
theorem SameButFlags.changeReport_eq {s' t' : State} (h' : SameButFlags s' t') (target : Option Word) :
    changeReport target t t' = changeReport target s s' := by
  simp only [changeReport, changedRegs, changedWord, h.reg_eq, h'.reg_eq, h.dataWord_eq, h'.dataWord_eq]

/-- The envelope reads no flag (R50). -/
theorem SameButFlags.finished {s' t' : State} (h' : SameButFlags s' t') (thumb : Bool) (target : Option Word) :
    SameButFlags (finish thumb target s s') (finish thumb target t t') := by
  have ha := h'.advance thumb s.pc
  simp only [finish, h.pc_eq, h.changeReport_eq ha]
  exact ha.withSurfaced _

end

theorem withFlags_sameButFlags (s : State) (n z c v : Bool) : SameButFlags s (withFlags s n z c v) :=
  ⟨rfl, rfl, rfl, ⟨rfl, rfl, rfl, rfl⟩, rfl⟩

end Sys2Proof.Statements

namespace Sys2Proof.Machine

open Sys2Proof.Statements

theorem execStr_agreeButFlags (f : LoadStore) (s : State) (n z c v : Bool) :
    AgreeButFlags (execStr f s) (execStr f (withFlags s n z c v)) := by
  have h := withFlags_sameButFlags s n z c v
  have hea : effectiveAddress f (withFlags s n z c v) = effectiveAddress f s := rfl
  have hrd : (withFlags s n z c v).reg f.rd = s.reg f.rd := rfl
  have hside : (withFlags s n z c v).dataSide = s.dataSide := rfl
  simp only [execStr, writeData, hea, hrd, hside, h.cfg]
  cases wordAligned (effectiveAddress f s) with
  | false => exact ⟨rfl, h⟩
  | true =>
    cases (l1dStore s.cfg).write (effectiveAddress f s).toNat (bytesLe32 (s.reg f.rd)) s.dataSide with
    | ok u k => exact h.finished (h.withDataSide k) false _
    | outOfBounds x j k => exact ⟨rfl, rfl, h.withDataSide k⟩

theorem execLdr_agreeButFlags (f : LoadStore) (s : State) (n z c v : Bool) :
    AgreeButFlags (execLdr f s) (execLdr f (withFlags s n z c v)) := by
  have h := withFlags_sameButFlags s n z c v
  have hea : effectiveAddress f (withFlags s n z c v) = effectiveAddress f s := rfl
  have hside : (withFlags s n z c v).dataSide = s.dataSide := rfl
  simp only [execLdr, readData, hea, hside, h.cfg]
  cases wordAligned (effectiveAddress f s) with
  | false => exact ⟨rfl, h⟩
  | true =>
    cases (l1dStore s.cfg).read (effectiveAddress f s).toNat 4 s.dataSide with
    | ok bytes k => exact h.finished ((h.withDataSide k).setReg f.rd _) false _
    | outOfBounds x j k => exact ⟨rfl, rfl, h.withDataSide k⟩

/-- With other values of the flags that an instruction does not read, its outcome is the same but for the flags (R32). -/
theorem exec_agreeButFlags (i : Instr) (s : State) (n z c v : Bool) (hc : readsCarry i = true → c = s.c) :
    AgreeButFlags (exec i s) (exec i (withFlags s n z c v)) := by
  have h := withFlags_sameButFlags s n z c v
  cases exec_cases i with
  | writes thumb rd res _ _ reads run =>
    rw [run, run, reads s n z c v hc]
    exact h.finished ((h.setReg rd _).setNZ _) thumb none
  | compares res _ _ reads run =>
    rw [run, run, reads s n z c v hc]
    exact h.finished (h.setNZ _) false none
  | absent w _ run => rw [run, run]; exact ⟨rfl, h⟩
  | stores f eq => subst eq; exact execStr_agreeButFlags f s n z c v
  | loads f eq => subst eq; exact execLdr_agreeButFlags f s n z c v
  | branches f eq => subst eq; exact h.finished (h.setReg pcReg _) false none
  | links f eq => subst eq; exact h.finished ((h.setReg lrReg _).setReg pcReg _) false none
  | unknown _ run => rw [run, run]; exact h.withSurfaced _

/-- Two different results in a register other than the PC are told apart. -/
theorem not_agreeButFlags_writeResult {rd : Reg} {x y : Word} (hrd : rd ≠ 15) (hxy : x ≠ y) (thumb : Bool)
    (s t : State) : ¬ AgreeButFlags (writeResult thumb rd x s) (writeResult thumb rd y t) := by
  intro h
  obtain ⟨s', es, ws⟩ := writeResult_spec thumb rd x s
  obtain ⟨t', et, wt⟩ := writeResult_spec thumb rd y t
  rw [es, et] at h
  exact hxy ((ws.dest hrd).symm.trans ((SameButFlags.reg_eq h rd).symm.trans (wt.dest hrd)))

/-! ### The step as fetch, decode and execute -/

section
variable {s t : State} {w : Word} {fault : Fault}

theorem step_arm_ok (hm : s.thumbMode = false) (h : fetchInstruction s.pc s = .ok (w, t)) :
    step s = exec (decode (.arm w)) t := by
  simp [step, fetchRaw, hm, h]

theorem step_arm_error (hm : s.thumbMode = false) (h : fetchInstruction s.pc s = .error fault) :
    step s = .fault fault := by
  simp [step, fetchRaw, hm, h]

theorem step_thumb_odd (hm : s.thumbMode = true) (h : s.pc.toNat % 2 ≠ 0) :
    step s = .fault (.alignmentFault s.pc s) := by
  have hb : bit s.pc 0 = true := by simpa [bit_zero] using h
  simp [step, fetchRaw, hm, hb]

theorem step_thumb_ok (hm : s.thumbMode = true) (h2 : s.pc.toNat % 2 = 0)
    (h : fetchInstruction (thumbFetchAddress s.pc) s = .ok (w, t)) :
    step s = exec (decode (.thumb (thumbHalf s.pc w))) t := by
  have hb : bit s.pc 0 = false := by simp [bit_zero, h2]
  simp [step, fetchRaw, hm, hb, h]

theorem step_thumb_error (hm : s.thumbMode = true) (h2 : s.pc.toNat % 2 = 0)
    (h : fetchInstruction (thumbFetchAddress s.pc) s = .error fault) : step s = .fault fault := by
  have hb : bit s.pc 0 = false := by simp [bit_zero, h2]
  simp [step, fetchRaw, hm, hb, h]

/-- The address of a Thumb fetch as the rule writes it (R51). -/
theorem wrap_sub_mod_four (pc : Word) : wrap ((pc.toNat : Int) - pc.toNat % 4) = thumbFetchAddress pc := by
  apply BitVec.eq_of_toNat_eq
  have := Nat.mod_le pc.toNat 4
  rw [thumbFetchAddress_toNat, wrap, BitVec.toNat_ofInt]
  omega

/-- The half that a Thumb fetch decodes, as the rule writes it (R51). -/
theorem ofNat_half (pc w : Word) :
    BitVec.ofNat 16 (if fieldOf pc.toNat 1 1 = 0 then fieldOf w.toNat 15 0 else fieldOf w.toNat 31 16)
      = thumbHalf pc w := by
  have hb : fieldOf pc.toNat 1 1 = (BitVec.ofBool (bit pc 1)).toNat := by
    rw [ofBool_bit]
    exact fieldOf_toNat pc 1 0
  unfold thumbHalf
  cases h : bit pc 1 with
  | false => simp [hb, h, fieldOf_toNat w 0 15]
  | true => simp [hb, h, fieldOf_toNat w 16 15]

/-- A fetch that changes the instruction side only, and keeps the invariant and L2's view, leaves what `Fetched` says. -/
theorem fetched_withInstrSide {k : Cache × Cache × Memory} (inv : (s.withInstrSide k).Inv)
    (hl2 : (s.withInstrSide k).l2Byte = s.l2Byte) : Fetched s (s.withInstrSide k) where
  cpu := ⟨rfl, rfl, rfl, rfl, rfl, rfl, rfl⟩
  l1d := rfl
  bytes a := by simp only [State.dataByte, hl2, withInstrSide_cfg, withInstrSide_l1d]
  surfaced := rfl
  inv := inv

/-- A fetch of an aligned word within bounds answers the word of the instruction view (R92, R95). -/
theorem fetchInstruction_fetched (hs : s.Inv) {a : Word} (ha : a.toNat % 4 = 0) (hf : FetchFits s.cfg a.toNat) :
    ∃ t, fetchInstruction a s = .ok (s.instrWord a.toNat, t) ∧ Fetched s t := by
  obtain ⟨k, e, inv, hl2⟩ := fetchInstruction_fits hs (wordAligned_iff.2 ha) hf
  exact ⟨_, e, fetched_withInstrSide inv hl2⟩

/-- A fetch of an aligned word past the bounds raises `OutOfBounds` of a request beyond MEM_SIZE (R205). -/
theorem fetchInstruction_outOfBounds (hs : s.Inv) {a : Word} (ha : a.toNat % 4 = 0) (hf : ¬ FetchFits s.cfg a.toNat) :
    ∃ x j t, fetchInstruction a s = .error (.outOfBounds x j t) ∧ s.cfg.memSize < x + j := by
  obtain ⟨x, j, k, e, -⟩ := fetchInstruction_short hs (wordAligned_iff.2 ha) hf
  exact ⟨x, j, _, e, fetchInstruction_error e⟩

end

end Sys2Proof.Machine

namespace Sys2Proof.Proofs

open Sys2Proof.Machine Sys2Proof.Statements

/-- Settles O33: the fetch keeps the invariant, and so does what the decoded instruction then does: its data access, and
its change of registers and flags. -/
theorem stepKeepsInvariant : Obligations.StepKeepsInvariant := fun _ hs =>
  ⟨fun _ => (step_leaves_inv hs).next, fun _ => (step_leaves_inv hs).fault⟩

/-- Settles O26, by what an instruction that goes on can have done. -/
theorem onlyDataProcessingWritesNZ : Obligations.OnlyDataProcessingWritesNZ :=
  ⟨fun _ _ _ => exec_sameNZ, fun _ _ _ n z hw hd h => exec_nz_of_isDataProcessing hw hd h n z⟩

/-- Settles O27: every host operation keeps the setup, so a run does, from what construction gives. -/
theorem carryOverflowAndModeNeverWritten : Obligations.CarryOverflowAndModeNeverWritten := by
  refine ⟨fun op s t e => ?_, fun n s t h => ?_, fun L n s t hL h => ?_⟩
  · obtain ⟨c, v, mode, cfg⟩ := (hostApply_leaves_sameSetup op s).next e
    exact ⟨c, v, mode, cfg⟩
  · obtain ⟨c, v, mode, cfg⟩ := h.sameSetup
    exact ⟨c, v, mode, cfg⟩
  · obtain ⟨c0, v0, mode0, cfg0⟩ := construct_setup hL
    obtain ⟨c, v, mode, cfg⟩ := h.sameSetup
    exact ⟨c.trans c0, v.trans v0, mode.trans mode0, cfg.trans cfg0⟩

/-- Settles O28. For the converse, at reset each of the six forms on r0 with zero operands gives another result with C
set. -/
theorem onlyCarryInstructionsReadFlags : Obligations.OnlyCarryInstructionsReadFlags := by
  refine ⟨exec_agreeButFlags, State.reset, ⟨⟨14, false, 0, 0, 0⟩, ?_⟩, ⟨⟨14, false, 0, 0, 0⟩, ?_⟩,
    ⟨⟨14, false, 0, 0, 0⟩, ?_⟩, ⟨⟨14, false, 0, 0, 0, 0⟩, ?_⟩, ⟨⟨14, false, 0, 0, 0, 0⟩, ?_⟩,
    ⟨⟨14, false, 0, 0, 0, 0⟩, ?_⟩⟩
  all_goals exact not_agreeButFlags_writeResult (by decide) (by decide) _ _ _

/-- Settles O29: the envelope's report compares the state before the handler with the one it leaves, and an UNKNOWN word
never comes to the envelope. -/
theorem reportListsWhatChanged : Obligations.ReportListsWhatChanged := by
  intro i s t h
  obtain ⟨unknown, rfl⟩ | ⟨known, thumb, after, rfl, -⟩ := exec_next_cases h
  · exact ⟨fun _ => rfl, fun known => by simp [unknown] at known⟩
  · refine ⟨fun unknown => by simp [known] at unknown, fun _ =>
      ⟨_, finish_report .., changedRegs_sorted .., fun q => mem_changedRegs, ?_, fun hi => ?_⟩⟩
    · rintro f (rfl | rfl) <;> rfl
    · cases i with
      | ldr f => exact absurd rfl (hi f).1
      | str f => exact absurd rfl (hi f).2
      | _ => rfl

/-- Settles O30: a data access changes L1D and what lies below it, and nothing else of an instruction changes a cache. -/
theorem executeLeavesL1I : Obligations.ExecuteLeavesL1I := fun raw s =>
  ⟨fun _ => (exec_leaves_l1i s (decode raw)).next, fun _ => (exec_leaves_l1i s (decode raw)).fault⟩

/-- Settles O9: the step is what the fetch at pc answers, and that fetch is known from the invariant. -/
theorem stepRunsDecodedInstruction : Obligations.StepRunsDecodedInstruction := by
  refine fun s hs => ⟨fun hm => ⟨fun h4 => ?_, fun h4 hf => ?_, fun h4 hf => ?_⟩,
    fun hm => ⟨thumbFetchAddress_toNat s.pc, step_thumb_odd hm, fun h2 hf => ?_, fun h2 hf => ?_⟩⟩
  · exact step_arm_error hm (access_misaligned (wordAligned_eq_false_iff.2 h4) 0).1
  · obtain ⟨t, e, ht⟩ := fetchInstruction_fetched hs h4 hf
    exact ⟨t, e, ht, step_arm_ok hm e⟩
  · obtain ⟨x, j, t, e, hx⟩ := fetchInstruction_outOfBounds hs h4 hf
    exact ⟨x, j, t, e, hx, step_arm_error hm e⟩
  all_goals rw [← thumbFetchAddress_toNat] at hf
  · obtain ⟨t, e, ht⟩ := fetchInstruction_fetched hs (wordAligned_iff.1 (thumbFetchAddress_aligned s.pc)) hf
    refine ⟨t, thumbFetchAddress_toNat s.pc ▸ e, ht, ?_⟩
    rw [step_thumb_ok hm h2 e, thumbHalf_instrWord s h2]
  · obtain ⟨x, j, t, e, hx⟩ :=
      fetchInstruction_outOfBounds hs (wordAligned_iff.1 (thumbFetchAddress_aligned s.pc)) hf
    exact ⟨x, j, t, e, hx, step_thumb_error hm h2 e⟩

/-- Settles O53: the rule's fetch address and half are those the step takes. -/
theorem stepIsFetchDecodeExecute : Obligations.StepIsFetchDecodeExecute := by
  intro s
  have h0 : fieldOf s.pc.toNat 0 0 = s.pc.toNat % 2 := by simp [fieldOf]
  refine ⟨fun hm => ⟨fun w t => step_arm_ok hm, fun f => step_arm_error hm⟩,
    fun hm => ⟨fun h => ?_, fun h => ?_⟩⟩
  · exact step_thumb_odd hm (by omega)
  · rw [wrap_sub_mod_four]
    refine ⟨fun w t e => ?_, fun f => step_thumb_error hm (by omega)⟩
    rw [ofNat_half]
    exact step_thumb_ok hm (by omega) e

end Sys2Proof.Proofs

/-! ## Memory: the data side as a flat memory, the caches and their counters (20_memory.md) -/

namespace Sys2Proof.Machine

open Sys2Proof.Statements

/-! ### Bytes and words -/

theorem getD_eq_getElem {bytes : List Byte} {i : Nat} (h : i < bytes.length) : bytes.getD i 0 = bytes[i] := by
  rw [List.getD_eq_getElem?_getD, List.getElem?_eq_getElem h, Option.getD_some]

theorem getElem_bytesFrom (view : Nat → Byte) (a : Nat) {k i : Nat} (h : i < (bytesFrom view a k).length) :
    (bytesFrom view a k)[i] = view (a + i) := by
  rw [← getD_bytesFrom view a (k := k) (length_bytesFrom view a k ▸ h), getD_eq_getElem h]

/-- The bytes of a word make the word again (R10, R63). -/
theorem wordOfBytes_bytesLe32 (v : Word) : wordOfBytes (bytesLe32 v) = v := by
  show field v 24 8 ++ field v 16 8 ++ field v 8 8 ++ field v 0 8 = v
  calc field v 24 8 ++ field v 16 8 ++ field v 8 8 ++ field v 0 8
      = field v 16 16 ++ field v 8 8 ++ field v 0 8 := by rw [← field_join v 16 8 8]
    _ = field v 8 24 ++ field v 0 8 := by rw [← field_join v 8 16 8]
    _ = field v 0 32 := field_join v 0 24 8
    _ = v := BitVec.extractLsb'_eq_self

/-- Each byte of a word is a field of its number (R63). -/
theorem getD_bytesLe32 (v : Word) {i : Nat} (h : i < 4) :
    (bytesLe32 v).getD i 0 = BitVec.ofNat 8 (fieldOf v.toNat (8 * i + 7) (8 * i)) := by
  rw [fieldOf_toNat v (8 * i) 7, BitVec.ofNat_toNat, BitVec.setWidth_eq]
  match i, h with
  | 0, _ | 1, _ | 2, _ | 3, _ => rfl

/-- Laying the bytes of a word over a view is a word write of a flat memory. -/
theorem overlay_bytesLe32 (view : Nat → Byte) (a : Nat) (v : Word) :
    overlay view a (bytesLe32 v) = flatWrite view a v := by
  funext x
  show (if a ≤ x ∧ x < a + 4 then (bytesLe32 v).getD (x - a) 0 else view x) = flatWrite view a v x
  unfold flatWrite
  split
  next h => rw [getD_bytesLe32 v (by omega)]
  next => rfl

/-! ### The construction checks -/

theorem isPowerOfTwo_iff {n : Nat} : isPowerOfTwo n = true ↔ PowerOfTwo n := by
  constructor
  · exact fun h => ⟨n.log2, eq_two_pow_of_isPowerOfTwo h⟩
  · rintro ⟨k, rfl⟩
    simp [isPowerOfTwo, Nat.log2_two_pow]

section
variable (C : CacheConfig)

theorem blockSize_fails_iff : (!(isPowerOfTwo C.bs && decide (4 ≤ C.bs))) = true ↔ ¬ Passes C .blockSize := by
  rw [Passes, ← isPowerOfTwo_iff, Bool.not_eq_true', ← Bool.not_eq_true, Bool.and_eq_true, decide_eq_true_eq]

theorem capacityDivisible_fails_iff : C.cap % C.bs ≠ 0 ↔ ¬ Passes C .capacityDivisible :=
  not_congr (Nat.dvd_iff_mod_eq_zero ..).symm

theorem lineCount_fails_iff :
    (C.policy = .direct ∧ 1 ≤ lineCount C ∧ (!isPowerOfTwo (lineCount C)) = true) ↔ ¬ Passes C .lineCount := by
  simp [Passes, lineCount, ← isPowerOfTwo_iff]

theorem capacityLimit_fails_iff : 2 ^ 32 < C.cap ↔ ¬ Passes C .capacityLimit := Nat.not_le.symm

theorem forall_passes_iff : (∀ k, Passes C k) ↔
    Passes C .blockSize ∧ Passes C .capacityDivisible ∧ Passes C .lineCount ∧ Passes C .capacityLimit :=
  ⟨fun h => ⟨h _, h _, h _, h _⟩, fun ⟨h1, h2, h3, h4⟩ k => by cases k <;> assumption⟩

/-- The check of a cache configuration in the words of R66: the first of the four that it does not pass, in their order. -/
inductive CheckCases : Prop
  | blockSize (h1 : ¬ Passes C .blockSize) (eq : checkCache C = some .blockSize)
  | capacityDivisible (h1 : Passes C .blockSize) (h2 : ¬ Passes C .capacityDivisible)
      (eq : checkCache C = some .capacityDivisible)
  | lineCount (h1 : Passes C .blockSize) (h2 : Passes C .capacityDivisible) (h3 : ¬ Passes C .lineCount)
      (eq : checkCache C = some .lineCount)
  | capacityLimit (h1 : Passes C .blockSize) (h2 : Passes C .capacityDivisible) (h3 : Passes C .lineCount)
      (h4 : ¬ Passes C .capacityLimit) (eq : checkCache C = some .capacityLimit)
  | none (h1 : Passes C .blockSize) (h2 : Passes C .capacityDivisible) (h3 : Passes C .lineCount)
      (h4 : Passes C .capacityLimit) (eq : checkCache C = none)

theorem checkCases : CheckCases C := by
  by_cases h1 : Passes C .blockSize
  case neg =>
    exact .blockSize h1 (by rw [checkCache, if_pos ((blockSize_fails_iff C).2 h1)])
  have e1 := mt (blockSize_fails_iff C).1 (not_not_intro h1)
  by_cases h2 : Passes C .capacityDivisible
  case neg =>
    exact .capacityDivisible h1 h2 (by rw [checkCache, if_neg e1, if_pos ((capacityDivisible_fails_iff C).2 h2)])
  have e2 := mt (capacityDivisible_fails_iff C).1 (not_not_intro h2)
  by_cases h3 : Passes C .lineCount
  case neg =>
    exact .lineCount h1 h2 h3 (by rw [checkCache, if_neg e1, if_neg e2, if_pos ((lineCount_fails_iff C).2 h3)])
  have e3 := mt (lineCount_fails_iff C).1 (not_not_intro h3)
  by_cases h4 : Passes C .capacityLimit
  case neg =>
    exact .capacityLimit h1 h2 h3 h4
      (by rw [checkCache, if_neg e1, if_neg e2, if_neg e3, if_pos ((capacityLimit_fails_iff C).2 h4)])
  have e4 := mt (capacityLimit_fails_iff C).1 (not_not_intro h4)
  exact .none h1 h2 h3 h4 (by rw [checkCache, if_neg e1, if_neg e2, if_neg e3, if_neg e4])

theorem checkCache_eq_none_iff : checkCache C = none ↔ ∀ k, Passes C k := by
  rw [forall_passes_iff]
  cases checkCases C with
  | none h1 h2 h3 h4 eq => simp [eq, h1, h2, h3, h4]
  | _ => simp [*]

end

/-- The configuration is accepted exactly when no cache fails a check (R66). -/
theorem checkConfig_eq_none_iff {cfg : Config} : checkConfig cfg = none ↔
    checkCache cfg.l1i = none ∧ checkCache cfg.l1d = none ∧ checkCache cfg.l2 = none := by
  unfold checkConfig
  split
  next e1 => simp [e1]
  next e1 =>
    split
    next e2 => simp [e2]
    next e2 =>
      split
      next e3 => simp [e3]
      next e3 => simp [e1, e2, e3]

/-- The error of a configuration names a level and the check that level fails (R206). -/
theorem checkCache_of_checkConfig {cfg : Config} {e : ConfigurationError} (h : checkConfig cfg = some e) :
    checkCache (levelConfig cfg e.level) = some e.check := by
  unfold checkConfig at h
  split at h
  next e1 => cases h; exact e1
  next =>
    split at h
    next e2 => cases h; exact e2
    next =>
      split at h
      next e3 => cases h; exact e3
      next => cases h

/-- Construction yields a state exactly when the configuration is accepted (R206, R231). -/
theorem construct_ok_iff {L : Launch} : (∃ s, construct L = .ok s) ↔ checkConfig L.cfg = none := by
  unfold construct
  split
  next e => simp [e]
  next e => simp [e]

theorem construct_error_iff {L : Launch} {e : ConfigurationError} :
    construct L = .error e ↔ checkConfig L.cfg = some e := by
  unfold construct
  split
  next h => simp [h]
  next h => simp [h]

/-! ### The block address of a line -/

section
variable {C : CacheConfig} (g : GeometryOk C)
include g

/-- The index and offset bits of an address are among its 32 (R41). -/
theorem indexBits_add_offsetBits_le (hp : C.policy = .direct) (hn : lineCount C ≠ 0) :
    indexBits C + offsetBits C ≤ 32 := by
  have hcap : lineCount C * C.bs ≤ 2 ^ 32 := g.div ▸ g.capMax
  rw [g.nPow hp hn, g.bsPow, ← Nat.pow_add] at hcap
  exact (Nat.pow_le_pow_iff_right (by omega)).1 hcap

theorem offsetBits_le (hn : lineCount C ≠ 0) : offsetBits C ≤ 32 := by
  have hcap : lineCount C * C.bs ≤ 2 ^ 32 := g.div ▸ g.capMax
  have hbs : 2 ^ offsetBits C ≤ 2 ^ 32 := g.bsPow ▸ Nat.le_trans (Nat.le_mul_of_pos_left C.bs (by omega)) hcap
  exact (Nat.pow_le_pow_iff_right (by omega)).1 hbs

/-- The block number of a line lies below 2^(32 - ob) (R38, R41). -/
theorem blockOf_lt {slot tag : Nat} (hs : slot < lineCount C) (ht : tag < 2 ^ tagBits C) :
    blockOf C slot tag < 2 ^ (32 - offsetBits C) := by
  unfold blockOf
  unfold tagBits at ht
  cases hp : C.policy with
  | direct =>
    have hle := indexBits_add_offsetBits_le g hp (by omega)
    have hnp := g.nPow hp (by omega)
    simp only [hp] at ht
    calc tag * lineCount C + slot < (tag + 1) * lineCount C := by rw [Nat.add_mul]; omega
      _ ≤ 2 ^ (32 - indexBits C - offsetBits C) * lineCount C := Nat.mul_le_mul_right _ ht
      _ = 2 ^ (32 - offsetBits C) := by
        rw [hnp, ← Nat.pow_add]
        congr 1
        omega
  | fullyAssociative => simpa only [hp] using ht

/-- A line's block address is below 2^32 (R74). -/
theorem lineAddr_lt {slot tag : Nat} (hs : slot < lineCount C) (ht : tag < 2 ^ tagBits C) :
    lineAddr C slot tag < 2 ^ 32 := by
  have hob := offsetBits_le g (by omega)
  rw [lineAddr_eq g hs, g.bsPow]
  calc blockOf C slot tag * 2 ^ offsetBits C < 2 ^ (32 - offsetBits C) * 2 ^ offsetBits C :=
        Nat.mul_lt_mul_of_pos_right (blockOf_lt g hs ht) (Nat.two_pow_pos _)
    _ = 2 ^ 32 := by
      rw [← Nat.pow_add]
      congr 1
      omega

/-- The line that an address's index and tag name has the address's block (R68, R74). -/
theorem lineAddr_tagOf (hn : lineCount C ≠ 0) {a slot : Nat} (hs : C.policy = .direct → slot = indexOf C a) :
    lineAddr C slot (tagOf C a) = a / C.bs * C.bs := by
  have hslot : lineAddr C slot (tagOf C a) = lineAddr C (indexOf C a) (tagOf C a) := by
    cases hp : C.policy with
    | direct => rw [hs hp]
    | fullyAssociative => simp only [lineAddr, hp]
  rw [hslot, lineAddr_eq g (indexOf_lt g hn a), blockOf_index_tag g hn]

end

/-! ### The segments of a request -/

section
variable {bs : Nat}

/-- The first segment ends with its block or with the range (R78). -/
theorem segmentsFrom_succ {fuel p e : Nat} (h : p < e) :
    segmentsFrom bs (fuel + 1) p e
      = (p, min (p - p % bs + bs) e - p) :: segmentsFrom bs fuel (min (p - p % bs + bs) e) e := if_pos h

/-- A range within one block is one segment. -/
theorem segmentsFrom_of_within {fuel a k : Nat} (hk : 0 < k) (hf : k ≤ fuel) (h : a % bs + k ≤ bs) :
    segmentsFrom bs fuel a (a + k) = [(a, k)] := by
  have := Nat.mod_le a bs
  obtain ⟨f, rfl⟩ : ∃ f, fuel = f + 1 := ⟨fuel - 1, by omega⟩
  rw [segmentsFrom_succ (by omega), show min (a - a % bs + bs) (a + k) = a + k by omega, Nat.add_sub_cancel_left]
  cases f <;> simp [segmentsFrom]

variable (hbs : 0 < bs)
include hbs

/-- The segments of a range cover it in ascending order (R78). -/
theorem flatMap_segmentsFrom {fuel p e : Nat} (hpe : p ≤ e) (hle : e - p ≤ fuel) :
    (segmentsFrom bs fuel p e).flatMap (fun seg => List.range' seg.1 seg.2) = List.range' p (e - p) := by
  induction fuel generalizing p with
  | zero => simp [segmentsFrom, show e - p = 0 by omega]
  | succ fuel ih =>
    unfold segmentsFrom
    split
    next hlt =>
      have hmod := Nat.mod_lt p hbs
      have hq : p < min (p - p % bs + bs) e := by have := Nat.mod_le p bs; omega
      have hqe : min (p - p % bs + bs) e ≤ e := Nat.min_le_right ..
      generalize min (p - p % bs + bs) e = q at hq hqe
      have happ := List.range'_append_1 (s := p) (m := q - p) (n := e - q)
      rw [show p + (q - p) = q by omega, show q - p + (e - q) = e - p by omega] at happ
      rw [List.flatMap_cons, ih hqe (by omega), happ]
    next => simp [show e - p = 0 by omega]

/-- Each segment of a range is not empty and lies in one block (R78). -/
theorem mem_segmentsFrom {fuel p e : Nat} {seg : Nat × Nat} (h : seg ∈ segmentsFrom bs fuel p e) :
    0 < seg.2 ∧ seg.1 / bs = (seg.1 + seg.2 - 1) / bs := by
  induction fuel generalizing p with
  | zero => cases h
  | succ fuel ih =>
    unfold segmentsFrom at h
    split at h
    next hlt =>
      rcases List.mem_cons.1 h with rfl | h
      · have hmod := Nat.mod_lt p hbs
        have hdm := Nat.div_add_mod' p bs
        show 0 < min (p - p % bs + bs) e - p ∧ p / bs = (p + (min (p - p % bs + bs) e - p) - 1) / bs
        refine ⟨by omega, (Nat.div_eq_of_lt_le ?_ ?_).symm⟩
        · omega
        · rw [Nat.add_mul]; omega
      · exact ih h
    next => cases h

/-- A range of whole blocks is one segment for each block. -/
theorem segmentsFrom_blocks {fuel n p : Nat} (hp : p % bs = 0) (hf : n * bs ≤ fuel) :
    segmentsFrom bs fuel p (p + n * bs) = (List.range n).map fun i => (p + i * bs, bs) := by
  induction n generalizing fuel p with
  | zero => cases fuel <;> simp [segmentsFrom]
  | succ n ih =>
    have hmul : (n + 1) * bs = bs + n * bs := by rw [Nat.add_mul]; omega
    obtain ⟨f, rfl⟩ : ∃ f, fuel = f + 1 := ⟨fuel - 1, by omega⟩
    rw [segmentsFrom_succ (by omega), hp, show min (p - 0 + bs) (p + (n + 1) * bs) = p + bs by omega, hmul,
      ← Nat.add_assoc, ih (p := p + bs) (by simpa using hp) (by omega), List.range_succ_eq_map]
    simp only [Nat.add_sub_cancel_left, List.map_cons, List.map_map, Nat.zero_mul, Nat.add_zero]
    congr 2
    funext i
    simp only [Function.comp, Nat.succ_eq_add_one, Nat.add_mul]
    congr 1
    omega

end

theorem powerOfTwo_dvd_of_le {m n : Nat} (hm : PowerOfTwo m) (hn : PowerOfTwo n) (h : m ≤ n) : m ∣ n := by
  obtain ⟨i, rfl⟩ := hm
  obtain ⟨j, rfl⟩ := hn
  exact Nat.pow_dvd_pow 2 ((Nat.pow_le_pow_iff_right (by omega)).1 h)

theorem powerOfTwo_pos {n : Nat} (h : PowerOfTwo n) : 0 < n := by
  obtain ⟨k, rfl⟩ := h
  exact Nat.two_pow_pos k

/-- An aligned range whose size divides the block size lies in one block. -/
theorem mod_add_le_of_dvd {a bs k : Nat} (hbs : 0 < bs) (hd : k ∣ bs) (ha : a % k = 0) : a % bs + k ≤ bs := by
  obtain ⟨i, hi⟩ : k ∣ a % bs := (Nat.dvd_mod_iff hd).2 (Nat.dvd_of_mod_eq_zero ha)
  have hlt : a % bs < bs := Nat.mod_lt a hbs
  obtain ⟨j, rfl⟩ := hd
  rw [hi] at hlt ⊢
  have hij : i < j := Nat.lt_of_mul_lt_mul_left hlt
  calc k * i + k = k * (i + 1) := (Nat.mul_succ k i).symm
    _ ≤ k * j := Nat.mul_le_mul_left k hij

/-! ### The victim -/

theorem recency_le_foldl_max {lines : List Line} {l : Line} (h : l ∈ lines) (m : Nat) :
    l.recency ≤ lines.foldl (fun m l => max m l.recency) m := by
  induction lines generalizing m with
  | nil => cases h
  | cons x lines ih =>
    rcases List.mem_cons.1 h with rfl | h
    · exact Nat.le_trans (Nat.le_max_right m l.recency) (foldl_max_le lines _).1
    · exact ih h _

theorem recency_le_maxRecency {lines : List Line} {l : Line} (h : l ∈ lines) : l.recency ≤ maxRecency lines :=
  recency_le_foldl_max h 0

theorem exists_recency_eq_maxRecency {lines : List Line} (h : lines ≠ []) : ∃ l ∈ lines, l.recency = maxRecency lines := by
  rcases (foldl_max_le lines 0).2 with h0 | hmax
  · obtain ⟨l, hl⟩ := List.exists_mem_of_ne_nil lines h
    have hle := recency_le_maxRecency hl
    have hzero : maxRecency lines = 0 := h0
    exact ⟨l, hl, by omega⟩
  · exact hmax

section
variable {C : CacheConfig} {c : Cache}

theorem Cache.line_mem {slot : Nat} (h : slot < c.lines.length) : c.line slot ∈ c.lines :=
  Cache.line_eq_getElem h ▸ List.getElem_mem h

theorem getD_reset_of_length_le {lines : List Line} {slot : Nat} (h : lines.length ≤ slot) :
    lines.getD slot (Line.reset 0) = Line.reset 0 := by
  rw [List.getD_eq_getElem?_getD, List.getElem?_eq_none h, Option.getD_none]

theorem Cache.line_of_length_le {slot : Nat} (h : c.lines.length ≤ slot) : c.line slot = Line.reset 0 :=
  getD_reset_of_length_le h

/-- The slot that `findIdx?` gives is the first whose line satisfies the predicate. -/
theorem Cache.line_of_findIdx? {p : Line → Bool} {slot : Nat} (h : c.lines.findIdx? p = some slot) :
    slot < c.lines.length ∧ p (c.line slot) = true ∧ ∀ i, i < slot → p (c.line i) = false := by
  obtain ⟨hlt, hp, hfirst⟩ := List.findIdx?_eq_some_iff_getElem.1 h
  refine ⟨hlt, Cache.line_eq_getElem hlt ▸ hp, fun i hi => ?_⟩
  rw [Cache.line_eq_getElem (Nat.lt_trans hi hlt)]
  simpa using hfirst i hi

/-- What a slot must be to be the victim of a cache with lines (R71). -/
inductive IsVictim (C : CacheConfig) (c : Cache) (idx slot : Nat) : Prop
  | indexed (hp : C.policy = .direct) (eq : slot = idx)
  | firstInvalid (hp : C.policy = .fullyAssociative) (lt : slot < c.lines.length)
      (invalid : (c.line slot).valid = false) (first : ∀ i, i < slot → (c.line i).valid = true)
  | firstOldest (hp : C.policy = .fullyAssociative) (lt : slot < c.lines.length)
      (valid : ∀ l ∈ c.lines, l.valid = true) (oldest : (c.line slot).recency = maxRecency c.lines)
      (first : ∀ i, i < slot → (c.line i).recency ≠ maxRecency c.lines)

theorem isVictim_victim (h : c.lines ≠ []) (idx : Nat) : IsVictim C c idx (victim C c idx) := by
  unfold victim
  split
  next hp => exact .indexed hp rfl
  next hp =>
    split
    next slot hf =>
      obtain ⟨lt, invalid, first⟩ := Cache.line_of_findIdx? hf
      exact .firstInvalid hp lt (by simpa using invalid) fun i hi => by simpa using first i hi
    next hf =>
      have valid : ∀ l ∈ c.lines, l.valid = true := by simpa using hf
      cases hr : c.lines.findIdx? (fun l => l.recency == maxRecency c.lines) with
      | none =>
        obtain ⟨l, hl, he⟩ := exists_recency_eq_maxRecency h
        have := List.findIdx?_eq_none_iff.1 hr l hl
        simp [he] at this
      | some slot =>
        obtain ⟨lt, oldest, first⟩ := Cache.line_of_findIdx? hr
        exact .firstOldest hp lt valid (by simpa using oldest) fun i hi => by simpa using first i hi

/-- The victim is a slot of the cache, if the index is (R71). -/
theorem victim_lt_length {idx : Nat} (h : c.lines ≠ []) (hi : C.policy = .direct → idx < c.lines.length) :
    victim C c idx < c.lines.length := by
  cases isVictim_victim (C := C) h idx with
  | indexed hp eq => rw [eq]; exact hi hp
  | firstInvalid _ lt => exact lt
  | firstOldest _ lt => exact lt

/-! ### The lines after an access -/

/-- The slot touched gets recency 0 in a fully-associative cache (R75). -/
theorem touchLine_self (slot : Nat) (l : Line) :
    touchLine C slot slot l = { l with recency := if C.policy = .fullyAssociative then 0 else l.recency } := by
  unfold touchLine
  cases C.policy <;> simp

/-- Any other valid line of a fully-associative cache ages by 1 (R75). -/
theorem touchLine_of_ne {slot i : Nat} (h : i ≠ slot) (l : Line) :
    touchLine C slot i l
      = if C.policy = .fullyAssociative ∧ l.valid = true then { l with recency := l.recency + 1 } else l := by
  unfold touchLine
  cases C.policy <;> simp [h]

/-- A slot past the lines reads as an invalid line, which does not age. -/
theorem line_touched_of_ne {slot i : Nat} (h : i ≠ slot) (lines : List Line) (x y z : Nat) :
    Cache.line ⟨touch C slot lines, x, y, z⟩ i = touchLine C slot i (lines.getD i (Line.reset 0)) := by
  by_cases hi : i < lines.length
  · exact line_touched hi x y z
  · rw [Cache.line_of_length_le (by simpa using hi), getD_reset_of_length_le (Nat.not_lt.1 hi), touchLine_of_ne h,
      if_neg (by simp [Line.reset])]

theorem lookup_line {a slot : Nat} (h : lookup C c a = some slot) :
    slot < c.lines.length ∧ (c.line slot).valid = true := by
  unfold lookup at h
  split at h
  · split at h
    next hm =>
      cases h
      obtain ⟨hv, -⟩ := Bool.and_eq_true_iff.1 hm
      refine ⟨Nat.lt_of_not_le fun hle => ?_, hv⟩
      rw [Cache.line_of_length_le hle] at hv
      cases hv
    next => cases h
  · obtain ⟨lt, hm, -⟩ := Cache.line_of_findIdx? h
    exact ⟨lt, (Bool.and_eq_true_iff.1 hm).1⟩

end

section
variable {σ : Type} {C : CacheConfig} {low : Store σ} {a slot : Nat} {c c' : Cache} {m m' : σ}

theorem lines_ne_nil (hn : lineCount C ≠ 0) (hlen : c.lines.length = lineCount C) : c.lines ≠ [] :=
  List.ne_nil_of_length_pos (by omega)

variable (h : access C low a (c, m) = .ok slot (c', m'))
include h

theorem access_length : c'.lines.length = c.lines.length := by
  obtain ⟨-, -, rfl⟩ | ⟨-, -, m1, bytes, -, -, rfl⟩ := access_cases h <;> simp

/-- The slot an access names is one of the cache, if the index of its address is (R69, R71). -/
theorem access_slot_lt (hne : c.lines ≠ []) (hi : C.policy = .direct → indexOf C a < c.lines.length) :
    slot < c.lines.length := by
  obtain ⟨hl, -, -⟩ | ⟨-, rfl, -⟩ := access_cases h
  · exact (lookup_line hl).1
  · exact victim_lt_length hne hi

/-- A slot that the access does not name changes by the LRU update only (R75). -/
theorem access_line_of_ne {i : Nat} (hi : i ≠ slot) : c'.line i = touchLine C slot i (c.line i) := by
  obtain ⟨-, -, rfl⟩ | ⟨-, -, m1, bytes, -, -, rfl⟩ := access_cases h
  · exact line_touched_of_ne hi ..
  · rw [line_touched_of_ne hi, getD_set_ne hi.symm]
    rfl

/-- A hit names the line that matches, changes it by the LRU update only, and touches nothing below (R70). -/
theorem access_line_hit {hit : Nat} (hl : lookup C c a = some hit) :
    slot = hit ∧ m' = m ∧ c'.line slot = touchLine C slot slot (c.line slot) := by
  obtain ⟨e, rfl, rfl⟩ | ⟨e, -⟩ := access_cases h
  · rw [hl] at e
    cases e
    exact ⟨rfl, rfl, line_touched (lookup_line hl).1 ..⟩
  · rw [hl] at e
    cases e

/-- A miss names the victim, writes it back if it is valid and dirty, and fills it (R72, R73). -/
theorem access_line_miss (hl : lookup C c a = none) (hs : slot < c.lines.length) :
    slot = victim C c (indexOf C a) ∧ ∃ m1 bytes,
      (if (c.line slot).valid = true ∧ (c.line slot).dirty = true then
          low.write (lineAddr C slot (c.line slot).tag) (c.line slot).data m = .ok () m1
        else m1 = m) ∧
      low.read (a - offsetOf C a) C.bs m1 = .ok bytes m' ∧
      c'.line slot = touchLine C slot slot (filledLine C a bytes (c.line slot)) := by
  obtain ⟨e, -⟩ | ⟨-, hv, m1, bytes, hw, hr, rfl⟩ := access_cases h
  · rw [hl] at e
    cases e
  · exact ⟨hv, m1, bytes, hw, hr, by rw [line_touched (by simpa using hs), getD_set_self hs]⟩

/-- The line an access names is valid afterwards, and its recency is touched (R75). -/
theorem access_slot_line (hs : slot < c.lines.length) : (c'.line slot).valid = true ∧
    (c'.line slot).recency = if C.policy = .fullyAssociative then 0 else (c.line slot).recency := by
  cases hl : lookup C c a with
  | some hit =>
    obtain ⟨rfl, -, e⟩ := access_line_hit h hl
    rw [e, touchLine_self]
    exact ⟨(lookup_line hl).2, rfl⟩
  | none =>
    obtain ⟨-, m1, bytes, -, -, e⟩ := access_line_miss h hl hs
    rw [e, touchLine_self]
    exact ⟨rfl, rfl⟩

/-- In a direct-mapped cache an access changes no recency (R77). -/
theorem access_recency_direct (hp : C.policy = .direct) (i : Nat) : (c'.line i).recency = (c.line i).recency := by
  by_cases hi : i = slot
  · subst hi
    by_cases hs : i < c.lines.length
    · simpa [hp] using (access_slot_line h hs).2
    · rw [Cache.line_of_length_le (c := c) (by omega), Cache.line_of_length_le (by rw [access_length h]; omega)]
  · rw [access_line_of_ne h hi, touchLine_of_ne hi]
    simp [hp]

/-- Where every line is valid after an access to a fully-associative cache of two lines or more, the line just used is not
the next victim: its recency is 0, and that of another line is not (R71, R75). -/
theorem access_slot_not_victim (hp : C.policy = .fullyAssociative) (h2 : 2 ≤ c.lines.length)
    (hall : ∀ l ∈ c'.lines, l.valid = true) (idx : Nat) : victim C c' idx ≠ slot := by
  have hlen := access_length h
  have hs : slot < c.lines.length := access_slot_lt h (List.ne_nil_of_length_pos (by omega)) (by simp [hp])
  obtain ⟨j, hj, hjs⟩ : ∃ j, j < c'.lines.length ∧ j ≠ slot := by
    by_cases h0 : slot = 0
    · exact ⟨1, by omega, by omega⟩
    · exact ⟨0, by omega, Ne.symm h0⟩
  have hage : (c'.line j).recency = (c.line j).recency + 1 := by
    have hv := hall _ (Cache.line_mem hj)
    rw [access_line_of_ne h hjs, touchLine_valid] at hv
    rw [access_line_of_ne h hjs, touchLine_of_ne hjs, if_pos ⟨hp, hv⟩]
  have hzero : (c'.line slot).recency = 0 := by simpa [hp] using (access_slot_line h hs).2
  intro e
  cases e ▸ isVictim_victim (C := C) (c := c') (List.ne_nil_of_length_pos (by omega)) idx with
  | indexed hd => rw [hp] at hd; cases hd
  | firstInvalid _ lt invalid => rw [hall _ (Cache.line_mem lt)] at invalid; cases invalid
  | firstOldest _ _ _ oldest =>
    have := recency_le_maxRecency (Cache.line_mem hj)
    omega

/-- An access that answers counts one hit or one miss, and a write-back for a dirty valid victim (R70, R72). -/
theorem access_countsOne (hn : lineCount C ≠ 0) : CountsOne C a c c' := by
  unfold CountsOne
  obtain ⟨hl, -, rfl⟩ | ⟨hl, rfl, m1, bytes, -, -, rfl⟩ := access_cases h
  · simp [hl]
  · simp [hl, hn]

end

/-! ### Requests that answer -/

section
variable {σ : Type} {C : CacheConfig} {low : Store σ} {a k : Nat} {bytes : List Byte} {cs cs' : Cache × σ}

/-- A read of segments that answers is one access for the first, and a read of the rest from there (R80). -/
theorem readSegments_cons_ok {p j : Nat} {rest : List (Nat × Nat)}
    (h : readSegments C low ((p, j) :: rest) cs = .ok bytes cs') :
    ∃ slot cs1 tail, access C low p cs = .ok slot cs1 ∧ readSegments C low rest cs1 = .ok tail cs' := by
  unfold readSegments at h
  split at h
  · cases h
  next slot cs1 hslot =>
    split at h
    · cases h
    next tail _ hrest =>
      cases h
      exact ⟨slot, cs1, tail, hslot, hrest⟩

/-- A write of segments that answers is one access for the first, whose line it overwrites, and a write of the rest from
there (R81). -/
theorem writeSegments_cons_ok {p j : Nat} {rest : List (Nat × Nat)}
    (h : writeSegments C low ((p, j) :: rest) bytes cs = .ok () cs') :
    ∃ slot cs1, access C low p cs = .ok slot cs1 ∧ writeSegments C low rest (bytes.drop j)
      (cs1.1.setLine slot (writtenLine C (cs1.1.line slot) p (bytes.take j)), cs1.2) = .ok () cs' := by
  unfold writeSegments at h
  split at h
  · cases h
  next slot cs1 hslot => exact ⟨slot, cs1, hslot, h⟩

/-- A read of a zero-line cache that answers is one of the level below, and counts one miss (R82). -/
theorem cacheRead_zero_ok (hn : lineCount C = 0) (h : cacheRead C low a k cs = .ok bytes cs') :
    low.read a k cs.2 = .ok bytes cs'.2 ∧ cs'.1 = { cs.1 with misses := cs.1.misses + 1 } := by
  rw [cacheRead, if_pos hn, zeroLineRead] at h
  split at h
  next e => cases h; exact ⟨e, rfl⟩
  next => cases h

/-- A write of a zero-line cache that answers is one of the level below, and counts one miss (R82). -/
theorem cacheWrite_zero_ok (hn : lineCount C = 0) (h : cacheWrite C low a bytes cs = .ok () cs') :
    low.write a bytes cs.2 = .ok () cs'.2 ∧ cs'.1 = { cs.1 with misses := cs.1.misses + 1 } := by
  rw [cacheWrite, if_pos hn, zeroLineWrite] at h
  split at h
  next e => cases h; exact ⟨e, rfl⟩
  next => cases h

theorem cacheRead_lines_ok (hn : lineCount C ≠ 0) (h : cacheRead C low a k cs = .ok bytes cs') :
    readSegments C low (segments C a k) cs = .ok bytes cs' := by
  rwa [cacheRead, if_neg hn] at h

theorem cacheWrite_lines_ok (hn : lineCount C ≠ 0) (h : cacheWrite C low a bytes cs = .ok () cs') :
    writeSegments C low (segments C a bytes.length) bytes cs = .ok () cs' := by
  rwa [cacheWrite, if_neg hn] at h

/-- An aligned word read that answers is one access (R65, R80). -/
theorem cacheRead_word_ok (g : GeometryOk C) (hn : lineCount C ≠ 0) (ha : a % 4 = 0)
    (h : cacheRead C low a 4 cs = .ok bytes cs') : ∃ slot, access C low a cs = .ok slot cs' := by
  have h := cacheRead_lines_ok hn h
  rw [segments_word g ha] at h
  obtain ⟨slot, cs1, tail, hslot, hrest⟩ := readSegments_cons_ok h
  cases hrest
  exact ⟨slot, hslot⟩

/-- An aligned word write that answers is one access, whose line it overwrites (R65, R81). -/
theorem cacheWrite_word_ok (g : GeometryOk C) (hn : lineCount C ≠ 0) (ha : a % 4 = 0) (hb : bytes.length = 4)
    (h : cacheWrite C low a bytes cs = .ok () cs') : ∃ slot cs1, access C low a cs = .ok slot cs1 ∧
      cs' = (cs1.1.setLine slot (writtenLine C (cs1.1.line slot) a (bytes.take 4)), cs1.2) := by
  have h := cacheWrite_lines_ok hn h
  rw [hb, segments_word g ha] at h
  obtain ⟨slot, cs1, hslot, hrest⟩ := writeSegments_cons_ok h
  cases hrest
  exact ⟨slot, cs1, hslot, rfl⟩

/-! ### The counters -/

theorem readSegments_countsEach (hn : lineCount C ≠ 0) {segs : List (Nat × Nat)}
    (h : readSegments C low segs cs = .ok bytes cs') : CountsEach C low false segs cs cs' := by
  induction segs generalizing cs bytes with
  | nil => cases h; rfl
  | cons seg rest ih =>
    obtain ⟨slot, ⟨served, m⟩, tail, hslot, hrest⟩ := readSegments_cons_ok h
    exact ⟨slot, served, m, [], hslot, access_countsOne hslot hn, ih hrest⟩

theorem writeSegments_countsEach (hn : lineCount C ≠ 0) {segs : List (Nat × Nat)}
    (h : writeSegments C low segs bytes cs = .ok () cs') : CountsEach C low true segs cs cs' := by
  induction segs generalizing cs bytes with
  | nil => cases h; rfl
  | cons seg rest ih =>
    obtain ⟨slot, ⟨served, m⟩, hslot, hrest⟩ := writeSegments_cons_ok h
    exact ⟨slot, served, m, _, hslot, access_countsOne hslot hn, ih hrest⟩

end

/-- The counters of a cache before and after `n` accesses that answered (R70, R72, R82, R85): each is a hit or a miss, only
a miss writes back, and a zero-line cache only misses. -/
structure Grows (C : CacheConfig) (n : Nat) (c c' : Cache) : Prop where
  accesses   : c'.hits + c'.misses = c.hits + c.misses + n
  hits       : c.hits ≤ c'.hits
  misses     : c.misses ≤ c'.misses
  writeBacks : c.writeBacks ≤ c'.writeBacks
  perMiss    : c'.writeBacks - c.writeBacks ≤ c'.misses - c.misses
  zeroLine   : lineCount C = 0 → c'.hits = c.hits ∧ c'.writeBacks = c.writeBacks

section
variable {C : CacheConfig} {c d e : Cache} {n k : Nat}

theorem Grows.and (h : Grows C n c d) :
    d.hits + d.misses = c.hits + c.misses + n ∧ c.hits ≤ d.hits ∧ c.misses ≤ d.misses ∧ c.writeBacks ≤ d.writeBacks ∧
      d.writeBacks - c.writeBacks ≤ d.misses - c.misses ∧
      (lineCount C = 0 → d.hits = c.hits ∧ d.writeBacks = c.writeBacks) :=
  ⟨h.accesses, h.hits, h.misses, h.writeBacks, h.perMiss, h.zeroLine⟩

theorem Grows.refl (C : CacheConfig) (c : Cache) : Grows C 0 c c :=
  ⟨rfl, Nat.le_refl _, Nat.le_refl _, Nat.le_refl _, by omega, fun _ => ⟨rfl, rfl⟩⟩

theorem Grows.trans (h : Grows C n c d) (h' : Grows C k d e) : Grows C (n + k) c e := by
  obtain ⟨a1, h1, m1, w1, p1, z1⟩ := h
  obtain ⟨a2, h2, m2, w2, p2, z2⟩ := h'
  refine ⟨by omega, by omega, by omega, by omega, by omega, fun hn => ?_⟩
  exact ⟨(z2 hn).1.trans (z1 hn).1, (z2 hn).2.trans (z1 hn).2⟩

/-- The lines have no part in how the counters grow. -/
theorem Grows.of_setLine {slot : Nat} {l : Line} (h : Grows C n (c.setLine slot l) d) : Grows C n c d :=
  ⟨h.accesses, h.hits, h.misses, h.writeBacks, h.perMiss, h.zeroLine⟩

theorem grows_of_countsOne (hn : lineCount C ≠ 0) {a : Nat} (h : CountsOne C a c d) : Grows C 1 c d := by
  unfold CountsOne at h
  split at h
  · obtain ⟨hits, misses, writeBacks⟩ := h
    exact ⟨by omega, by omega, by omega, by omega, by omega, fun h0 => absurd h0 hn⟩
  · obtain ⟨hits, misses, writeBacks⟩ := h
    have : d.writeBacks ≤ c.writeBacks + 1 := by
      rw [writeBacks]
      split <;> omega
    exact ⟨by omega, by omega, by omega, by omega, by omega, fun h0 => absurd h0 hn⟩

theorem grows_of_miss : Grows C 1 c { c with misses := c.misses + 1 } :=
  ⟨rfl, Nat.le_refl _, Nat.le_succ _, Nat.le_refl _, by simp, fun _ => ⟨rfl, rfl⟩⟩

end

section
variable {σ : Type} {C : CacheConfig} {low : Store σ} {a k : Nat} {bytes : List Byte} {cs cs' : Cache × σ}

theorem grows_of_countsEach (hn : lineCount C ≠ 0) {write : Bool} {segs : List (Nat × Nat)}
    (h : CountsEach C low write segs cs cs') : Grows C segs.length cs.1 cs'.1 := by
  induction segs generalizing cs with
  | nil => cases h; exact .refl ..
  | cons seg rest ih =>
    obtain ⟨slot, served, m, data, -, hone, hrest⟩ := h
    have hrest : Grows C rest.length served cs'.1 := by
      cases write with
      | false => exact ih hrest
      | true => exact (ih hrest).of_setLine
    rw [List.length_cons, Nat.add_comm]
    exact (grows_of_countsOne hn hone).trans hrest

/-- A read request that answers counts one access for each segment, or one miss in a zero-line cache (R80, R82, R85). -/
theorem cacheRead_grows (h : cacheRead C low a k cs = .ok bytes cs') : Grows C (requestCount C a k) cs.1 cs'.1 := by
  unfold requestCount
  split
  next hn => rw [(cacheRead_zero_ok hn h).2]; exact grows_of_miss
  next hn => exact grows_of_countsEach hn (readSegments_countsEach hn (cacheRead_lines_ok hn h))

/-- A write request that answers counts one access for each segment, or one miss in a zero-line cache (R81, R82, R85). -/
theorem cacheWrite_grows (h : cacheWrite C low a bytes cs = .ok () cs') :
    Grows C (requestCount C a bytes.length) cs.1 cs'.1 := by
  unfold requestCount
  split
  next hn => rw [(cacheWrite_zero_ok hn h).2]; exact grows_of_miss
  next hn => exact grows_of_countsEach hn (writeSegments_countsEach hn (cacheWrite_lines_ok hn h))

/-! ### The counters after a word access -/

/-- A zero-line cache counts one miss, which is what `CountsOne` says of it (R82). -/
theorem countsOne_of_miss (hlen : cs.1.lines.length = lineCount C) (hn : lineCount C = 0) (a : Nat) :
    CountsOne C a cs.1 { cs.1 with misses := cs.1.misses + 1 } := by
  simp [CountsOne, lookup_of_no_lines (List.length_eq_zero_iff.1 (hlen.trans hn)), hn]

theorem cacheRead_word_countsOne (g : GeometryOk C) (hlen : cs.1.lines.length = lineCount C) (ha : a % 4 = 0)
    (h : cacheRead C low a 4 cs = .ok bytes cs') : CountsOne C a cs.1 cs'.1 := by
  by_cases hn : lineCount C = 0
  · rw [(cacheRead_zero_ok hn h).2]
    exact countsOne_of_miss hlen hn a
  · obtain ⟨slot, hslot⟩ := cacheRead_word_ok g hn ha h
    exact access_countsOne hslot hn

theorem cacheWrite_word_countsOne (g : GeometryOk C) (hlen : cs.1.lines.length = lineCount C) (ha : a % 4 = 0)
    (hb : bytes.length = 4) (h : cacheWrite C low a bytes cs = .ok () cs') : CountsOne C a cs.1 cs'.1 := by
  by_cases hn : lineCount C = 0
  · rw [(cacheWrite_zero_ok hn h).2]
    exact countsOne_of_miss hlen hn a
  · obtain ⟨slot, cs1, hslot, rfl⟩ := cacheWrite_word_ok g hn ha hb h
    exact (access_countsOne hslot hn :)

end

section
variable {cfg : Config} {C : CacheConfig} {a : Nat} {bytes : List Byte} {cs cs' : Cache × Cache × Memory}

/-- The counters of L2 under one access of a cache above it: a hit makes no request, a miss those of the fill and of the
write-back of a dirty valid victim (R72, R73). -/
theorem access_l2_grows (hn : lineCount C ≠ 0) {slot : Nat} (h : access C (l2Store cfg) a cs = .ok slot cs') :
    Grows cfg.l2 (l2Accesses cfg.l2 C cs.1 a) cs.2.1 cs'.2.1 := by
  obtain ⟨hl, hm, -⟩ | ⟨hl, rfl, m1, fillBytes, hw, hr, -⟩ := access_cases h
  · simp only [l2Accesses, hn, if_false, hl, hm]
    exact .refl ..
  · simp only [l2Accesses, hn, if_false, hl]
    refine Grows.trans (d := m1.1) ?_ (cacheRead_grows hr)
    split at hw
    next hd => exact if_pos hd ▸ cacheWrite_grows hw
    next hd => subst hw; exact if_neg hd ▸ .refl ..

theorem cacheRead_word_l2_grows (g : GeometryOk C) (ha : a % 4 = 0)
    (h : cacheRead C (l2Store cfg) a 4 cs = .ok bytes cs') :
    Grows cfg.l2 (l2Accesses cfg.l2 C cs.1 a) cs.2.1 cs'.2.1 := by
  by_cases hn : lineCount C = 0
  · rw [l2Accesses, if_pos hn]
    exact cacheRead_grows (cacheRead_zero_ok hn h).1
  · obtain ⟨slot, hslot⟩ := cacheRead_word_ok g hn ha h
    exact access_l2_grows hn hslot

theorem cacheWrite_word_l2_grows (g : GeometryOk C) (ha : a % 4 = 0) (hb : bytes.length = 4)
    (h : cacheWrite C (l2Store cfg) a bytes cs = .ok () cs') :
    Grows cfg.l2 (l2Accesses cfg.l2 C cs.1 a) cs.2.1 cs'.2.1 := by
  by_cases hn : lineCount C = 0
  · rw [l2Accesses, if_pos hn, ← hb]
    exact cacheWrite_grows (cacheWrite_zero_ok hn h).1
  · obtain ⟨slot, cs1, hslot, rfl⟩ := cacheWrite_word_ok g hn ha hb h
    exact (access_l2_grows hn hslot :)

end

/-! ### An access that answers, from a state that meets the invariant -/

section
variable {s t : State} {a v w : Word}

theorem withDataSide_sameCpu (s : State) (k : Cache × Cache × Memory) : SameCpu s (s.withDataSide k) :=
  ⟨rfl, rfl, rfl, rfl, rfl, rfl, rfl⟩

/-- A fetch that answers gives the instruction view's word and leaves what `Fetched` says (R92, R95, R101). -/
theorem fetchInstruction_answers (hs : s.Inv) (h : fetchInstruction a s = .ok (w, t)) :
    w = s.instrWord a.toNat ∧ Fetched s t := by
  have ha := (fetchInstruction_ok h).1
  by_cases hf : FetchFits s.cfg a.toNat
  · obtain ⟨u, e, hu⟩ := fetchInstruction_fetched hs ha hf
    rw [h] at e
    cases e
    exact ⟨rfl, hu⟩
  · obtain ⟨x, j, u, e, -⟩ := fetchInstruction_outOfBounds hs ha hf
    rw [h] at e
    cases e

/-- A data read that answers gives the data view's word, changes the data side only, and no byte of its view
(R93, R95, R101). -/
theorem readData_answers (hs : s.Inv) (h : readData a s = .ok (w, t)) :
    w = s.dataWord a.toNat ∧ (∃ k, t = s.withDataSide k) ∧ t.Inv ∧ t.dataByte = s.dataByte := by
  have ha := wordAligned_iff.2 (readData_ok h).1
  by_cases hf : DataFits s.cfg a.toNat
  · obtain ⟨k, e, inv, view⟩ := readData_fits hs ha hf
    rw [h] at e
    cases e
    exact ⟨rfl, ⟨k, rfl⟩, inv, view⟩
  · obtain ⟨x, j, k, e, -⟩ := readData_short hs ha hf
    rw [h] at e
    cases e

/-- A data write that answers changes the data side only and is a word write of the data view (R79, R94). -/
theorem writeData_answers (hs : s.Inv) (h : writeData a v s = .ok t) :
    (∃ k, t = s.withDataSide k) ∧ t.Inv ∧ t.dataByte = flatWrite s.dataByte a.toNat v := by
  have ha := wordAligned_iff.2 (writeData_ok h).1
  by_cases hf : DataFits s.cfg a.toNat
  · obtain ⟨k, e, inv, view⟩ := writeData_fits hs v ha hf
    rw [h] at e
    cases e
    exact ⟨⟨k, rfl⟩, inv, view.trans (overlay_bytesLe32 ..)⟩
  · obtain ⟨x, j, k, e, -⟩ := writeData_short hs v ha hf
    rw [h] at e
    cases e

end

/-! ### Sequences of data accesses -/

section
variable {a v : Word} {rest : List DataAccess} {s t : State} {words : List Word}

/-- A sequence that starts with a read answers when the read does and the rest does from what it leaves. -/
theorem cachedRun_read (h : cachedRun (.read a :: rest) s = .ok (words, t)) :
    ∃ w u ws, readData a s = .ok (w, u) ∧ cachedRun rest u = .ok (ws, t) ∧ words = w :: ws := by
  unfold cachedRun at h
  split at h
  · cases h
  next w u hr =>
    split at h
    · cases h
    next ws _ hrest =>
      cases h
      exact ⟨w, u, ws, hr, hrest, rfl⟩

/-- A sequence that starts with a write answers when the write does and the rest does from what it leaves. -/
theorem cachedRun_write (h : cachedRun (.write a v :: rest) s = .ok (words, t)) :
    ∃ u, writeData a v s = .ok u ∧ cachedRun rest u = .ok (words, t) := by
  unfold cachedRun at h
  split at h
  · cases h
  next u hw => exact ⟨u, hw, h⟩

end

/-- A sequence of accesses that answers reads and leaves what it does on a flat memory with the bytes of the data view
(R96, R100). -/
theorem cachedRun_eq_flatRun {accesses : List DataAccess} {s t : State} {words : List Word} (hs : s.Inv)
    (h : cachedRun accesses s = .ok (words, t)) : (words, t.dataByte) = flatRun accesses s.dataByte := by
  induction accesses generalizing s words with
  | nil => cases h; rfl
  | cons access rest ih =>
    cases access with
    | read a =>
      obtain ⟨w, u, ws, hr, hrest, rfl⟩ := cachedRun_read h
      obtain ⟨rfl, -, hu, view⟩ := readData_answers hs hr
      rw [flatRun, ← view, ← ih hu hrest, view]
      rfl
    | write a v =>
      obtain ⟨u, hw, hrest⟩ := cachedRun_write h
      obtain ⟨-, hu, view⟩ := writeData_answers hs hw
      rw [flatRun, ← view, ← ih hu hrest]

/-! ### An instruction that changes a byte of data -/

/-- No instruction but STR changes a byte of the data view (R101, R172). -/
theorem exec_dataByte {i : Instr} {s t : State} (hs : s.Inv) (h : exec i s = .next t) (hi : ∀ f, i ≠ .str f) :
    t.dataByte = s.dataByte := by
  cases exec_cases i with
  | writes thumb rd res _ _ _ run =>
    obtain ⟨u, e, w⟩ := writeResult_spec thumb rd (res s) s
    rw [run, e] at h
    cases h
    exact funext w.rest.bytes.data
  | compares res _ _ _ run =>
    obtain ⟨u, e, w⟩ := compareResult_spec (res s) s
    rw [run, e] at h
    cases h
    exact funext w.rest.bytes.data
  | absent w _ run => rw [run] at h; cases h
  | stores f eq => exact absurd eq (hi f)
  | loads f eq =>
    subst eq
    simp only [exec, execLdr] at h
    split at h
    next e =>
      obtain ⟨-, -, -, view⟩ := readData_answers hs e
      cases h
      rw [finish_dataByte, setReg_dataByte, view]
    next => cases h
  | branches f eq => subst eq; cases h; rw [finish_dataByte, setPc_dataByte]
  | links f eq => subst eq; cases h; rw [finish_dataByte, setPc_dataByte, setReg_dataByte]
  | unknown _ run => rw [run] at h; cases h; rfl

/-- An STR that goes on is a word write of the data view at its effective address (R172). -/
theorem execStr_dataByte {f : LoadStore} {s t : State} (hs : s.Inv) (h : execStr f s = .next t) :
    t.dataByte = flatWrite s.dataByte (effectiveAddress f s).toNat (s.reg f.rd) := by
  unfold execStr at h
  split at h
  next e =>
    obtain ⟨-, -, view⟩ := writeData_answers hs e
    cases h
    rw [finish_dataByte, view]
  next => cases h

/-- A flat write changes bytes of its word only. -/
theorem mem_of_flatWrite_ne {m : Nat → Byte} {a x : Nat} {v : Word} (h : flatWrite m a v x ≠ m x) :
    a ≤ x ∧ x < a + 4 :=
  Decidable.byContradiction fun hx => h (if_neg hx)

/-- A step that goes on has fetched, leaving what `Fetched` says, and executed what it fetched (R51). -/
theorem step_next {s t : State} (hs : s.Inv) (h : step s = .next t) :
    ∃ raw s1, fetchRaw s = .ok (raw, s1) ∧ Fetched s s1 ∧ exec (decode raw) s1 = .next t := by
  unfold step at h
  obtain ⟨-, e⟩ | ⟨a, fault, hf, e⟩ | ⟨a, w, raw, s1, hf, e⟩ := fetchRaw_cases s <;> rw [e] at h
  · cases h
  · cases h
  · exact ⟨raw, s1, e, (fetchInstruction_answers hs hf).2, h⟩

theorem effectiveAddress_congr {s t : State} (h : t.regs = s.regs) (f : LoadStore) :
    effectiveAddress f t = effectiveAddress f s := by
  simp only [effectiveAddress, State.reg, h]

/-! ### An access that hits -/

section
variable {C : CacheConfig} {c : Cache} {a slot : Nat}

theorem lineCount_ne_zero_of_lookup (hlen : c.lines.length = lineCount C) (h : lookup C c a = some slot) :
    lineCount C ≠ 0 := by
  have := (lookup_line h).1
  omega

/-- The bytes of an aligned word are in one block (R65). -/
theorem div_add_of_word (g : GeometryOk C) (ha : a % 4 = 0) {i : Nat} (hi : i < 4) : (a + i) / C.bs = a / C.bs := by
  have hb := word_in_block g ha
  have hdm := Nat.div_add_mod' a C.bs
  refine Nat.div_eq_of_lt_le (by omega) ?_
  rw [Nat.add_mul]
  omega

/-- What a cache shows of a word that it holds does not depend on the level below (R95, R99). -/
theorem viewThrough_of_lookup (g : GeometryOk C) (w : CacheWf C c) (ha : a % 4 = 0) (h : lookup C c a = some slot)
    {i : Nat} (hi : i < 4) (below : Nat → Byte) :
    viewThrough C c below (a + i) = (c.line slot).data.getD ((a + i) % C.bs) 0 := by
  obtain ⟨lt, valid, block⟩ := holds_of_lookup g (lineCount_ne_zero_of_lookup w.count h) w h
  exact viewThrough_of_holds g w ⟨lt, valid, block.trans (div_add_of_word g ha hi).symm⟩ below

/-- Overwriting the line that holds an address leaves it holding the address, dirty (R79, R81). -/
theorem holds_setLine_writtenLine (hlen : c.lines.length = lineCount C) (h : Holds C c slot a) (p : Nat)
    (bytes : List Byte) : Holds C (c.setLine slot (writtenLine C (c.line slot) p bytes)) slot a ∧
      ((c.setLine slot (writtenLine C (c.line slot) p bytes)).line slot).dirty = true := by
  have e : (c.setLine slot (writtenLine C (c.line slot) p bytes)).line slot = writtenLine C (c.line slot) p bytes :=
    (Cache.setLine_line (hlen ▸ h.lt) slot).trans (if_pos rfl)
  exact ⟨⟨h.lt, by rw [e]; exact h.valid, by rw [e]; exact h.block⟩, by rw [e]; rfl⟩

end

section
variable {s t : State} {a b v w : Word} {slot : Nat}

/-- After a data access has been resolved the slot it names holds the address's block (R70). -/
theorem l1d_access_holds (hs : s.Inv) (hn : lineCount s.cfg.l1d ≠ 0) {cs1 : Cache × Cache × Memory}
    (h : access s.cfg.l1d (l2Store s.cfg) a.toNat s.dataSide = .ok slot cs1) :
    Holds s.cfg.l1d cs1.1 slot a.toNat ∧ cs1.1.lines.length = lineCount s.cfg.l1d := by
  obtain ⟨holds, ok, -⟩ :=
    access_ok (geometryOk_of_check hs.config.l1d) hn (contract_l2Store hs.config) hs.l1dGood.ok h
  exact ⟨holds, ok.shape.count⟩

/-- A fetch answers when its read through L1I does (R92). -/
theorem fetchInstruction_of_read {bytes : List Byte} {k : Cache × Cache × Memory} (ha : a.toNat % 4 = 0)
    (h : cacheRead s.cfg.l1i (l2Store s.cfg) a.toNat 4 s.instrSide = .ok bytes k) :
    fetchInstruction a s = .ok (wordOfBytes bytes, s.withInstrSide k) := by
  rw [fetchInstruction, if_pos (wordAligned_iff.2 ha)]
  simp only [l1iStore, cacheStore, h]

/-- A data read answers when its read through L1D does (R93). -/
theorem readData_of_read {bytes : List Byte} {k : Cache × Cache × Memory} (ha : a.toNat % 4 = 0)
    (h : cacheRead s.cfg.l1d (l2Store s.cfg) a.toNat 4 s.dataSide = .ok bytes k) :
    readData a s = .ok (wordOfBytes bytes, s.withDataSide k) := by
  rw [readData, if_pos (wordAligned_iff.2 ha)]
  simp only [l1dStore, cacheStore, h]

/-- A data write answers when its write through L1D does (R94). -/
theorem writeData_of_write {k : Cache × Cache × Memory} (ha : a.toNat % 4 = 0)
    (h : cacheWrite s.cfg.l1d (l2Store s.cfg) a.toNat (bytesLe32 v) s.dataSide = .ok () k) :
    writeData a v s = .ok (s.withDataSide k) := by
  rw [writeData, if_pos (wordAligned_iff.2 ha)]
  simp only [l1dStore, cacheStore, h]

/-- A read that hits answers, counts one hit in L1D, and touches nothing below (R70, R93). -/
theorem readData_of_hit (hs : s.Inv) (ha : a.toNat % 4 = 0) (h : lookup s.cfg.l1d s.l1d a.toNat = some slot) :
    ∃ w, readData a s = .ok (w, s.withDataSide
      ({ s.l1d with lines := touch s.cfg.l1d slot s.l1d.lines, hits := s.l1d.hits + 1 }, s.l2, s.mem)) := by
  have hn := lineCount_ne_zero_of_lookup hs.l1dShape.count h
  exact ⟨_, readData_of_read ha (cacheRead_hit (geometryOk_of_check hs.config.l1d) hn ha h)⟩

/-- A fetch that hits answers (R70, R92). -/
theorem fetchInstruction_of_hit (hs : s.Inv) (ha : a.toNat % 4 = 0) (h : lookup s.cfg.l1i s.l1i a.toNat = some slot) :
    ∃ w t, fetchInstruction a s = .ok (w, t) := by
  have hn := lineCount_ne_zero_of_lookup hs.l1iShape.count h
  exact ⟨_, _, fetchInstruction_of_read ha (cacheRead_hit (geometryOk_of_check hs.config.l1i) hn ha h)⟩

/-- A word that L1I holds is the word of the instruction view, whatever lies below L1I (R95, R99). -/
theorem instrWord_of_lookup (hs : s.Inv) (hc : t.cfg = s.cfg) (hi : t.l1i = s.l1i) {a : Nat}
    (ha : a % 4 = 0) (h : lookup s.cfg.l1i s.l1i a = some slot) : t.instrWord a = s.instrWord a := by
  have g := geometryOk_of_check hs.config.l1i
  have e : ∀ i, i < 4 → t.instrByte (a + i) = s.instrByte (a + i) := fun i hlt => by
    rw [State.instrByte, State.instrByte, hc, hi, viewThrough_of_lookup g hs.l1iShape ha h hlt,
      viewThrough_of_lookup g hs.l1iShape ha h hlt]
  rw [State.instrWord, State.instrWord, e 1 (by omega), e 2 (by omega), e 3 (by omega)]
  exact congrArg (le32 · _ _ _) (e 0 (by omega))

end

/-! ### The flat variant -/

section
variable {cfg : Config} {C : CacheConfig} {c c2 : Cache} {m : Memory} {a k : Nat} {bytes : List Byte}

theorem lineCount_of_cap_zero (h : C.cap = 0) : lineCount C = 0 := by
  rw [lineCount, h, Nat.zero_div]

/-- With no lines above it, main memory serves a read itself, and each cache counts one miss (R82, R90). -/
theorem cacheRead_flat (h : lineCount C = 0) (h2 : lineCount cfg.l2 = 0) (hle : a + k ≤ cfg.memSize) :
    cacheRead C (l2Store cfg) a k (c, c2, m) = .ok (m.readBytes a k)
      ({ c with misses := c.misses + 1 }, { c2 with misses := c2.misses + 1 }, m) := by
  simp [cacheRead, h, zeroLineRead, l2Store, cacheStore, h2, mainStore, mainRead, Nat.not_lt.2 hle]

/-- With no lines above it, main memory serves a write itself, and each cache counts one miss (R82, R90). -/
theorem cacheWrite_flat (h : lineCount C = 0) (h2 : lineCount cfg.l2 = 0) (hle : a + bytes.length ≤ cfg.memSize) :
    cacheWrite C (l2Store cfg) a bytes (c, c2, m) = .ok ()
      ({ c with misses := c.misses + 1 }, { c2 with misses := c2.misses + 1 }, m.writeBytes a bytes) := by
  simp [cacheWrite, h, zeroLineWrite, l2Store, cacheStore, h2, mainStore, mainWrite, Nat.not_lt.2 hle]

/-- With no lines above it, main memory serves a fetch itself (R90). -/
theorem fetchInstruction_flat {s : State} {a : Word} (h : lineCount s.cfg.l1i = 0) (h2 : lineCount s.cfg.l2 = 0)
    (ha : a.toNat % 4 = 0) (hle : a.toNat + 4 ≤ s.cfg.memSize) :
    fetchInstruction a s = .ok (wordOfBytes (s.mem.readBytes a.toNat 4),
      { s with l1i := { s.l1i with misses := s.l1i.misses + 1 }, l2 := { s.l2 with misses := s.l2.misses + 1 } }) :=
  fetchInstruction_of_read ha (cacheRead_flat h h2 hle)

/-- A word read from main memory after a word write there is the word written (R62, R63). -/
theorem wordOfBytes_readBytes_writeBytes (hm : Memory.wf m) (a : Nat) (v : Word) :
    wordOfBytes ((m.writeBytes a (bytesLe32 v)).readBytes a 4) = v := by
  have e : bytesLe32 v = bytesFrom (overlay m.readByte a (bytesLe32 v)) a 4 :=
    eq_bytesFrom rfl fun i hi => by
      rw [overlay_of_mem (b := bytesLe32 v) (Nat.le_add_right a i) (Nat.add_lt_add_left hi a), Nat.add_sub_cancel_left]
  rw [readBytes_eq_bytesFrom, Memory.readByte_writeBytes hm, ← e, wordOfBytes_bytesLe32]

/-- With no lines above it, a fetch of a word just stored in main memory sees the word (R90). -/
theorem fetchInstruction_flat_of_stored {s : State} {a v : Word} (h : lineCount s.cfg.l1i = 0)
    (h2 : lineCount s.cfg.l2 = 0) (ha : a.toNat % 4 = 0) (hle : a.toNat + 4 ≤ s.cfg.memSize) (hm : Memory.wf s.mem)
    (c1 c2 : Cache) :
    ∃ u, fetchInstruction a (s.withDataSide (c1, c2, s.mem.writeBytes a.toNat (bytesLe32 v))) = .ok (v, u) := by
  have e := fetchInstruction_flat (s := s.withDataSide (c1, c2, s.mem.writeBytes a.toNat (bytesLe32 v))) h h2 ha hle
  rw [withDataSide_mem, wordOfBytes_readBytes_writeBytes hm] at e
  exact ⟨_, e⟩

end

end Sys2Proof.Machine

namespace Sys2Proof.Proofs

open Sys2Proof.Machine Sys2Proof.Statements

/-- Settles O45: one access does to the data view what it does to a flat memory and keeps the invariant, so a sequence
does, by induction. -/
theorem cachesRefineFlatMemory : Obligations.CachesRefineFlatMemory := by
  intro accesses s t words hs h
  rw [← cachedRun_eq_flatRun hs h]
  exact ⟨rfl, fun _ => rfl⟩

/-- Settles O44, by what each of the three accesses answers from a state that meets the invariant. -/
theorem accessReturnsView : Obligations.AccessReturnsView := by
  refine fun s t a hs => ⟨fun w h => ?_, fun w h => ?_, fun v h => ?_⟩
  · obtain ⟨hw, cpu, l1d, bytes, -, -⟩ := fetchInstruction_answers hs h
    exact ⟨hw, cpu, l1d, bytes⟩
  · obtain ⟨hw, ⟨k, rfl⟩, -, view⟩ := readData_answers hs h
    exact ⟨hw, withDataSide_sameCpu s k, rfl, congrFun view⟩
  · obtain ⟨⟨k, rfl⟩, -, view⟩ := writeData_answers hs h
    exact ⟨withDataSide_sameCpu s k, rfl, congrFun view⟩

/-- Settles O46: the fetch changes no byte of data and no register, and of the instructions only STR changes a byte, in
the word at its effective address. -/
theorem onlyStrChangesData : Obligations.OnlyStrChangesData := by
  intro s t a hs h ha
  obtain ⟨raw, s1, hraw, fetched, hx⟩ := step_next hs h
  rw [← fetched.bytes] at ha
  by_cases hstr : ∃ f, decode raw = .str f
  · obtain ⟨f, hf⟩ := hstr
    rw [hf] at hx
    rw [execStr_dataByte fetched.inv hx, effectiveAddress_congr fetched.cpu.regs] at ha
    exact ⟨raw, s1, f, hraw, hf, mem_of_flatWrite_ne ha⟩
  · exact absurd (congrFun (exec_dataByte fetched.inv hx (not_exists.1 hstr)) a) ha

/-- Settles O35: the check is the first of the four that is not passed, and construction asks it of the three caches. -/
theorem constructionChecks : Obligations.ConstructionChecks := by
  refine ⟨fun C => ⟨checkCache_eq_none_iff C, ?_⟩, fun L => ?_,
    fun L e h => checkCache_of_checkConfig (construct_error_iff.1 h)⟩
  · cases checkCases C with
    | _ => simp [*]
  · rw [construct_ok_iff, checkConfig_eq_none_iff, checkCache_eq_none_iff, checkCache_eq_none_iff, checkCache_eq_none_iff]

/-- Settles O39: the bytes read are those that memory shows, and the bytes written are laid over it. -/
theorem mainMemoryRequests : Obligations.MainMemoryRequests := by
  refine fun memSize a m hm => ⟨fun k h => if_pos h, fun k h => ?_, fun b h => if_pos h, fun b h => ?_⟩
  · refine ⟨bytesFrom m.readByte a k, ?_, length_bytesFrom .., fun i hi => getElem_bytesFrom m.readByte a hi⟩
    rw [mainRead, if_neg (by omega), readBytes_eq_bytesFrom]
  · refine ⟨m.writeBytes a b, if_neg (by omega), Memory.wf_writeBytes hm a b, fun i hi => ?_, fun x hx => ?_⟩
    · rw [Memory.readByte_writeBytes hm, overlay_of_mem (by omega) (by omega), Nat.add_sub_cancel_left,
        getD_eq_getElem hi]
    · rw [Memory.readByte_writeBytes hm, overlay_of_not_mem (by omega)]

/-- Settles O40: an aligned range of at most a block lies in one block, as the block size is a multiple of its size, and a
larger one is whole blocks. -/
theorem segmentsCoverRequest : Obligations.SegmentsCoverRequest := by
  intro C a k hbs
  have one : ∀ k, PowerOfTwo C.bs → PowerOfTwo k → a % k = 0 → k ≤ C.bs → segments C a k = [(a, k)] :=
    fun k hb hk ha hle => segmentsFrom_of_within (powerOfTwo_pos hk) (Nat.le_refl k)
      (mod_add_le_of_dvd hbs (powerOfTwo_dvd_of_le hk hb hle) ha)
  refine ⟨?_, fun seg => mem_segmentsFrom hbs, fun hp ha => one 4 hp.1 ⟨2, rfl⟩ ha hp.2,
    fun hb hk ha => ⟨one k hb hk ha, fun hlt => ?_⟩⟩
  · simpa [segments] using flatMap_segmentsFrom hbs (fuel := k) (Nat.le_add_right a k) (by omega)
  · have hd : C.bs ∣ k := powerOfTwo_dvd_of_le hb hk (by omega)
    have ha' : a % C.bs = 0 := Nat.mod_eq_zero_of_dvd (Nat.dvd_trans hd (Nat.dvd_of_mod_eq_zero ha))
    have := segmentsFrom_blocks hbs (fuel := k) (n := k / C.bs) ha' (Nat.div_mul_le_self ..)
    rwa [Nat.div_mul_cancel hd] at this

/-- Settles O41: in division and remainder, a line's block address is its block number times the block size. -/
theorem lineAddressInvertsDecomposition : Obligations.LineAddressInvertsDecomposition := by
  intro C hC hn
  have g := geometryOk_of_check ((checkCache_eq_none_iff C).2 hC)
  refine ⟨fun a slot hs => ⟨?_, offsetOf_lt g a, indexOf_lt g hn a⟩, fun slot tag => lineAddr_lt g⟩
  rw [lineAddr_tagOf g hn hs, offsetOf_eq g, Nat.div_add_mod']

/-- Settles O42: a victim is the indexed slot, the first invalid one, or the first whose recency is the largest. -/
theorem victimChoice : Obligations.VictimChoice := by
  refine fun C c idx => ⟨fun hp => by simp [victim, hp], fun hp hne => ?_⟩
  cases isVictim_victim (C := C) hne idx with
  | indexed hd => rw [hp] at hd; cases hd
  | firstInvalid _ lt invalid first =>
    refine ⟨lt, fun _ => ⟨invalid, first⟩, fun hall => ?_⟩
    rw [hall _ (Cache.line_mem lt)] at invalid
    cases invalid
  | firstOldest _ lt valid oldest first =>
    refine ⟨lt, fun ⟨l, hl, hv⟩ => ?_, fun _ => ⟨fun i hi => ?_, fun i hi => ?_⟩⟩
    · rw [valid l hl] at hv
      cases hv
    · rw [oldest]
      exact recency_le_maxRecency (Cache.line_mem hi)
    · rw [oldest]
      exact Nat.lt_of_le_of_ne (recency_le_maxRecency (Cache.line_mem (Nat.lt_trans hi lt))) (first i hi)

/-- Settles O43, by what an access makes of the slot it names and of the others. -/
theorem justUsedLineSurvives : Obligations.JustUsedLineSurvives := by
  intro σ C low a slot c c' m m' hn hlen h
  refine ⟨fun hp => ?_, access_recency_direct h⟩
  have hs := access_slot_lt h (lines_ne_nil hn hlen) (by simp [hp])
  obtain ⟨valid, recency⟩ := access_slot_line h hs
  refine ⟨hlen ▸ hs, (access_length h).trans hlen, valid, by simpa [hp] using recency, fun i _ hi hv => ?_,
    fun i _ hi hv => ?_, fun h2 => access_slot_not_victim h hp (hlen ▸ h2)⟩
  · rw [access_line_of_ne h hi, touchLine_of_ne hi, if_pos ⟨hp, hv⟩]
  · rw [access_line_of_ne h hi, touchLine_of_ne hi, if_neg (by simp [hv])]

/-- Settles O54, by the lines that a hit and a miss leave. -/
theorem missWritesBackThenFills : Obligations.MissWritesBackThenFills := by
  intro σ C low a slot c c' m m' hn hlen hidx h
  have hs := access_slot_lt h (lines_ne_nil hn hlen) (hlen ▸ hidx)
  refine ⟨access_countsOne h hn, (access_slot_line h hs).2, fun i hi => ?_, fun hit hl => ?_, fun hl => ?_⟩
  · rw [access_line_of_ne h hi, touchLine_of_ne hi]
  · obtain ⟨hslot, hm, e⟩ := access_line_hit h hl
    refine ⟨hslot, hm, ?_⟩
    rw [e, touchLine_self]
  · obtain ⟨hslot, m1, bytes, hw, hr, e⟩ := access_line_miss h hl hs
    refine ⟨hslot, m1, bytes, hw, hr, ?_⟩
    rw [e, touchLine_self]
    rfl

/-- Settles O47: a request with lines is a chain of accesses that each count one, a zero-line request counts one miss, and
an aligned word is one segment. -/
theorem wordAccessCountsOnce : Obligations.WordAccessCountsOnce := by
  refine ⟨fun σ C low a c c' m m' hn => ⟨fun k bytes h => ?_, fun bytes h => ?_⟩,
    fun σ C low a c c' m m' hn => ⟨fun k bytes h => (cacheRead_zero_ok hn h).2,
      fun bytes h => (cacheWrite_zero_ok hn h).2⟩, fun s t a cfg hi hd => ⟨fun w h => ?_, fun w h => ?_, fun v h => ?_⟩⟩
  · have each := readSegments_countsEach hn (cacheRead_lines_ok hn h)
    exact ⟨each, (grows_of_countsEach hn each).accesses⟩
  · have each := writeSegments_countsEach hn (cacheWrite_lines_ok hn h)
    exact ⟨each, (grows_of_countsEach hn each).accesses⟩
  · obtain ⟨ha, bytes, k, hr, rfl, -⟩ := fetchInstruction_ok h
    exact cacheRead_word_countsOne (geometryOk_of_check cfg.l1i) hi ha hr
  · obtain ⟨ha, bytes, k, hr, rfl, -⟩ := readData_ok h
    exact cacheRead_word_countsOne (geometryOk_of_check cfg.l1d) hd ha hr
  · obtain ⟨ha, k, hw, rfl⟩ := writeData_ok h
    exact cacheWrite_word_countsOne (geometryOk_of_check cfg.l1d) hd ha rfl hw

/-- Settles O55: the requests that an L1 makes to L2 each grow its counters by the accesses they count. -/
theorem l2CountsItsRequests : Obligations.L2CountsItsRequests := by
  intro s t a cfg hi hd
  refine ⟨fun w h => ?_, fun w h => ?_, fun v h => ?_⟩
  · obtain ⟨ha, bytes, k, hr, rfl, -⟩ := fetchInstruction_ok h
    exact (cacheRead_word_l2_grows (geometryOk_of_check cfg.l1i) ha hr).and
  · obtain ⟨ha, bytes, k, hr, rfl, -⟩ := readData_ok h
    exact (cacheRead_word_l2_grows (geometryOk_of_check cfg.l1d) ha hr).and
  · obtain ⟨ha, k, hw, rfl⟩ := writeData_ok h
    exact (cacheWrite_word_l2_grows (geometryOk_of_check cfg.l1d) ha rfl hw).and

/-- Settles O48: the access of the write leaves the block in the slot it names, which the write makes dirty; an access that
hits makes no request below. -/
theorem storeStaysInL1D : Obligations.StoreStaysInL1D := by
  intro s t a v hs hn h
  obtain ⟨-, inv, -⟩ := writeData_answers hs h
  obtain ⟨ha, k, hw, rfl⟩ := writeData_ok h
  have g := geometryOk_of_check hs.config.l1d
  obtain ⟨slot, cs1, hslot, rfl⟩ := cacheWrite_word_ok g hn ha rfl hw
  obtain ⟨holds, hlen⟩ := l1d_access_holds hs hn hslot
  obtain ⟨holds, dirty⟩ := holds_setLine_writtenLine hlen holds a.toNat ((bytesLe32 v).take 4)
  refine ⟨⟨slot, lookup_of_holds g inv.l1dShape holds, dirty⟩, fun hhit => ?_⟩
  obtain ⟨hit, hl⟩ := Option.ne_none_iff_exists'.1 hhit
  obtain ⟨-, hm, -⟩ := access_line_hit hslot hl
  exact ⟨congrArg Prod.fst hm, congrArg Prod.snd hm⟩

/-- Settles O49: the first read leaves the block in L1D and no byte of the view changed, so the second hits and answers the
same word. -/
theorem secondReadHits : Obligations.SecondReadHits := by
  intro s t a w hs hn h
  obtain ⟨rfl, -, inv, view⟩ := readData_answers hs h
  obtain ⟨ha, bytes, k, hr, rfl, -⟩ := readData_ok h
  have g := geometryOk_of_check hs.config.l1d
  obtain ⟨slot, hslot⟩ := cacheRead_word_ok g hn ha hr
  have hl := lookup_of_holds g inv.l1dShape (l1d_access_holds hs hn hslot).1
  obtain ⟨w, hw⟩ := readData_of_hit inv ha hl
  obtain ⟨rfl, -⟩ := readData_answers inv hw
  rw [State.dataWord, view] at hw
  exact ⟨_, hw, rfl, rfl, rfl, rfl, rfl⟩

/-- Settles O50: a request passes through both caches to main memory, which serves it. -/
theorem flatVariantReachesMemory : Obligations.FlatVariantReachesMemory := by
  intro s a v hi hd h2 ha hle
  have hi := lineCount_of_cap_zero hi
  have hd := lineCount_of_cap_zero hd
  have h2 := lineCount_of_cap_zero h2
  have write := writeData_of_write (v := v) ha
    (cacheWrite_flat (c := s.l1d) (c2 := s.l2) (m := s.mem) (bytes := bytesLe32 v) hd h2 hle)
  refine ⟨fetchInstruction_flat hi h2 ha hle, readData_of_read ha (cacheRead_flat hd h2 hle), write, fun hm => ?_⟩
  obtain ⟨u, fetch⟩ := fetchInstruction_flat_of_stored hi h2 ha hle hm _ _
  exact ⟨_, u, write, fetch⟩

/-- Settles O51: the store leaves L1I as it was, so the fetch hits the line that L1I held. -/
theorem staleInstructionLine : Obligations.StaleInstructionLine := by
  intro s t a b v hs hl hb h
  obtain ⟨slot, hslot⟩ := Option.ne_none_iff_exists'.1 hl
  obtain ⟨⟨k, rfl⟩, inv, -⟩ := writeData_answers hs h
  obtain ⟨w, u, hf⟩ := fetchInstruction_of_hit inv hb hslot
  obtain ⟨rfl, -⟩ := fetchInstruction_answers inv hf
  rw [instrWord_of_lookup hs (withDataSide_cfg s k) (withDataSide_l1i s k) hb hslot] at hf
  exact ⟨u, hf⟩

/-- Settles O52: a run keeps the invariant, by which L1I has no dirty line and has written nothing back. -/
theorem statisticsSnapshot : Obligations.StatisticsSnapshot := by
  intro n s t hs h
  have inv : t.Inv := h.keeps (fun _ _ hu => (step_leaves_inv hu).next) hs
  have hw : t.statistics.totalWriteBacks = t.l1d.writeBacks + t.l2.writeBacks := by
    simp [State.statistics, inv.l1iWrites]
  refine ⟨rfl, rfl, rfl, hw, inv.l1iWrites, fun l hl => ?_, by rw [twiceCost, hw]; rfl⟩
  obtain ⟨slot, hslot, rfl⟩ := List.getElem_of_mem hl
  rw [← Cache.line_eq_getElem hslot]
  exact inv.l1iClean slot (inv.l1iShape.count ▸ hslot)

end Sys2Proof.Proofs

/-! ## Encoding: the decoder and the encoder invert each other, the record is that of the rules (30_encoding.md) -/

/-! ### Decoding an encoded form -/

namespace Sys2Proof

theorem decodeArm_encodeDpImm (opcode : BitVec 4) (f : DpImm) :
    decodeArm (encodeDpImm opcode f) = dpImmInstr opcode.toNat f := by
  simp [decodeArm, dpImm_group, dpImm_opcode, dpImm_fields]

theorem decodeArm_encodeDpReg (opcode : BitVec 4) (f : DpReg) :
    decodeArm (encodeDpReg opcode f) = dpRegInstr opcode.toNat f := by
  simp [decodeArm, dpReg_group, dpReg_opcode, dpReg_fields]

theorem decodeArm_encodeLoadStore (load : Bool) (f : LoadStore) :
    decodeArm (encodeLoadStore load f) = if load then .ldr f else .str f := by
  simp [decodeArm, loadStore_group, loadStore_load, loadStore_fields]

theorem decodeArm_encodeBranch (link : Bool) (f : Branch) :
    decodeArm (encodeBranch link f) = if link then .bl f else .b f := by
  simp [decodeArm, branch_group, branch_link, branch_fields]

theorem decodeThumb_encodeThumbReg (op : Bool) (f : ThumbReg) :
    decodeThumb (encodeThumbReg op f) = if op then .thumbSubReg f else .thumbAddReg f := by
  simp [decodeThumb, thumbReg_format, thumbReg_immediate, thumbReg_op, thumbReg_fields]

theorem decodeThumb_encodeThumbImm (op : Bool) (f : ThumbImm) :
    decodeThumb (encodeThumbImm op f) = if op then .thumbSubImm f else .thumbAddImm f := by
  simp [decodeThumb, thumbImm_format, thumbImm_immediate, thumbImm_op, thumbImm_fields]

/-- Only an ill-formed term stands for no decoding: a `thumbUnknown` of the add/subtract format (R127). -/
theorem decode_encode {i : Instr} (h : i.wellFormed = true) : decode (encode i) = i := by
  cases i with
  | andImm f | eorImm f | subImm f | rsbImm f | addImm f | adcImm f | sbcImm f | rscImm f
  | tstImm f | teqImm f | cmpImm f | cmnImm f | orrImm f | movImm f | bicImm f | mvnImm f =>
    exact decodeArm_encodeDpImm _ f
  | andReg f | eorReg f | subReg f | rsbReg f | addReg f | adcReg f | sbcReg f | rscReg f
  | tstReg f | teqReg f | cmpReg f | cmnReg f | orrReg f | movReg f | bicReg f | mvnReg f =>
    exact decodeArm_encodeDpReg _ f
  | str f | ldr f => exact decodeArm_encodeLoadStore _ f
  | b f | bl f => exact decodeArm_encodeBranch _ f
  | unknown011 f | unknown100 f | unknown110 f | unknown111 f =>
    simp [encode, decode, decodeArm, armUnknown_group, armUnknown_fields]
  | thumbAddReg f | thumbSubReg f => exact decodeThumb_encodeThumbReg _ f
  | thumbAddImm f | thumbSubImm f => exact decodeThumb_encodeThumbImm _ f
  | thumbUnknown raw => exact if_neg (bne_iff_ne.1 h)

/-! ### Every word is an encoding -/

/-- `field_join` for a join whose upper field's position is a numeral. -/
theorem field_join_of_adjacent {n : Nat} (w : BitVec n) {hi lo a b : Nat} (h : lo + b = hi) :
    field w hi a ++ field w lo b = field w lo (a + b) := h ▸ field_join w lo a b

/-- A word is joined from its condition, its group and the rest (R112, R113, R128). -/
theorem encodeArmUnknown_fields (w : Word) : encodeArmUnknown (field w 25 3) (armUnknownFields w) = w := by
  simp only [encodeArmUnknown, armUnknownFields]
  simp (disch := decide) only [field_join_of_adjacent]
  exact field_whole w

section
variable {w : Word}

/-- A word of group 001 is joined from its fields (R114, R115). -/
theorem encodeDpImm_fields (h : field w 25 3 = 0b001#3) : encodeDpImm (field w 21 4) (dpImmFields w) = w := by
  simp only [encodeDpImm, dpImmFields, ← h, regBits_regOf, ofBool_bit]
  simp (disch := decide) only [field_join_of_adjacent]
  exact field_whole w

/-- A word of group 000 is joined from its fields (R114, R116). -/
theorem encodeDpReg_fields (h : field w 25 3 = 0b000#3) : encodeDpReg (field w 21 4) (dpRegFields w) = w := by
  simp only [encodeDpReg, dpRegFields, ← h, regBits_regOf, ofBool_bit]
  simp (disch := decide) only [field_join_of_adjacent]
  exact field_whole w

/-- A word of group 010 is joined from its fields (R118). -/
theorem encodeLoadStore_fields (h : field w 25 3 = 0b010#3) : encodeLoadStore (bit w 20) (loadStoreFields w) = w := by
  simp only [encodeLoadStore, loadStoreFields, ← h, regBits_regOf, ofBool_bit]
  simp (disch := decide) only [field_join_of_adjacent]
  exact field_whole w

/-- A word of group 101 is joined from its fields (R119). -/
theorem encodeBranch_fields (h : field w 25 3 = 0b101#3) : encodeBranch (bit w 24) (branchFields w) = w := by
  simp only [encodeBranch, branchFields, ← h, ofBool_bit]
  simp (disch := decide) only [field_join_of_adjacent]
  exact field_whole w

end

section
variable {h : Half}

/-- A halfword of the Thumb format with I = 0 is joined from its fields (R124). -/
theorem encodeThumbReg_fields (hf : field h 11 5 = 0b00011#5) (hi : bit h 10 = false) :
    encodeThumbReg (bit h 9) (thumbRegFields h) = h := by
  have selector : 0b0#1 = field h 10 1 := by rw [← ofBool_bit, hi]; rfl
  simp only [encodeThumbReg, thumbRegFields, ← hf, selector, lowRegBits_lowRegOf, ofBool_bit]
  simp (disch := decide) only [field_join_of_adjacent]
  exact field_whole h

/-- A halfword of the Thumb format with I = 1 is joined from its fields (R124). -/
theorem encodeThumbImm_fields (hf : field h 11 5 = 0b00011#5) (hi : bit h 10 = true) :
    encodeThumbImm (bit h 9) (thumbImmFields h) = h := by
  have selector : 0b1#1 = field h 10 1 := by rw [← ofBool_bit, hi]; rfl
  simp only [encodeThumbImm, thumbImmFields, ← hf, selector, lowRegBits_lowRegOf, ofBool_bit]
  simp (disch := decide) only [field_join_of_adjacent]
  exact field_whole h

end

/-- A raw word stands for an instruction: it is the encoding of a well-formed one. -/
def Raw.IsEncoding (raw : Raw) : Prop := ∃ i : Instr, i.wellFormed = true ∧ encode i = raw

theorem isEncoding_dpImm (opcode : BitVec 4) (f : DpImm) : (Raw.arm (encodeDpImm opcode f)).IsEncoding :=
  ⟨dpImmInstr opcode.toNat f,
    match opcode with
    | 0#4 | 1#4 | 2#4 | 3#4 | 4#4 | 5#4 | 6#4 | 7#4 | 8#4 | 9#4 | 10#4 | 11#4 | 12#4 | 13#4 | 14#4 | 15#4 => ⟨rfl, rfl⟩
    | .ofFin ⟨n + 16, h⟩ => absurd h (by omega)⟩

theorem isEncoding_dpReg (opcode : BitVec 4) (f : DpReg) : (Raw.arm (encodeDpReg opcode f)).IsEncoding :=
  ⟨dpRegInstr opcode.toNat f,
    match opcode with
    | 0#4 | 1#4 | 2#4 | 3#4 | 4#4 | 5#4 | 6#4 | 7#4 | 8#4 | 9#4 | 10#4 | 11#4 | 12#4 | 13#4 | 14#4 | 15#4 => ⟨rfl, rfl⟩
    | .ofFin ⟨n + 16, h⟩ => absurd h (by omega)⟩

theorem isEncoding_loadStore (load : Bool) (f : LoadStore) : (Raw.arm (encodeLoadStore load f)).IsEncoding :=
  match load with
  | false => ⟨.str f, rfl, rfl⟩
  | true  => ⟨.ldr f, rfl, rfl⟩

theorem isEncoding_branch (link : Bool) (f : Branch) : (Raw.arm (encodeBranch link f)).IsEncoding :=
  match link with
  | false => ⟨.b f, rfl, rfl⟩
  | true  => ⟨.bl f, rfl, rfl⟩

theorem isEncoding_thumbReg (op : Bool) (f : ThumbReg) : (Raw.thumb (encodeThumbReg op f)).IsEncoding :=
  match op with
  | false => ⟨.thumbAddReg f, rfl, rfl⟩
  | true  => ⟨.thumbSubReg f, rfl, rfl⟩

theorem isEncoding_thumbImm (op : Bool) (f : ThumbImm) : (Raw.thumb (encodeThumbImm op f)).IsEncoding :=
  match op with
  | false => ⟨.thumbAddImm f, rfl, rfl⟩
  | true  => ⟨.thumbSubImm f, rfl, rfl⟩

/-- The group selector alone chooses the form of an ARM word (R113). -/
theorem isEncoding_arm (w : Word) : (Raw.arm w).IsEncoding := by
  match h : field w 25 3 with
  | 0b000#3 => exact encodeDpReg_fields h ▸ isEncoding_dpReg _ _
  | 0b001#3 => exact encodeDpImm_fields h ▸ isEncoding_dpImm _ _
  | 0b010#3 => exact encodeLoadStore_fields h ▸ isEncoding_loadStore _ _
  | 0b011#3 => exact ⟨.unknown011 (armUnknownFields w), rfl, congrArg Raw.arm (h ▸ encodeArmUnknown_fields w)⟩
  | 0b100#3 => exact ⟨.unknown100 (armUnknownFields w), rfl, congrArg Raw.arm (h ▸ encodeArmUnknown_fields w)⟩
  | 0b101#3 => exact encodeBranch_fields h ▸ isEncoding_branch _ _
  | 0b110#3 => exact ⟨.unknown110 (armUnknownFields w), rfl, congrArg Raw.arm (h ▸ encodeArmUnknown_fields w)⟩
  | 0b111#3 => exact ⟨.unknown111 (armUnknownFields w), rfl, congrArg Raw.arm (h ▸ encodeArmUnknown_fields w)⟩

/-- A halfword outside the add/subtract format stands for itself (R127). -/
theorem isEncoding_thumb (h : Half) : (Raw.thumb h).IsEncoding := by
  by_cases hf : field h 11 5 = 0b00011#5
  · cases hi : bit h 10 with
    | false => exact encodeThumbReg_fields hf hi ▸ isEncoding_thumbReg _ _
    | true => exact encodeThumbImm_fields hf hi ▸ isEncoding_thumbImm _ _
  · exact ⟨.thumbUnknown h, bne_iff_ne.2 hf, rfl⟩

theorem isEncoding (raw : Raw) : raw.IsEncoding :=
  match raw with
  | .arm w   => isEncoding_arm w
  | .thumb h => isEncoding_thumb h

/-- The decoder finds the instruction a word stands for. -/
theorem decode_spec (raw : Raw) : (decode raw).wellFormed = true ∧ encode (decode raw) = raw := by
  obtain ⟨i, hw, rfl⟩ := isEncoding raw
  rw [decode_encode hw]
  exact ⟨hw, rfl⟩

/-- The record keeps the word (R46, R132). -/
theorem record_rawWord (mode : DpImmMode) (i : Instr) : (i.record mode).rawWord = encode i := by
  cases i <;> rfl

end Sys2Proof

/-! ### The fields that are not read (R123) -/

namespace Sys2Proof.Machine

open Sys2Proof.Statements

/-- Under imm8 the rotate field does not reach the immediate (R120). -/
theorem dpImmediate_and_imm8 (operand : BitVec 12) :
    dpImmediate .imm8 (operand &&& 0x0FF#12) = dpImmediate .imm8 operand := by
  have : (operand &&& 0x0FF#12).extractLsb' 0 8 = operand.extractLsb' 0 8 := by
    rw [BitVec.extractLsb'_and]
    exact BitVec.and_allOnes
  simp only [dpImmediate, field, this]

theorem immOperand_eraseUnread (s : State) (f : DpImm) :
    s.immOperand { f with
      cond := 0, s := false, operand := if s.cfg.dpImmMode = .imm8 then f.operand &&& 0x0FF#12 else f.operand } =
    s.immOperand f := by
  unfold State.immOperand
  split
  next h => rw [h, dpImmediate_and_imm8]
  next => rfl

/-- A DP_IMM handler reads of its fields `rn`, `rd` and the immediate alone; the other handlers read no erased field. -/
theorem exec_eraseUnread (s : State) (i : Instr) : exec (eraseUnread s.cfg.dpImmMode i) s = exec i s := by
  cases i with
  | andImm f | subImm f | rsbImm f | addImm f | adcImm f | sbcImm f | rscImm f | tstImm f | cmpImm f | cmnImm f
  | orrImm f | movImm f | bicImm f | mvnImm f =>
    simp only [eraseUnread, exec, execAndImm, execSubImm, execRsbImm, execAddImm, execAdcImm, execSbcImm, execRscImm,
      execTstImm, execCmpImm, execCmnImm, execOrrImm, execMovImm, execBicImm, execMvnImm, immOperand_eraseUnread]
  | _ => rfl

/-- Two instructions that differ in unread fields alone run alike. -/
theorem exec_congr_of_eraseUnread {s : State} {i j : Instr}
    (h : eraseUnread s.cfg.dpImmMode i = eraseUnread s.cfg.dpImmMode j) : exec i s = exec j s := by
  rw [← exec_eraseUnread, h, exec_eraseUnread]

end Sys2Proof.Machine

/-! ### The immediates (R120, R122) -/

namespace Sys2Proof.Statements

open Sys2Proof.Machine

/-- `raw[hi:lo]` of a word's number is the number of the field (R8). -/
theorem fieldOf_eq_field {n : Nat} (w : BitVec n) (hi lo : Nat) :
    fieldOf w.toNat hi lo = (field w lo (hi - lo + 1)).toNat := by
  simp [fieldOf, field, BitVec.extractLsb'_toNat, Nat.shiftRight_eq_div_pow]

/-- Rotation of a word's number (R120): the two parts of the rotated word have no bit in common, so they add up. -/
theorem toNat_rotateRight_eq_ror32 (v : Word) {r : Nat} (h : r < 32) : (v.rotateRight r).toNat = ror32 v.toNat r := by
  have disjoint : v >>> r &&& v <<< (32 - r) = 0#32 := by
    apply BitVec.eq_of_getLsbD_eq
    intro i hi
    by_cases hr : i < 32 - r
    · simp [hr]
    · simp [BitVec.getLsbD_of_ge v (r + i) (by omega)]
  rw [BitVec.rotateRight_def, Nat.mod_eq_of_lt h, ← BitVec.add_eq_or_of_and_eq_zero _ _ disjoint]
  simp [ror32, Nat.shiftRight_eq_div_pow, Nat.shiftLeft_eq]

theorem dpImmediate_toNat (mode : DpImmMode) (operand : BitVec 12) :
    (dpImmediate mode operand).toNat = dpImmOfRule mode operand.toNat := by
  cases mode with
  | imm8 => rw [dpImmediate, BitVec.toNat_setWidth_of_le (by decide), dpImmOfRule, fieldOf_eq_field]
  | imm12 => rw [dpImmediate, BitVec.toNat_setWidth_of_le (by decide), dpImmOfRule, fieldOf_eq_field, field_whole]
  | rotated =>
    rw [dpImmediate, toNat_rotateRight_eq_ror32 _ (by omega), BitVec.toNat_setWidth_of_le (by decide), dpImmOfRule,
      fieldOf_eq_field, fieldOf_eq_field]

theorem dpImmediate_eq_of_rotate_zero {operand : BitVec 12} (h : fieldOf operand.toNat 11 8 = 0) :
    dpImmediate .imm12 operand = dpImmediate .imm8 operand ∧
      dpImmediate .rotated operand = dpImmediate .imm8 operand := by
  constructor
  · apply BitVec.eq_of_toNat_eq
    simp only [dpImmediate_toNat, dpImmOfRule, fieldOf] at h ⊢
    omega
  · rw [fieldOf_eq_field] at h
    simp [dpImmediate, h, BitVec.rotateRight_def]

/-- The rule's sign extension is the two's complement value (R9, R122). -/
theorem branchOffset_eq_sext24 (offset : BitVec 24) : branchOffset offset = 4 * sext24 offset.toNat := by
  have sign : fieldOf offset.toNat 23 23 = 1 ↔ ¬ 2 * offset.toNat < 2 ^ 24 := by
    have := offset.isLt
    unfold fieldOf
    omega
  simp only [branchOffset, sext24, sign, ite_not, BitVec.toInt_eq_toNat_cond]
  rfl

theorem branchOffset_bounds (offset : BitVec 24) :
    -(2 ^ 25) ≤ branchOffset offset ∧ branchOffset offset ≤ 2 ^ 25 - 4 := by
  have hlow := BitVec.le_toInt offset
  have hhigh := BitVec.toInt_lt (x := offset)
  unfold branchOffset
  omega

/-! ### The record of an encoded form, as the rules write it (R126 to R128) -/

theorem ofNat_regBits (r : Reg) : Fin.ofNat 16 (regBits r).toNat = r := by
  simp [regBits]

theorem ofNat_lowRegBits (r : LowReg) : Fin.ofNat 16 (lowRegBits r).toNat = r.castLE (by decide) := by
  apply Fin.ext
  simp [lowRegBits]
  omega

theorem loadStoreOffset_toNat (offset : BitVec 12) : (loadStoreOffset offset).toNat = offset.toNat :=
  BitVec.toNat_setWidth_of_le (by decide)

theorem thumbImmediate_toNat (imm : BitVec 3) : (thumbImmediate imm).toNat = imm.toNat :=
  BitVec.toNat_setWidth_of_le (by decide)

/-- The immediate of a word is that of its low 12 bits (R120). -/
theorem dpImmOfRule_toNat (mode : DpImmMode) (w : Word) :
    dpImmOfRule mode w.toNat = (dpImmediate mode (field w 0 12)).toNat := by
  have within {lo len : Nat} (h : lo + len ≤ 12) : field (field w 0 12) lo len = field w lo len :=
    BitVec.extractLsb'_extractLsb'_of_le h
  rw [dpImmediate_toNat]
  cases mode <;>
    simp (disch := decide) only [dpImmOfRule, fieldOf_eq_field, Nat.reduceSub, Nat.reduceAdd, within]

theorem armRecordOfRule_encodeDpImm (mode : DpImmMode) (opcode : BitVec 4) (f : DpImm) :
    armRecordOfRule mode (encodeDpImm opcode f) =
      dpImmRecord mode (.arm (encodeDpImm opcode f)) (opcodeOfRule opcode.toNat) f := by
  simp only [armRecordOfRule, regField, dpImmOfRule_toNat, fieldOf_eq_field, Nat.reduceSub, Nat.reduceAdd, dpImm_group,
    dpImm_opcode, dpImm_cond, dpImm_rn, dpImm_rd, dpImm_operand, ofNat_regBits, BitVec.ofNat_toNat, BitVec.setWidth_eq]
  rfl

theorem armRecordOfRule_encodeDpReg (mode : DpImmMode) (opcode : BitVec 4) (f : DpReg) :
    armRecordOfRule mode (encodeDpReg opcode f) =
      dpRegRecord (.arm (encodeDpReg opcode f)) (opcodeOfRule opcode.toNat) f := by
  simp only [armRecordOfRule, regField, fieldOf_eq_field, Nat.reduceSub, Nat.reduceAdd, dpReg_group, dpReg_opcode,
    dpReg_cond, dpReg_rn, dpReg_rd, dpReg_rm, ofNat_regBits, BitVec.ofNat_toNat, BitVec.setWidth_eq]
  rfl

theorem armRecordOfRule_encodeLoadStore (mode : DpImmMode) (load : Bool) (f : LoadStore) :
    armRecordOfRule mode (encodeLoadStore load f) =
      loadStoreRecord (.arm (encodeLoadStore load f)) (if load then .ldr else .str) f := by
  simp only [armRecordOfRule, regField, fieldOf_eq_field, Nat.reduceSub, Nat.reduceAdd, loadStore_group, ← ofBool_bit,
    loadStore_load, loadStore_cond, loadStore_rn, loadStore_rd, loadStore_offset, ofNat_regBits, BitVec.ofNat_toNat,
    BitVec.setWidth_eq, loadStoreRecord, loadStoreOffset_toNat]
  cases load <;> rfl

theorem armRecordOfRule_encodeBranch (mode : DpImmMode) (link : Bool) (f : Branch) :
    armRecordOfRule mode (encodeBranch link f) =
      branchRecord (.arm (encodeBranch link f)) (if link then .bl else .b) f := by
  simp only [armRecordOfRule, fieldOf_eq_field, Nat.reduceSub, Nat.reduceAdd, branch_group, ← ofBool_bit, branch_link,
    branch_cond, branch_offset, BitVec.ofNat_toNat, BitVec.setWidth_eq, branchRecord, branchOffset_eq_sext24]
  cases link <;> rfl

theorem armRecordOfRule_encodeArmUnknown (mode : DpImmMode) {group : BitVec 3} (f : ArmUnknown)
    (h : group.toNat = 3 ∨ group.toNat = 4 ∨ group.toNat = 6 ∨ group.toNat = 7) :
    armRecordOfRule mode (encodeArmUnknown group f) =
      unknownRecord (.arm (encodeArmUnknown group f)) false (some f.cond) := by
  simp only [armRecordOfRule, fieldOf_eq_field, Nat.reduceSub, Nat.reduceAdd, armUnknown_group, armUnknown_cond,
    BitVec.ofNat_toNat, BitVec.setWidth_eq]
  rcases h with h | h | h | h <;> rw [h] <;> rfl

theorem thumbRecordOfRule_encodeThumbReg (op : Bool) (f : ThumbReg) :
    thumbRecordOfRule (encodeThumbReg op f) =
      thumbRegRecord (.thumb (encodeThumbReg op f)) (if op then .sub else .add) f := by
  simp only [thumbRecordOfRule, regField, fieldOf_eq_field, Nat.reduceSub, Nat.reduceAdd, thumbReg_format, ← ofBool_bit,
    thumbReg_immediate, thumbReg_op, thumbReg_rm, thumbReg_rn, thumbReg_rd, ofNat_lowRegBits]
  cases op <;> rfl

theorem thumbRecordOfRule_encodeThumbImm (op : Bool) (f : ThumbImm) :
    thumbRecordOfRule (encodeThumbImm op f) =
      thumbImmRecord (.thumb (encodeThumbImm op f)) (if op then .sub else .add) f := by
  simp only [thumbRecordOfRule, regField, fieldOf_eq_field, Nat.reduceSub, Nat.reduceAdd, thumbImm_format, ← ofBool_bit,
    thumbImm_immediate, thumbImm_op, thumbImm_imm, thumbImm_rn, thumbImm_rd, ofNat_lowRegBits, thumbImmRecord,
    thumbImmediate_toNat]
  cases op <;> rfl

theorem thumbRecordOfRule_of_format_ne {h : Half} (hf : field h 11 5 ≠ 0b00011#5) :
    thumbRecordOfRule h = unknownRecord (.thumb h) true none := by
  have hf : fieldOf h.toNat 15 11 ≠ 3 := by
    rw [fieldOf_eq_field]
    exact fun e => hf (BitVec.eq_of_toNat_eq e)
  exact if_neg hf

/-- The record that the rules write down for a raw word (R126, R127). -/
def recordOfRule (mode : DpImmMode) : Raw → DecodedInstruction
  | .arm w   => armRecordOfRule mode w
  | .thumb h => thumbRecordOfRule h

/-- Form by form, the record of an instruction is the one the rules write down for its word. -/
theorem record_eq_recordOfRule (mode : DpImmMode) {i : Instr} (h : i.wellFormed = true) :
    i.record mode = recordOfRule mode (encode i) := by
  symm
  cases i with
  | andImm f | eorImm f | subImm f | rsbImm f | addImm f | adcImm f | sbcImm f | rscImm f
  | tstImm f | teqImm f | cmpImm f | cmnImm f | orrImm f | movImm f | bicImm f | mvnImm f =>
    exact armRecordOfRule_encodeDpImm mode _ f
  | andReg f | eorReg f | subReg f | rsbReg f | addReg f | adcReg f | sbcReg f | rscReg f
  | tstReg f | teqReg f | cmpReg f | cmnReg f | orrReg f | movReg f | bicReg f | mvnReg f =>
    exact armRecordOfRule_encodeDpReg mode _ f
  | str f | ldr f => exact armRecordOfRule_encodeLoadStore mode _ f
  | b f | bl f => exact armRecordOfRule_encodeBranch mode _ f
  | unknown011 f | unknown100 f | unknown110 f | unknown111 f =>
    exact armRecordOfRule_encodeArmUnknown mode f (by decide)
  | thumbAddReg f | thumbSubReg f => exact thumbRecordOfRule_encodeThumbReg _ f
  | thumbAddImm f | thumbSubImm f => exact thumbRecordOfRule_encodeThumbImm _ f
  | thumbUnknown raw => exact thumbRecordOfRule_of_format_ne (bne_iff_ne.1 h)

theorem decodeRecord_eq_recordOfRule (mode : DpImmMode) (raw : Raw) :
    decodeRecord mode raw = recordOfRule mode raw := by
  obtain ⟨hw, he⟩ := decode_spec raw
  rw [decodeRecord, record_eq_recordOfRule mode hw, he]

end Sys2Proof.Statements

namespace Sys2Proof.Proofs

open Sys2Proof.Machine Sys2Proof.Statements

/-- Settles O1: each form's fields, group and opcode are read back from its word. -/
theorem decodeInvertsEncode : Obligations.DecodeInvertsEncode := fun _ h => decode_encode h

/-- Settles O2: every word is the encoding of a well-formed instruction, which decoding gives back. `MOV r0, r0` and
`MOV r0, r0, LSL #1` differ in the shift field, which is not read (R116). -/
theorem encodeInvertsDecode : Obligations.EncodeInvertsDecode := by
  refine ⟨fun raw => ?_, 0xE1A00000, 0xE1A00080, by decide, fun mode => ?_, fun s => ?_⟩
  · obtain ⟨hw, he⟩ := decode_spec raw
    exact ⟨he, hw, fun mode => (record_rawWord mode _).trans he⟩
  · cases mode <;> decide
  · exact exec_congr_of_eraseUnread rfl

/-- Settles O4: a word is the encoding of its decoding, and for each form the rules give the record of that encoding. -/
theorem armDecodeRecord : Obligations.ArmDecodeRecord := fun mode w => decodeRecord_eq_recordOfRule mode (.arm w)

/-- Settles O5, as O4. -/
theorem thumbDecodeRecord : Obligations.ThumbDecodeRecord := fun mode h => decodeRecord_eq_recordOfRule mode (.thumb h)

/-- Settles O6: under `rotated` the immediate is a rotation, and one by 0 where the rotate field is 0. -/
theorem dpImmediateByMode : Obligations.DpImmediateByMode := fun operand =>
  ⟨fun mode => dpImmediate_toNat mode operand, dpImmediate_eq_of_rotate_zero⟩

/-- Settles O7: the rule's sign extension is the two's complement value of the field. -/
theorem branchOffsetRange : Obligations.BranchOffsetRange := fun offset =>
  ⟨branchOffset_eq_sext24 offset, branchOffset_bounds offset⟩

/-- Settles O8: no handler reads the fields, and the immediate of imm8 does not depend on the rotate field. -/
theorem unreadFieldsIgnored : Obligations.UnreadFieldsIgnored := fun s =>
  ⟨exec_eraseUnread s, fun _ => ⟨_, rfl⟩, fun _ => ⟨_, rfl⟩⟩

end Sys2Proof.Proofs

/-! ## Data processing: results, flags, the PC and the frame (40_data_processing.md R140 to R159) -/

namespace Sys2Proof.Statements

open Sys2Proof.Machine

/-! ### The words of the two forms (R113, R114) -/

theorem hasOpcode_dpImm {i : Instr} {opcode : BitVec 4} {f : DpImm} (h : encode i = .arm (encodeDpImm opcode f)) :
    HasOpcode 1 opcode.toNat i :=
  ⟨_, h, fieldOf_encodeDpImm opcode f⟩

theorem hasOpcode_dpReg {i : Instr} {opcode : BitVec 4} {f : DpReg} (h : encode i = .arm (encodeDpReg opcode f)) :
    HasOpcode 0 opcode.toNat i := by
  refine ⟨_, h, ?_, ?_⟩
  · rw [fieldOf_eq_field, dpReg_group]; rfl
  · rw [fieldOf_eq_field, dpReg_opcode]

/-! ### From the handlers to the rules

`op` is the operation that the handlers of the two forms perform on words, and `res` the result as the rule writes it.
That the instructions encode to the opcode and run such handlers is read off their arms, by `rfl`. -/

section
variable {imm : DpImm → Instr} {reg : DpReg → Instr}

theorem writingRule_of_exec (opcode : BitVec 4) (op : State → Word → Word → Word) {res : State → Word → Word → Word}
    (meets : ∀ s a b, res s a b = op s a b)
    (immWord : ∀ f, encode (imm f) = .arm (encodeDpImm opcode f) := by intros; rfl)
    (regWord : ∀ f, encode (reg f) = .arm (encodeDpReg opcode f) := by intros; rfl)
    (immRun : ∀ f s, exec (imm f) s = writeResult false f.rd (op s (s.reg f.rn) (s.immOperand f)) s := by intros; rfl)
    (regRun : ∀ f s, exec (reg f) s = writeResult false f.rd (op s (s.reg f.rn) (s.regOperand f)) s := by intros; rfl) :
    WritingRule opcode.toNat imm reg res := by
  refine ⟨fun f => hasOpcode_dpImm (immWord f), fun f => hasOpcode_dpReg (regWord f), fun s => ⟨fun f => ?_, fun f => ?_⟩⟩
  · rw [immRun, meets]
    exact writeResult_spec ..
  · rw [regRun, meets]
    exact writeResult_spec ..

theorem comparingRule_of_exec (opcode : BitVec 4) (op : Word → Word → Word) {res : Word → Word → Word}
    (meets : ∀ a b, res a b = op a b)
    (immWord : ∀ f, encode (imm f) = .arm (encodeDpImm opcode f) := by intros; rfl)
    (regWord : ∀ f, encode (reg f) = .arm (encodeDpReg opcode f) := by intros; rfl)
    (immRun : ∀ f s, exec (imm f) s = compareResult (op (s.reg f.rn) (s.immOperand f)) s := by intros; rfl)
    (regRun : ∀ f s, exec (reg f) s = compareResult (op (s.reg f.rn) (s.regOperand f)) s := by intros; rfl) :
    ComparingRule opcode.toNat imm reg res := by
  refine ⟨fun f => hasOpcode_dpImm (immWord f), fun f => hasOpcode_dpReg (regWord f), fun s => ⟨fun f => ?_, fun f => ?_⟩⟩
  · rw [immRun, meets]
    exact compareResult_spec ..
  · rw [regRun, meets]
    exact compareResult_spec ..

theorem operandAbsentRule_of_exec (opcode : BitVec 4)
    (immWord : ∀ f, encode (imm f) = .arm (encodeDpImm opcode f) := by intros; rfl)
    (immRun : ∀ f s, exec (imm f) s = raiseOperandAbsent (encodeDpImm opcode f) s := by intros; rfl) :
    OperandAbsentRule opcode.toNat imm := fun f =>
  have ⟨group, code⟩ := fieldOf_encodeDpImm opcode f
  ⟨_, immWord f, group, code, immRun f⟩

end

/-! ### The results on words (R9) -/

theorem wrap_toNat_add (a b : Word) : wrap ((a.toNat : Int) + b.toNat) = a + b := by
  rw [wrap_add, wrap_toNat, wrap_toNat]

theorem wrap_toNat_sub (a b : Word) : wrap ((a.toNat : Int) - b.toNat) = a - b := by
  rw [wrap_sub, wrap_toNat, wrap_toNat]

theorem wrap_add_carryOf (x : Int) (s : State) : wrap (x + carryOf s) = wrap x + s.carry := by
  rw [wrap_add, carryOf, wrap_carry]

/-- The results of SBC and RSC take the borrow, which is 1 less C (R147, R148). -/
theorem wrap_sub_borrow (a b : Word) (s : State) :
    wrap ((a.toNat : Int) - b.toNat + carryOf s - 1) = a - b + s.carry - 1 := by
  rw [wrap_sub, wrap_add_carryOf, wrap_toNat_sub, wrap_one]

end Sys2Proof.Statements

namespace Sys2Proof.Proofs

open Sys2Proof.Machine Sys2Proof.Statements

/-- Settles O13: the sum and the difference of words are those of their numbers, wrapped. -/
theorem addSubtractResults : Obligations.AddSubtractResults :=
  ⟨writingRule_of_exec 4 (fun _ a b => a + b) fun _ => wrap_toNat_add,
   writingRule_of_exec 2 (fun _ a b => a - b) fun _ => wrap_toNat_sub,
   writingRule_of_exec 3 (fun _ a b => b - a) fun _ a b => wrap_toNat_sub b a⟩

/-- Settles O14, as O13, with C as the word 0 or 1. -/
theorem carryResults : Obligations.CarryResults := by
  refine ⟨writingRule_of_exec 5 (fun s a b => a + b + s.carry) fun s a b => ?_,
    writingRule_of_exec 6 (fun s a b => a - b + s.carry - 1) fun s a b => wrap_sub_borrow a b s,
    writingRule_of_exec 7 (fun s a b => b - a + s.carry - 1) fun s a b => wrap_sub_borrow b a s⟩
  rw [wrap_add_carryOf, wrap_toNat_add]

/-- Settles O15: `~v` is `0xFFFFFFFF - v` (R9), and the operation does not use `x[rn]`. -/
theorem moveResults : Obligations.MoveResults :=
  ⟨writingRule_of_exec 13 (fun _ _ b => b) fun _ _ _ => rfl,
   writingRule_of_exec 15 (fun _ _ b => ~~~b) fun _ _ => wrap_not⟩

/-- Settles O16: AND and ORR are the word operations themselves, and BIC takes `~v` as `0xFFFFFFFF - v` (R9). -/
theorem logicalResults : Obligations.LogicalResults :=
  ⟨writingRule_of_exec 0 (fun _ a b => a &&& b) fun _ _ _ => rfl,
   writingRule_of_exec 12 (fun _ a b => a ||| b) fun _ _ _ => rfl,
   writingRule_of_exec 14 (fun _ a b => a &&& ~~~b) fun _ a b => congrArg (a &&& ·) (wrap_not b)⟩

/-- Settles O17, with the results of O13 and O16 and the handler that writes no register. -/
theorem compareResults : Obligations.CompareResults :=
  ⟨comparingRule_of_exec 8 (fun a b => a &&& b) fun _ _ => rfl,
   comparingRule_of_exec 10 (fun a b => a - b) wrap_toNat_sub,
   comparingRule_of_exec 11 (fun a b => a + b) wrap_toNat_add⟩

/-- Settles O18: the register forms run the shared handlers, and the immediate forms raise with their own word. -/
theorem registerOnlyResults : Obligations.RegisterOnlyResults :=
  ⟨fun _ => hasOpcode_dpReg (opcode := 1) rfl, fun _ => hasOpcode_dpReg (opcode := 9) rfl,
   fun f s => writeResult_spec false f.rd (s.reg f.rn ^^^ s.reg f.rm) s,
   fun f s => compareResult_spec (s.reg f.rn ^^^ s.reg f.rm) s,
   operandAbsentRule_of_exec 1, operandAbsentRule_of_exec 9⟩

end Sys2Proof.Proofs

/-! ## LDR and STR: address, word, frame and faults (41_load_store.md R170 to R172) -/

namespace Sys2Proof.Machine

open Sys2Proof.Statements

/-- The effective address is the base plus the offset, modulo 2^32 (R170). -/
theorem effectiveAddress_eq_wrap (f : LoadStore) (s : State) :
    effectiveAddress f s = wrap (((s.reg f.rn).toNat : Int) + f.offset.toNat) := by
  rw [← loadStoreOffset_toNat, wrap_toNat_add, effectiveAddress]

/-! ### The handlers, by what their access answers -/

section
variable {f : LoadStore} {s u : State} {v : Word} {fault : Fault}

theorem exec_ldr_ok (h : readData (effectiveAddress f s) s = .ok (v, u)) :
    exec (.ldr f) s = .next (finish false (some (effectiveAddress f s)) s (u.setReg f.rd v)) := by
  simp only [exec, execLdr, h]

theorem exec_ldr_error (h : readData (effectiveAddress f s) s = .error fault) : exec (.ldr f) s = .fault fault := by
  simp only [exec, execLdr, h]

theorem exec_str_ok (h : writeData (effectiveAddress f s) (s.reg f.rd) s = .ok u) :
    exec (.str f) s = .next (finish false (some (effectiveAddress f s)) s u) := by
  simp only [exec, execStr, h]

theorem exec_str_error (h : writeData (effectiveAddress f s) (s.reg f.rd) s = .error fault) :
    exec (.str f) s = .fault fault := by
  simp only [exec, execStr, h]

end

/-! ### What the envelope leaves after a data access -/

section
variable {s u before after : State} (thumb : Bool) (target : Option Word)

theorem finish_sameHierarchy (h : SameHierarchy u after) :
    SameHierarchy u (finish thumb target before after) :=
  ⟨(finish_l1i ..).trans h.l1i, (finish_l1d ..).trans h.l1d, (finish_l2 ..).trans h.l2, (finish_mem ..).trans h.mem⟩

theorem finish_sameFlagsAndMode (h : SameFlagsAndMode s after) :
    SameFlagsAndMode s (finish thumb target before after) :=
  ⟨(finish_n ..).trans h.n, (finish_z ..).trans h.z, (finish_c ..).trans h.c, (finish_v ..).trans h.v,
    (finish_thumbMode ..).trans h.thumbMode, (finish_cfg ..).trans h.cfg⟩

/-- The PC after a handler that wrote one register: the value written, if that is to the PC and new, else the advance
(R52). -/
theorem finish_setReg_pc (hu : u.pc = s.pc) (rd : Reg) (v : Word) :
    (finish thumb target s (u.setReg rd v)).pc
      = if rd = 15 ∧ v ≠ s.pc then v else s.pc + (if thumb then 2 else 4) := by
  rw [finish_pc, pc_eq (s := u.setReg rd v), reg_setReg, ← pc_eq, hu]
  by_cases hrd : rd = 15
  · by_cases hv : v = s.pc <;> simp [hrd, hv]
  · simp [hrd]

/-- A read that changed the data side but no byte of its view, followed by the write of `rd`, loads a word (R171). -/
theorem finish_loadsWord {k : Cache × Cache × Memory} (view : (s.withDataSide k).dataByte = s.dataByte) (rd : Reg)
    (v : Word) : LoadsWord rd v s (finish false target s ((s.withDataSide k).setReg rd v)) where
  dest h := by rw [finish_reg _ _ _ _ h, reg_setReg_self]
  other q hrd hpc := by
    rw [finish_reg _ _ _ _ hpc, reg_setReg_ne _ hrd.symm]
    rfl
  pc := finish_setReg_pc false target rfl rd v
  flags := finish_sameFlagsAndMode _ _ ⟨rfl, rfl, rfl, rfl, rfl, rfl⟩
  l1i := finish_l1i ..
  bytes := congrFun (by rw [finish_dataByte, setReg_dataByte, view])

/-- A write of the data side that is a word write of its view stores a word (R172). -/
theorem finish_storesWord {k : Cache × Cache × Memory} {ea : Nat} {v : Word}
    (view : (s.withDataSide k).dataByte = flatWrite s.dataByte ea v) :
    StoresWord ea v s (finish false target s (s.withDataSide k)) where
  other _ := finish_reg _ _ _ _
  pc := (finish_pc ..).trans (if_pos rfl)
  flags := finish_sameFlagsAndMode _ _ ⟨rfl, rfl, rfl, rfl, rfl, rfl⟩
  l1i := finish_l1i ..
  bytes := congrFun ((finish_dataByte ..).trans view)

end

end Sys2Proof.Machine

namespace Sys2Proof.Proofs

open Sys2Proof.Machine Sys2Proof.Statements

/-- Settles O20: LDR answers or faults as its read does, and a read within bounds gives the data view's word and changes
no byte of that view. -/
theorem ldrLoadsWord : Obligations.LdrLoadsWord := by
  refine fun f s => ⟨effectiveAddress_eq_wrap f s, fun ha => ?_, fun hs ha => ⟨fun hf => ?_, fun hf => ?_⟩⟩
  · obtain ⟨-, read, -⟩ := access_misaligned (s := s) (wordAligned_eq_false_iff.2 ha) 0
    exact exec_ldr_error read
  · obtain ⟨k, read, -, view⟩ := readData_fits hs (wordAligned_iff.2 ha) hf
    exact ⟨_, _, exec_ldr_ok read, finish_loadsWord _ view _ _, read, finish_sameHierarchy _ _ ⟨rfl, rfl, rfl, rfl⟩⟩
  · obtain ⟨x, j, k, read, -⟩ := readData_short hs (wordAligned_iff.2 ha) hf
    exact ⟨x, j, _, exec_ldr_error read⟩

/-- Settles O21: STR answers or faults as its write does, and a write within bounds is a word write of the data view. -/
theorem strStoresWord : Obligations.StrStoresWord := by
  refine fun f s => ⟨effectiveAddress_eq_wrap f s, fun ha => ?_, fun hs ha => ⟨fun hf => ?_, fun hf => ?_⟩⟩
  · obtain ⟨-, -, write⟩ := access_misaligned (s := s) (wordAligned_eq_false_iff.2 ha) (s.reg f.rd)
    exact exec_str_error write
  · obtain ⟨k, write, -, view⟩ := writeData_fits hs (s.reg f.rd) (wordAligned_iff.2 ha) hf
    exact ⟨_, _, exec_str_ok write, finish_storesWord _ (view.trans (overlay_bytesLe32 ..)), write,
      finish_sameHierarchy _ _ ⟨rfl, rfl, rfl, rfl⟩⟩
  · obtain ⟨x, j, k, write, -⟩ := writeData_short hs (s.reg f.rd) (wordAligned_iff.2 ha) hf
    exact ⟨x, j, _, exec_str_error write⟩

end Sys2Proof.Proofs

/-! ## B and BL: target, link and frame (42_branch.md R180 to R182) -/

namespace Sys2Proof.Machine

open Sys2Proof.Statements

/-- The target adds the offset of R122 once to the address two instructions on, modulo 2^32 (R180). -/
theorem branchTarget_eq_wrap (f : Branch) (s : State) :
    branchTarget f s = wrap ((s.pc.toNat : Int) + 8 + 4 * sext24 f.offset.toNat) := by
  rw [← branchOffset_eq_sext24, wrap_add, wrap_add, wrap_toNat]
  rfl

/-- Wrapping keeps the residue modulo 4, which divides 2^32. -/
theorem wrap_toNat_mod_four (x : Int) : ((wrap x).toNat : Int) % 4 = x % 4 := by
  rw [wrap, BitVec.toNat_ofInt]
  omega

/-- An offset of whole words keeps the alignment of the PC (R65, R180). -/
theorem wrap_pc_add_words_mod_four (pc : Word) (k : Int) :
    (wrap ((pc.toNat : Int) + 8 + 4 * k)).toNat % 4 = pc.toNat % 4 := by
  have h := wrap_toNat_mod_four ((pc.toNat : Int) + 8 + 4 * k)
  omega

/-- A handler that wrote the PC, and r14 when it links, is a branch once the envelope is done: the advance is seen only
when the PC written is the branch's own address (R52). -/
theorem finish_branches {s after : State} {link : Bool} {target : Word} (pc : after.pc = target)
    (lr : after.reg 14 = if link then s.pc + 4 else s.reg 14)
    (other : ∀ q, q ≠ 14 → q ≠ 15 → after.reg q = s.reg q) (flags : SameFlagsAndMode s after)
    (hierarchy : SameHierarchy s after) : Branches link target s (finish false none s after) where
  pc := by rw [finish_pc, pc]; rfl
  lr := (finish_reg _ _ _ _ (by decide)).trans lr
  other q hlr hpc := (finish_reg _ _ _ _ hpc).trans (other q hlr hpc)
  flags := finish_sameFlagsAndMode _ _ flags
  hierarchy := finish_sameHierarchy _ _ hierarchy
  bytes := (finish_sameHierarchy _ _ hierarchy).bytes ((finish_cfg ..).trans flags.cfg)

/-- B writes the PC alone (R181). -/
theorem execB_spec (f : Branch) (s : State) :
    ∃ t, execB f s = .next t ∧ Branches false (branchTarget f s) s t :=
  ⟨_, rfl, finish_branches (pc_setPc ..)
    (lr := reg_setReg_ne _ (by decide) _)
    (other := fun _ _ hpc => reg_setReg_ne _ hpc.symm _)
    (flags := ⟨rfl, rfl, rfl, rfl, rfl, rfl⟩)
    (hierarchy := ⟨rfl, rfl, rfl, rfl⟩)⟩

/-- BL writes r14, then the PC (R182). -/
theorem execBl_spec (f : Branch) (s : State) :
    ∃ t, execBl f s = .next t ∧ Branches true (branchTarget f s) s t :=
  ⟨_, rfl, finish_branches (pc_setPc ..)
    (lr := (reg_setReg_ne _ (by decide) _).trans (reg_setReg_self ..))
    (other := fun _ hlr hpc => (reg_setReg_ne _ hpc.symm _).trans (reg_setReg_ne _ hlr.symm _))
    (flags := ⟨rfl, rfl, rfl, rfl, rfl, rfl⟩)
    (hierarchy := ⟨rfl, rfl, rfl, rfl⟩)⟩

end Sys2Proof.Machine

namespace Sys2Proof.Proofs

open Sys2Proof.Machine

/-- Settles O22: B leaves its target in the PC, and the offset is a whole number of words. -/
theorem branchGoesToTarget : Obligations.BranchGoesToTarget := fun f s =>
  ⟨wrap_pc_add_words_mod_four .., branchTarget_eq_wrap f s ▸ execB_spec f s⟩

/-- Settles O23: BL leaves its target in the PC, as B does, and the next address in r14. -/
theorem branchLinkGoesToTarget : Obligations.BranchLinkGoesToTarget := fun f s =>
  branchTarget_eq_wrap f s ▸ execBl_spec f s

end Sys2Proof.Proofs

/-! ## The Thumb forms: registers, results, flags and the PC (43_thumb.md R190 to R194) -/

namespace Sys2Proof.Machine

open Sys2Proof.Statements

/-! ### The registers and the immediate (R124, R125, R190) -/

theorem lowReg_val (r : LowReg) : (lowReg r).val = r.val := rfl

/-- The registers of a Thumb word are r0 to r7, so a result never goes to the PC. -/
theorem lowReg_ne_pc (r : LowReg) : lowReg r ≠ 15 := by
  refine Fin.ne_of_val_ne ?_
  rw [lowReg_val]
  exact Nat.ne_of_lt (Nat.lt_trans r.isLt (by decide))

theorem wrap_toNat_add_thumbImmediate (a : Word) (imm : BitVec 3) :
    wrap ((a.toNat : Int) + imm.toNat) = a + thumbImmediate imm := by
  rw [← thumbImmediate_toNat, wrap_toNat_add]

theorem wrap_toNat_sub_thumbImmediate (a : Word) (imm : BitVec 3) :
    wrap ((a.toNat : Int) - imm.toNat) = a - thumbImmediate imm := by
  rw [← thumbImmediate_toNat, wrap_toNat_sub]

/-! ### From a handler to its rule -/

/-- An instruction whose arm stores `op` in a low register and advances by 2 (R191 to R194) meets the rule that writes
that result as `res`. -/
theorem exec_writesResult_thumb {i : Instr} {s : State} {rd : LowReg} {op res : Word} (meets : res = op)
    (run : exec i s = writeResult true (lowReg rd) op s) :
    ∃ t, exec i s = .next t ∧ WritesResult true (lowReg rd) res s t := by
  rw [run, meets]
  exact writeResult_spec ..

end Sys2Proof.Machine

namespace Sys2Proof.Proofs

open Sys2Proof.Machine Sys2Proof.Statements

/-- Settles O19: the four forms are the sum and the difference of words, as in O13, on registers below r8. -/
theorem thumbResults : Obligations.ThumbResults := fun _ =>
  ⟨fun _ => exec_writesResult_thumb (wrap_toNat_add ..) rfl,
   fun _ => exec_writesResult_thumb (wrap_toNat_sub ..) rfl,
   fun _ => exec_writesResult_thumb (wrap_toNat_add_thumbImmediate ..) rfl,
   fun _ => exec_writesResult_thumb (wrap_toNat_sub_thumbImmediate ..) rfl,
   fun r => ⟨lowReg_val r, lowReg_ne_pc r⟩⟩

end Sys2Proof.Proofs

/-! ## Exceptions: UNKNOWN words, precise faults and misaligned addresses (60_exceptions.md R201 to R210) -/

namespace Sys2Proof.Machine

open Sys2Proof.Statements

/-! ### UNKNOWN words (10_state.md R55, 30_encoding.md R128, 60_exceptions.md R203) -/

section
variable {i : Instr} {raw : Raw}

theorem isUnknownRaw_arm_iff {w : Word} {g : BitVec 3} (h : field w 25 3 = g) :
    isUnknownRaw (.arm w) ↔ g.toNat = 3 ∨ g.toNat = 4 ∨ g.toNat = 6 ∨ g.toNat = 7 := by
  rw [isUnknownRaw, fieldOf_toNat w 25 2, h]

theorem isUnknownRaw_thumb_iff {h : Half} : isUnknownRaw (.thumb h) ↔ field h 11 5 ≠ 0b00011#5 := by
  rw [isUnknownRaw, fieldOf_toNat h 11 4, Ne, Ne, ← BitVec.toNat_inj]
  rfl

/-- The UNKNOWN instructions are those whose word is of an UNKNOWN group (R113) or format (R127). -/
theorem isUnknown_iff_isUnknownRaw_encode (h : i.wellFormed = true) : isUnknown i = true ↔ isUnknownRaw (encode i) := by
  cases i with
  | andImm f | eorImm f | subImm f | rsbImm f | addImm f | adcImm f | sbcImm f | rscImm f
  | tstImm f | teqImm f | cmpImm f | cmnImm f | orrImm f | movImm f | bicImm f | mvnImm f =>
    exact iff_of_false nofun (mt (isUnknownRaw_arm_iff (dpImm_group _ f)).1 (by decide))
  | andReg f | eorReg f | subReg f | rsbReg f | addReg f | adcReg f | sbcReg f | rscReg f
  | tstReg f | teqReg f | cmpReg f | cmnReg f | orrReg f | movReg f | bicReg f | mvnReg f =>
    exact iff_of_false nofun (mt (isUnknownRaw_arm_iff (dpReg_group _ f)).1 (by decide))
  | str f | ldr f => exact iff_of_false nofun (mt (isUnknownRaw_arm_iff (loadStore_group _ f)).1 (by decide))
  | b f | bl f => exact iff_of_false nofun (mt (isUnknownRaw_arm_iff (branch_group _ f)).1 (by decide))
  | unknown011 f | unknown100 f | unknown110 f | unknown111 f =>
    exact iff_of_true rfl ((isUnknownRaw_arm_iff (armUnknown_group _ f)).2 (by decide))
  | thumbAddReg f | thumbSubReg f =>
    exact iff_of_false nofun fun hraw => isUnknownRaw_thumb_iff.1 hraw (thumbReg_format _ f)
  | thumbAddImm f | thumbSubImm f =>
    exact iff_of_false nofun fun hraw => isUnknownRaw_thumb_iff.1 hraw (thumbImm_format _ f)
  | thumbUnknown raw => exact iff_of_true rfl (isUnknownRaw_thumb_iff.2 (bne_iff_ne.1 h))

theorem isUnknown_decode_iff : isUnknown (decode raw) = true ↔ isUnknownRaw raw := by
  obtain ⟨hw, he⟩ := decode_spec raw
  rw [isUnknown_iff_isUnknownRaw_encode hw, he]

theorem record_opCode_eq_unknown_iff (mode : DpImmMode) : (i.record mode).opCode = .unknown ↔ isUnknown i = true := by
  cases i with
  | unknown011 | unknown100 | unknown110 | unknown111 | thumbUnknown => exact iff_of_true rfl rfl
  | _ => exact iff_of_false nofun nofun

/-- The record of an UNKNOWN instruction is the blank one of its word (R128). -/
theorem record_of_isUnknown (h : isUnknown i = true) (mode : DpImmMode) :
    ∃ thumb cond, i.record mode = unknownRecord (encode i) thumb cond := by
  cases i with
  | unknown011 | unknown100 | unknown110 | unknown111 | thumbUnknown => exact ⟨_, _, rfl⟩
  | _ => cases h

theorem exec_of_isUnknown (h : isUnknown i = true) (s : State) : exec i s = reportUnknown (encode i) s := by
  cases i with
  | unknown011 | unknown100 | unknown110 | unknown111 | thumbUnknown => rfl
  | _ => cases h

/-- An UNKNOWN word reports itself and changes nothing else (R55, R203). -/
theorem exec_decode_of_isUnknown (h : isUnknown (decode raw) = true) (s : State) :
    exec (decode raw) s = .next { s with surfaced := .unknownOpcode raw } := by
  rw [exec_of_isUnknown h, (decode_spec raw).2, reportUnknown]

end

/-! ### The fetch that follows an UNKNOWN word (R204) -/

theorem SameCpu.refl (s : State) : SameCpu s s := ⟨rfl, rfl, rfl, rfl, rfl, rfl, rfl⟩

theorem SameCpu.trans {s t u : State} (h : SameCpu s t) (g : SameCpu t u) : SameCpu s u :=
  ⟨g.cfg.trans h.cfg, g.regs.trans h.regs, g.n.trans h.n, g.z.trans h.z, g.c.trans h.c, g.v.trans h.v,
    g.thumbMode.trans h.thumbMode⟩

theorem SameCpu.pc_eq {s t : State} (h : SameCpu s t) : t.pc = s.pc := by
  simp only [State.pc, State.reg, h.regs]

section
variable {s t : State} {a w : Word} {raw : Raw}

theorem fetchFits_of_ok (hs : s.Inv) (h : fetchInstruction a s = .ok (w, t)) : FetchFits s.cfg a.toNat := by
  refine Classical.byContradiction fun hf => ?_
  obtain ⟨x, j, u, e, -⟩ := fetchInstruction_outOfBounds hs (fetchInstruction_ok h).1 hf
  rw [h] at e
  cases e

theorem fetchInstruction_l2Byte (hs : s.Inv) (h : fetchInstruction a s = .ok (w, t)) : t.l2Byte = s.l2Byte := by
  obtain ⟨k, e, -, hl2⟩ := fetchInstruction_fits hs (wordAligned_iff.2 (fetchInstruction_ok h).1) (fetchFits_of_ok hs h)
  rw [h] at e
  cases e
  exact hl2

/-- A fetch does not change what the instruction side shows of the word fetched: L1I then holds its block, with the bytes
that the view showed, or has no lines and shows what L2 shows (R82, R95). -/
theorem fetchInstruction_instrByte (hs : s.Inv) (h : fetchInstruction a s = .ok (w, t)) {i : Nat} (hi : i < 4) :
    t.instrByte (a.toNat + i) = s.instrByte (a.toNat + i) := by
  have hl2 := fetchInstruction_l2Byte hs h
  have inv := (fetchInstruction_answers hs h).2.inv
  obtain ⟨ha, bytes, k, hr, rfl, -⟩ := fetchInstruction_ok h
  by_cases hn : lineCount s.cfg.l1i = 0
  · rw [State.instrByte, State.instrByte, hl2, viewThrough_of_zero hs.l1iShape hn]
    exact congrFun (viewThrough_of_zero inv.l1iShape hn _) _
  · have g := geometryOk_of_check hs.config.l1i
    have block := div_add_of_word g ha hi
    obtain ⟨slot, hslot⟩ := cacheRead_word_ok g hn ha hr
    obtain ⟨holds, -, shows⟩ := access_ok g hn (contract_l2Store hs.config) hs.l1iOk hslot
    exact (viewThrough_of_holds g inv.l1iShape ⟨holds.lt, holds.valid, holds.block.trans block.symm⟩ _).trans
      (shows _ block)

theorem instrWord_congr {a : Nat} (h : ∀ {i}, i < 4 → t.instrByte (a + i) = s.instrByte (a + i)) :
    t.instrWord a = s.instrWord a := by
  have h0 : t.instrByte a = s.instrByte a := h (i := 0) (by decide)
  simp only [State.instrWord, h0, h (i := 1) (by decide), h (i := 2) (by decide), h (i := 3) (by decide)]

/-- After a fetch, with any report, a fetch at the same address answers the same word. -/
theorem fetchInstruction_again (hs : s.Inv) (h : fetchInstruction a s = .ok (w, t)) (d : Surfaced) :
    ∃ u, fetchInstruction a { t with surfaced := d } = .ok (w, u) := by
  obtain ⟨rfl, fetched⟩ := fetchInstruction_answers hs h
  have inv : State.Inv { t with surfaced := d } := fetched.inv.congr rfl rfl rfl rfl rfl
  have hf : FetchFits t.cfg a.toNat := fetched.cpu.cfg ▸ fetchFits_of_ok hs h
  obtain ⟨u, e, -⟩ := fetchInstruction_fetched inv (fetchInstruction_ok h).1 hf
  rw [← instrWord_congr (fetchInstruction_instrByte hs h)]
  exact ⟨u, e⟩

/-- A step's fetch reads the pc and the mode, and is otherwise the hierarchy's fetch (R51). -/
theorem fetchRaw_congr {u : State} (mode : u.thumbMode = s.thumbMode) (pc : u.pc = s.pc)
    (fetch : ∀ a w, fetchInstruction a s = .ok (w, t) → ∃ v, fetchInstruction a u = .ok (w, v))
    (h : fetchRaw s = .ok (raw, t)) : ∃ v, fetchRaw u = .ok (raw, v) := by
  unfold fetchRaw at h ⊢
  rw [mode, pc]
  split at h
  next hm =>
    split at h
    next => cases h
    next hb =>
      split at h
      next w _ e =>
        cases h
        obtain ⟨v, e⟩ := fetch _ w e
        exact ⟨v, by simp [hm, hb, e]⟩
      next => cases h
  next hm =>
    split at h
    next w _ e =>
      cases h
      obtain ⟨v, e⟩ := fetch _ w e
      exact ⟨v, by simp [hm, e]⟩
    next => cases h

/-- A step that reported an UNKNOWN word leaves the CPU as it was, and the next step reports the same word (R204). -/
theorem step_unknown_again (hs : s.Inv) (h : step s = .next t) (ht : t.surfaced = .unknownOpcode raw) :
    SameCpu s t ∧ ∃ u, step t = .next u ∧ u.surfaced = .unknownOpcode raw := by
  obtain ⟨raw', s1, hraw, fetched, hx⟩ := step_next hs h
  obtain ⟨unknown, rfl⟩ | ⟨-, thumb, after, rfl, -⟩ := exec_next_cases hx
  · obtain rfl : raw' = raw := (decode_spec raw').2.symm.trans (Surfaced.unknownOpcode.inj ht)
    have cpu : SameCpu s { s1 with surfaced := .unknownOpcode (encode (decode raw')) } :=
      fetched.cpu.trans ⟨rfl, rfl, rfl, rfl, rfl, rfl, rfl⟩
    obtain ⟨u, hu⟩ := fetchRaw_congr cpu.thumbMode cpu.pc_eq (fun _ _ e => fetchInstruction_again hs e _) hraw
    refine ⟨cpu, { u with surfaced := .unknownOpcode raw' }, ?_, rfl⟩
    rw [step, hu]
    exact exec_decode_of_isUnknown unknown u
  · cases ht

/-- The report of an UNKNOWN word recurs at every following step. -/
theorem runs_unknown (hs : s.Inv) (h : step s = .next t) (ht : t.surfaced = .unknownOpcode raw) (n : Nat) :
    ∃ u, Runs n t u ∧ SameCpu s u ∧ u.surfaced = .unknownOpcode raw := by
  induction n generalizing s t with
  | zero => exact ⟨t, runs_zero.2 rfl, (step_unknown_again hs h ht).1, ht⟩
  | succ n ih =>
    obtain ⟨cpu, v, hv, hvr⟩ := step_unknown_again hs h ht
    obtain ⟨u, run, cpu', hu⟩ := ih ((step_leaves_inv hs).next h) hv hvr
    exact ⟨u, runs_succ.2 ⟨v, hv, run⟩, cpu.trans cpu', hu⟩

end

/-! ### What a fault leaves (R201, R210) -/

/-- The CPU and every byte of data are as before (R210). -/
structure SameCpuAndData (s t : State) : Prop where
  cpu  : SameCpu s t
  data : ∀ a, t.dataByte a = s.dataByte a

theorem SameCpuAndData.refl (s : State) : SameCpuAndData s s := ⟨.refl s, fun _ => rfl⟩

theorem SameCpuAndData.trans {s t u : State} (h : SameCpuAndData s t) (g : SameCpuAndData t u) : SameCpuAndData s u :=
  ⟨h.cpu.trans g.cpu, fun a => (g.data a).trans (h.data a)⟩

theorem sameCpuAndData_of_fetched {s t : State} (h : Fetched s t) : SameCpuAndData s t := ⟨h.cpu, h.bytes⟩

section
variable {s : State} {i : Instr} {a v : Word} {fault : Fault}

/-- An access that raises at a misaligned address, answers where it fits, and raises `OutOfBounds` elsewhere leaves the CPU
and the data as they were if its `OutOfBounds` does (R65, R205). -/
theorem left_of_access {α : Type} {r : Except Fault α} {fits : Prop}
    (misaligned : wordAligned a = false → r = .error (.alignmentFault a s))
    (answers : wordAligned a = true → fits → ∃ x, r = .ok x)
    (short : wordAligned a = true → ¬ fits → ∃ x j t, r = .error (.outOfBounds x j t) ∧ SameCpuAndData s t)
    (h : r = .error fault) : SameCpuAndData s fault.left := by
  cases ha : wordAligned a with
  | false => cases h.symm.trans (misaligned ha); exact .refl s
  | true =>
    by_cases hf : fits
    · obtain ⟨x, e⟩ := answers ha hf
      cases h.symm.trans e
    · obtain ⟨x, j, t, e, left⟩ := short ha hf
      cases h.symm.trans e
      exact left

theorem fetchInstruction_error_left (hs : s.Inv) (h : fetchInstruction a s = .error fault) :
    SameCpuAndData s fault.left := by
  refine left_of_access (a := a) (fits := FetchFits s.cfg a.toNat) (fun ha => ?_) (fun ha hf => ?_) (fun ha hf => ?_) h
  · obtain ⟨fetch, -, -⟩ := access_misaligned (s := s) ha 0
    exact fetch
  · obtain ⟨k, e, -⟩ := fetchInstruction_fits hs ha hf
    exact ⟨_, e⟩
  · obtain ⟨x, j, k, e, inv, hl2⟩ := fetchInstruction_short hs ha hf
    exact ⟨x, j, _, e, sameCpuAndData_of_fetched (fetched_withInstrSide inv hl2)⟩

theorem readData_error_left (hs : s.Inv) (h : readData a s = .error fault) : SameCpuAndData s fault.left := by
  refine left_of_access (a := a) (fits := DataFits s.cfg a.toNat) (fun ha => ?_) (fun ha hf => ?_) (fun ha hf => ?_) h
  · obtain ⟨-, read, -⟩ := access_misaligned (s := s) ha 0
    exact read
  · obtain ⟨k, e, -⟩ := readData_fits hs ha hf
    exact ⟨_, e⟩
  · obtain ⟨x, j, k, e, -, view⟩ := readData_short hs ha hf
    exact ⟨x, j, _, e, withDataSide_sameCpu s k, congrFun view⟩

theorem writeData_error_left (hs : s.Inv) (h : writeData a v s = .error fault) : SameCpuAndData s fault.left := by
  refine left_of_access (a := a) (fits := DataFits s.cfg a.toNat) (fun ha => ?_) (fun ha hf => ?_) (fun ha hf => ?_) h
  · obtain ⟨-, -, write⟩ := access_misaligned ha v
    exact write
  · obtain ⟨k, e, -⟩ := writeData_fits hs v ha hf
    exact ⟨_, e⟩
  · obtain ⟨x, j, k, e, -, view⟩ := writeData_short hs v ha hf
    exact ⟨x, j, _, e, withDataSide_sameCpu s k, congrFun view⟩

/-- Where an instruction's fault comes from: nothing done yet (R159), or the data access of LDR or STR (R171, R172). -/
theorem exec_fault_cases (h : exec i s = .fault fault) :
    fault.left = s ∨ (∃ a, readData a s = .error fault) ∨ (∃ a v, writeData a v s = .error fault) := by
  cases exec_cases i with
  | writes _ _ _ _ _ _ run | compares _ _ _ _ run | unknown _ run => rw [run] at h; cases h
  | absent _ _ run => rw [run] at h; cases h; exact .inl rfl
  | branches f eq | links f eq => subst eq; cases h
  | loads f eq =>
    subst eq
    simp only [exec, execLdr] at h
    split at h
    next => cases h
    next e => cases h; exact .inr (.inl ⟨_, e⟩)
  | stores f eq =>
    subst eq
    simp only [exec, execStr] at h
    split at h
    next => cases h
    next e => cases h; exact .inr (.inr ⟨_, _, e⟩)

theorem exec_fault_left (hs : s.Inv) (h : exec i s = .fault fault) : SameCpuAndData s fault.left := by
  obtain e | ⟨a, e⟩ | ⟨a, v, e⟩ := exec_fault_cases h
  · exact e.symm ▸ .refl s
  · exact readData_error_left hs e
  · exact writeData_error_left hs e

theorem step_fault_left (hs : s.Inv) (h : step s = .fault fault) : SameCpuAndData s fault.left := by
  unfold step at h
  obtain ⟨-, e⟩ | ⟨a, _, hf, e⟩ | ⟨a, w, raw, t, hf, e⟩ := fetchRaw_cases s <;> rw [e] at h
  · cases h
    exact .refl s
  · cases h
    exact fetchInstruction_error_left hs hf
  · have fetched := (fetchInstruction_answers hs hf).2
    exact (sameCpuAndData_of_fetched fetched).trans (exec_fault_left fetched.inv h)

end

/-! ### The PC that an ARM word leaves (R207) -/

section
variable {s t : State} {i : Instr} {w : Word}

theorem fieldOf_opcode_class (v : Nat) : fieldOf v 24 23 = fieldOf v 24 21 / 4 := by
  unfold fieldOf
  omega

/-- A data-processing word with rd = 15 names the PC as its destination, unless its opcode is one of the four that compare
(R117, R142). -/
theorem namesPc_encodeDpImm {opcode : BitVec 4} {f : DpImm} (hrd : f.rd = 15) (hop : opcode.toNat / 4 ≠ 2) :
    namesPcAsDestination (encodeDpImm opcode f) := by
  obtain ⟨group, code⟩ := fieldOf_encodeDpImm opcode f
  refine ⟨?_, .inl ⟨Nat.le_of_eq group, ?_⟩⟩
  · rw [fieldOf_eq_field, dpImm_rd, hrd]; rfl
  · rwa [fieldOf_opcode_class, code]

theorem namesPc_encodeDpReg {opcode : BitVec 4} {f : DpReg} (hrd : f.rd = 15) (hop : opcode.toNat / 4 ≠ 2) :
    namesPcAsDestination (encodeDpReg opcode f) := by
  refine ⟨?_, .inl ⟨?_, ?_⟩⟩
  · rw [fieldOf_eq_field, dpReg_rd, hrd]; rfl
  · rw [fieldOf_eq_field, dpReg_group]; decide
  · rwa [fieldOf_opcode_class, fieldOf_eq_field, dpReg_opcode]

theorem namesPc_encodeLdr {f : LoadStore} (hrd : f.rd = 15) : namesPcAsDestination (encodeLoadStore true f) := by
  refine ⟨?_, .inr ⟨?_, ?_⟩⟩
  · rw [fieldOf_eq_field, loadStore_rd, hrd]; rfl
  · rw [fieldOf_eq_field, loadStore_group]; rfl
  · rw [fieldOf_eq_field, ← ofBool_bit, loadStore_load]; rfl

/-- What an ARM word that goes on can do to the PC: leave it, advance it, branch, or write it as a destination. -/
inductive ArmPc (w : Word) (s t : State) : Prop
  | kept (pc : t.pc = s.pc)
  | advanced (pc : t.pc = s.pc + 4)
  | branched (f : Branch) (pc : t.pc = branchTarget f s)
  | written (names : namesPcAsDestination w)

theorem armPc_of_writeResult {rd : Reg} {res : Word} (names : rd = 15 → namesPcAsDestination w)
    (h : writeResult false rd res s = .next t) : ArmPc w s t := by
  obtain ⟨u, e, writes⟩ := writeResult_spec false rd res s
  rw [h] at e
  cases e
  by_cases hrd : rd = 15
  · exact .written (names hrd)
  · exact .advanced (writes.pc.trans (if_neg fun hpc => hrd hpc.1))

theorem armPc_of_compareResult {res : Word} (h : compareResult res s = .next t) : ArmPc w s t := by
  obtain ⟨u, e, sets⟩ := compareResult_spec res s
  rw [h] at e
  cases e
  exact .advanced sets.pc

theorem armPc_of_branches {link : Bool} {f : Branch} (h : Branches link (branchTarget f s) s t) : ArmPc w s t := by
  by_cases e : branchTarget f s = s.pc
  · exact .advanced (h.pc.trans (if_pos e))
  · exact .branched f (h.pc.trans (if_neg e))

theorem armPc_of_execLdr {f : LoadStore} (h : execLdr f s = .next t) : ArmPc (encodeLoadStore true f) s t := by
  obtain ⟨k, v, rfl⟩ := execLdr_next h
  by_cases hrd : f.rd = 15
  · exact .written (namesPc_encodeLdr hrd)
  · exact .advanced ((finish_setReg_pc false _ (withDataSide_pc s k) f.rd v).trans (if_neg fun hpc => hrd hpc.1))

theorem armPc_of_execStr {f : LoadStore} (h : execStr f s = .next t) : ArmPc w s t := by
  obtain ⟨k, rfl⟩ := execStr_next h
  exact .advanced ((finish_pc ..).trans (if_pos (withDataSide_pc s k)))

/-- The PC after an ARM instruction, by its form (R52, R142, R171, R181). -/
theorem armPc_of_exec (he : encode i = .arm w) (h : exec i s = .next t) : ArmPc w s t := by
  cases i with
  | eorImm f | teqImm f => cases h
  | andImm f | subImm f | rsbImm f | addImm f | adcImm f | sbcImm f | rscImm f
  | orrImm f | movImm f | bicImm f | mvnImm f =>
    cases he
    exact armPc_of_writeResult (namesPc_encodeDpImm · (by decide)) h
  | andReg f | eorReg f | subReg f | rsbReg f | addReg f | adcReg f | sbcReg f | rscReg f
  | orrReg f | movReg f | bicReg f | mvnReg f =>
    cases he
    exact armPc_of_writeResult (namesPc_encodeDpReg · (by decide)) h
  | tstImm f | cmpImm f | cmnImm f | tstReg f | teqReg f | cmpReg f | cmnReg f => exact armPc_of_compareResult h
  | ldr f => cases he; exact armPc_of_execLdr h
  | str f => exact armPc_of_execStr h
  | b f =>
    obtain ⟨u, e, branches⟩ := execB_spec f s
    cases h.symm.trans e
    exact armPc_of_branches branches
  | bl f =>
    obtain ⟨u, e, branches⟩ := execBl_spec f s
    cases h.symm.trans e
    exact armPc_of_branches branches
  | unknown011 f | unknown100 f | unknown110 f | unknown111 f => cases h; exact .kept rfl
  | thumbAddReg f | thumbSubReg f | thumbAddImm f | thumbSubImm f | thumbUnknown raw => cases he

theorem branchTarget_mod_four (f : Branch) (s : State) : (branchTarget f s).toNat % 4 = s.pc.toNat % 4 := by
  rw [branchTarget_eq_wrap, wrap_pc_add_words_mod_four]

/-- Of what an ARM word can do to an aligned PC, only a write can misalign it (R207). -/
theorem ArmPc.names_of_misaligned (h : ArmPc w s t) (hs : s.pc.toNat % 4 = 0) (ht : t.pc.toNat % 4 ≠ 0) :
    namesPcAsDestination w := by
  cases h with
  | kept pc => exact absurd (pc ▸ hs) ht
  | advanced pc =>
    refine absurd ?_ ht
    rw [pc, BitVec.toNat_add, show (4 : Word).toNat = 4 from rfl]
    omega
  | branched f pc => exact absurd (pc ▸ (branchTarget_mod_four f s).trans hs) ht
  | written names => exact names

end

end Sys2Proof.Machine

namespace Sys2Proof.Proofs

open Sys2Proof.Machine Sys2Proof.Statements

/-- Settles O25: the fetch leaves the word where the instruction side shows it, and an UNKNOWN word leaves the pc, so the
next step fetches and reports it again. -/
theorem unknownWordRepeatsForever : Obligations.UnknownWordRepeatsForever := fun _ _ _ hs h ht =>
  runs_unknown hs h ht

/-- Settles O24: the decoder finds an UNKNOWN instruction exactly for these words, and its record is blank. -/
theorem unknownWordReports : Obligations.UnknownWordReports := by
  refine ⟨fun mode raw => ⟨(record_opCode_eq_unknown_iff mode).trans isUnknown_decode_iff, fun h => ?_⟩,
    fun s => ⟨fun _ => ⟨_, rfl, rfl⟩, fun _ => ⟨_, rfl, rfl⟩, fun _ => ⟨_, rfl, rfl⟩, fun _ => ⟨_, rfl, rfl⟩,
      fun _ => ⟨_, rfl, rfl⟩⟩⟩
  have unknown := isUnknown_decode_iff.2 h
  obtain ⟨thumb, cond, blank⟩ := record_of_isUnknown unknown mode
  rw [decodeRecord, blank]
  exact ⟨rfl, rfl, rfl, rfl, rfl, exec_decode_of_isUnknown unknown⟩

/-- Settles O12: the fetch and the data accesses raise with the CPU and the data view of before, and everything else raises
before it changes anything. -/
theorem faultIsPrecise : Obligations.FaultIsPrecise := fun _ _ hs h =>
  have left := step_fault_left hs h
  ⟨left.cpu, left.data⟩

/-- Settles O10: an advance and a branch keep the alignment of the PC, so a word that loses it has written r15. -/
theorem misalignedAccessFaults : Obligations.MisalignedAccessFaults :=
  ⟨fun _ _ v ha => access_misaligned (wordAligned_eq_false_iff.2 ha) v, fun _ => step_thumb_odd,
    fun w _ _ hs h => (armPc_of_exec (decode_spec (.arm w)).2 h).names_of_misaligned hs⟩

end Sys2Proof.Proofs

/-! ## Reset and hazards: construction, the loader and the host's operations (70_reset_and_hazards.md R230 to R240) -/

namespace Sys2Proof.Machine

open Sys2Proof.Statements

/-! ### A cache at construction (R44) -/

section
variable (C : CacheConfig)

@[simp] theorem constructCache_length : (constructCache C).lines.length = lineCount C := List.length_replicate

theorem eq_reset_of_mem_constructCache {l : Line} (h : l ∈ (constructCache C).lines) : l = Line.reset C.bs :=
  List.eq_of_mem_replicate h

theorem constructCache_line {slot : Nat} (h : slot < lineCount C) :
    (constructCache C).line slot = Line.reset C.bs := by
  have hlen : slot < (constructCache C).lines.length := by rwa [constructCache_length]
  exact eq_reset_of_mem_constructCache C (Cache.line_mem hlen)

/-- No slot holds a valid line, those past the last line included. -/
@[simp] theorem constructCache_line_valid (slot : Nat) : ((constructCache C).line slot).valid = false := by
  by_cases h : slot < lineCount C
  · rw [constructCache_line C h]; rfl
  · rw [Cache.line_of_length_le (by rw [constructCache_length]; omega)]; rfl

theorem cacheWf_constructCache : CacheWf C (constructCache C) where
  count := constructCache_length C
  size slot h := by rw [constructCache_line C h]; exact List.length_replicate
  tagBound slot _ hv := by simp at hv
  uniqueTag _ i _ _ _ hv _ _ := by simp at hv
  uniqueRecency _ i _ _ _ hv _ _ := by simp at hv
  directRecency _ slot h := by rw [constructCache_line C h]; rfl

theorem linesFit_constructCache (fits : Nat → Prop) : LinesFit C (constructCache C) fits :=
  fun slot _ hv => by simp at hv

theorem cleanAgree_constructCache (below : Nat → Byte) : CleanAgree C (constructCache C) below :=
  fun slot _ hv => by simp at hv

theorem noDirty_constructCache : NoDirty C (constructCache C) := fun slot h => by
  rw [constructCache_line C h]; rfl

/-- With every line invalid, no address matches a tag (R69). -/
theorem lookup_constructCache (a : Nat) : lookup C (constructCache C) a = none := by
  cases hp : C.policy with
  | direct => simp [lookup, hp, lineMatches]
  | fullyAssociative =>
    simp only [lookup, hp, List.findIdx?_eq_none_iff]
    intro l hl
    rw [eq_reset_of_mem_constructCache C hl]
    rfl

/-- A cache with every line invalid hides nothing of the level below (R95, R233). -/
theorem viewThrough_constructCache (below : Nat → Byte) : viewThrough C (constructCache C) below = below := by
  funext a
  rw [viewThrough, cacheByte, lookup_constructCache]
  rfl

theorem resetCache_constructCache : ResetCache C (constructCache C) where
  count := constructCache_length C
  lines l hl := by
    rw [eq_reset_of_mem_constructCache C hl]
    exact ⟨rfl, rfl, rfl, rfl, rfl⟩
  counters := ⟨rfl, rfl, rfl⟩

end

/-- The three caches of a state are as construction makes them: what holds up to the first access (R231, R233). -/
structure State.CachesReset (s : State) : Prop where
  l1i : s.l1i = constructCache s.cfg.l1i
  l1d : s.l1d = constructCache s.cfg.l1d
  l2  : s.l2 = constructCache s.cfg.l2

namespace State.CachesReset

variable {s : State}

theorem inv (h : s.CachesReset) (hc : ConfigOk s.cfg) (hm : MemoryOk s.cfg.memSize s.mem) : s.Inv where
  config := hc
  memory := hm
  l2Shape := by rw [h.l2]; exact cacheWf_constructCache _
  l2Fits := by rw [h.l2]; exact linesFit_constructCache _ _
  l2Agree := by rw [h.l2]; exact cleanAgree_constructCache _ _
  l1dShape := by rw [h.l1d]; exact cacheWf_constructCache _
  l1dFits := by rw [h.l1d]; exact linesFit_constructCache _ _
  l1dAgree := by rw [h.l1d]; exact cleanAgree_constructCache _ _
  l1iShape := by rw [h.l1i]; exact cacheWf_constructCache _
  l1iFits := by rw [h.l1i]; exact linesFit_constructCache _ _
  l1iClean := by rw [h.l1i]; exact noDirty_constructCache _
  l1iWrites := by rw [h.l1i]; rfl

theorem l2Byte (h : s.CachesReset) : s.l2Byte = s.mem.readByte := by
  show viewThrough s.cfg.l2 s.l2 s.mem.readByte = _
  rw [h.l2, viewThrough_constructCache]

theorem dataByte (h : s.CachesReset) : s.dataByte = s.mem.readByte := by
  show viewThrough s.cfg.l1d s.l1d s.l2Byte = _
  rw [h.l1d, viewThrough_constructCache, h.l2Byte]

theorem instrByte (h : s.CachesReset) : s.instrByte = s.mem.readByte := by
  show viewThrough s.cfg.l1i s.l1i s.l2Byte = _
  rw [h.l1i, viewThrough_constructCache, h.l2Byte]

end State.CachesReset

/-! ### The image in main memory (R45) -/

theorem MemoryOk.writeByte {memSize a : Nat} {m : Memory} (hm : MemoryOk memSize m) (ha : a < memSize) (b : Byte) :
    MemoryOk memSize (m.writeByte a b) := by
  refine ⟨Memory.wf_writeByte hm.1 a b, fun cell hcell => ?_⟩
  rcases Memory.mem_writeByte hcell with rfl | hcell
  · exact ha
  · exact hm.2 cell hcell

section
variable (memSize : Nat) (image : List Host.Cell) (cell : Host.Cell)

/-- The last pair of an image is the last one written. -/
theorem memoryOfImage_concat : memoryOfImage memSize (image ++ [cell]) =
    if cell.1 < memSize then (memoryOfImage memSize image).writeByte cell.1 cell.2
    else memoryOfImage memSize image := by
  simp [memoryOfImage]

/-- The last pair of an image wins. -/
theorem imageByte_concat (a : Nat) :
    imageByte (image ++ [cell]) a = if cell.1 = a then cell.2 else imageByte image a := by
  by_cases h : cell.1 = a <;> simp [imageByte, h]

theorem memoryOk_memoryOfImage : MemoryOk memSize (memoryOfImage memSize image) := by
  rw [← image.reverse_reverse]
  induction image.reverse with
  | nil => exact ⟨⟨.nil, by simp [memoryOfImage]⟩, by simp [memoryOfImage]⟩
  | cons cell older ih =>
    rw [List.reverse_cons, memoryOfImage_concat]
    split
    next h => exact ih.writeByte h cell.2
    next => exact ih

/-- Main memory shows the image below MEM_SIZE: a pair at or above it is dropped, and names no address below it. -/
theorem readByte_memoryOfImage {a : Nat} (ha : a < memSize) :
    (memoryOfImage memSize image).readByte a = imageByte image a := by
  rw [← image.reverse_reverse]
  induction image.reverse with
  | nil => rfl
  | cons cell older ih =>
    rw [List.reverse_cons, memoryOfImage_concat, imageByte_concat, ← ih]
    split
    next => exact Memory.readByte_writeByte (memoryOk_memoryOfImage memSize older.reverse).1.1 cell.1 cell.2 a
    next h => rw [if_neg (by omega)]

end

/-! ### Construction (R231) -/

/-- What construction builds from an accepted launch, field by field (R25, R28, R34, R44, R45). -/
structure Constructed (L : Launch) (s : State) : Prop where
  accepted  : checkConfig L.cfg = none
  cfg       : s.cfg = L.cfg
  regs      : s.regs = constructRegs L.regInit
  n         : s.n = false
  z         : s.z = false
  c         : s.c = false
  v         : s.v = false
  thumbMode : s.thumbMode = L.thumbInit
  l1i       : s.l1i = constructCache L.cfg.l1i
  l1d       : s.l1d = constructCache L.cfg.l1d
  l2        : s.l2 = constructCache L.cfg.l2
  mem       : s.mem = memoryOfImage L.cfg.memSize L.memInit

theorem constructed_of_construct {L : Launch} {s : State} (h : construct L = .ok s) : Constructed L s := by
  unfold construct at h
  split at h
  next => cases h
  next accepted =>
    cases h
    exact ⟨accepted, rfl, rfl, rfl, rfl, rfl, rfl, rfl, rfl, rfl, rfl, rfl⟩

/-- REG_INIT stands in r0 to r14 (R25). -/
theorem constructRegs_castSucc (regInit : Vector Word 15) (r : Fin 15) :
    (constructRegs regInit)[r.castSucc] = regInit[r] :=
  Vector.getElem_push_lt r.isLt

theorem constructRegs_pcReg (regInit : Vector Word 15) : (constructRegs regInit)[pcReg] = 0 :=
  Vector.getElem_push_eq

namespace Constructed

variable {L : Launch} {s : State}

theorem cachesReset (h : Constructed L s) : s.CachesReset :=
  ⟨by rw [h.l1i, h.cfg], by rw [h.l1d, h.cfg], by rw [h.l2, h.cfg]⟩

theorem configOk (h : Constructed L s) (hpos : 1 ≤ L.cfg.memSize) (hmax : L.cfg.memSize ≤ 2 ^ 32) : ConfigOk s.cfg := by
  obtain ⟨hi, hd, h2⟩ := checkConfig_eq_none_iff.1 h.accepted
  rw [h.cfg]
  exact ⟨hpos, hmax, hi, hd, h2⟩

theorem memoryOk (h : Constructed L s) : MemoryOk s.cfg.memSize s.mem := by
  rw [h.cfg, h.mem]
  exact memoryOk_memoryOfImage ..

theorem reg (h : Constructed L s) (r : Fin 15) : s.reg r.castSucc = L.regInit[r] := by
  rw [State.reg, h.regs, constructRegs_castSucc]

theorem pc (h : Constructed L s) : s.pc = 0 := by
  rw [State.pc, State.reg, h.regs, constructRegs_pcReg]

end Constructed

/-! ### The loader (R233) -/

section
variable {s : State} {program : List Byte}

theorem loadProgram_of_length_le (h : program.length ≤ s.cfg.memSize) :
    loadProgram program s = some { s with mem := s.mem.writeBytes 0 program } := if_pos h

theorem loadProgram_of_lt_length (h : s.cfg.memSize < program.length) : loadProgram program s = none :=
  if_neg (Nat.not_le.2 h)

/-- Bytes written from address 0 are read back there. -/
theorem readByte_writeBytes_zero {m : Memory} (hm : Memory.wf m) {i : Nat} (h : i < program.length) :
    (m.writeBytes 0 program).readByte i = program[i] := by
  rw [Memory.readByte_writeBytes hm, overlay_of_mem (by omega) (by omega), Nat.sub_zero, getD_eq_getElem h]

theorem readByte_writeBytes_zero_of_le {m : Memory} (hm : Memory.wf m) {a : Nat} (h : program.length ≤ a) :
    (m.writeBytes 0 program).readByte a = m.readByte a := by
  rw [Memory.readByte_writeBytes hm, overlay_of_not_mem (by omega)]

/-- Loading touches no cache. -/
theorem State.CachesReset.loaded (h : s.CachesReset) (m : Memory) : { s with mem := m }.CachesReset :=
  ⟨h.l1i, h.l1d, h.l2⟩

end

/-! ### The host's operations (R240) -/

theorem hostApply_leaves_inv {s : State} (hs : s.Inv) (op : HostOp) : Leaves State.Inv (hostApply op s) := by
  cases op with
  | writePc a => exact hs.onlyRegsAndNZ (setReg_onlyRegsAndNZ s pcReg a)
  | execute raw => exact exec_leaves_inv (decode raw) hs
  | fetchInstruction a => exact fetchInstruction_leaves_inv hs a
  | readData a => exact readData_leaves_inv hs a
  | writeData a v => exact writeData_leaves_inv hs a v
  | step => exact step_leaves_inv hs

end Sys2Proof.Machine

namespace Sys2Proof.Proofs

open Sys2Proof.Machine Sys2Proof.Statements

/-- Settles O32: every line is invalid, so the caches meet the invariant vacuously, and the image is written byte by byte
below MEM_SIZE. -/
theorem invariantAtConstruction : Obligations.InvariantAtConstruction := fun _ _ hpos hmax h =>
  have built := constructed_of_construct h
  built.cachesReset.inv (built.configOk hpos hmax) built.memoryOk

/-- Settles O34: each host operation is a change of the PC, an access of the hierarchy, an instruction or a step. -/
theorem hostOperationKeepsInvariant : Obligations.HostOperationKeepsInvariant := fun op _ hs =>
  ⟨fun _ => (hostApply_leaves_inv hs op).next, fun _ => (hostApply_leaves_inv hs op).fault⟩

/-- Settles O36: the fields that construction builds, with main memory read as the image. -/
theorem constructionGivesResetState : Obligations.ConstructionGivesResetState := fun L _ h =>
  have built := constructed_of_construct h
  ⟨built.cfg, built.reg, built.pc, built.n, built.z, built.c, built.v, built.thumbMode,
    built.l1i ▸ resetCache_constructCache _, built.l1d ▸ resetCache_constructCache _,
    built.l2 ▸ resetCache_constructCache _, fun _ ha => built.mem ▸ readByte_memoryOfImage _ L.memInit ha⟩

/-- Settles O38: with every line invalid both sides show main memory, where the loader has written the program. -/
theorem loaderPlacesProgram : Obligations.LoaderPlacesProgram := by
  intro L s program h
  have built := constructed_of_construct h
  have hwf : Memory.wf s.mem := built.memoryOk.1
  refine ⟨fun hlong => loadProgram_of_lt_length (built.cfg ▸ hlong), fun hfits =>
    ⟨_, loadProgram_of_length_le (built.cfg ▸ hfits), fun i hi => ?_, fun a => readByte_writeBytes_zero_of_le hwf,
      ⟨rfl, rfl, rfl, rfl, rfl, rfl, rfl⟩, rfl, rfl, rfl⟩⟩
  have loaded := built.cachesReset.loaded (s.mem.writeBytes 0 program)
  rw [loaded.instrByte, loaded.dataByte]
  exact ⟨readByte_writeBytes_zero hwf hi, readByte_writeBytes_zero hwf hi, readByte_writeBytes_zero hwf hi⟩

end Sys2Proof.Proofs

/-! ## The decode vectors and the reset state (95_test_vectors.md, 70_reset_and_hazards.md) -/

namespace Sys2Proof

/-- Encoding a well-formed instruction to a word settles what that word decodes to. -/
theorem decode_eq_of_encode_eq {raw : Raw} {i : Instr} (hw : i.wellFormed = true) (he : encode i = raw) :
    decode raw = i :=
  he ▸ decode_encode hw

namespace Machine

/-- Construction accepts the three caches of `Config.default`. -/
theorem checkConfig_default : checkConfig Config.default = none :=
  checkConfig_eq_none_iff.2 ⟨by decide, by decide, by decide⟩

/-- REG_INIT all zero gives a register file all zero, the PC included (R25, R28). -/
theorem constructRegs_replicate_zero : constructRegs (Vector.replicate 15 0) = Vector.replicate 16 0 :=
  Vector.replicate_succ.symm

/-- The caches of `Config.default` have 64 lines each. -/
theorem constructCache_default :
    constructCache Config.default.l1i = Cache.reset 64 16 ∧ constructCache Config.default.l1d = Cache.reset 64 16 ∧
      constructCache Config.default.l2 = Cache.reset 64 64 :=
  ⟨rfl, rfl, rfl⟩

theorem construct_default : construct Launch.default = .ok State.reset := by
  obtain ⟨hi, hd, h2⟩ := constructCache_default
  simp only [construct, Launch.default, checkConfig_default, constructRegs_replicate_zero, hi, hd, h2, memoryOfImage,
    List.foldl_nil, State.reset]

end Machine

end Sys2Proof

namespace Sys2Proof.Proofs

open Sys2Proof.Machine Sys2Proof.Statements

/-- Settles O3: each word is the encoding of the instruction its vector gives. -/
theorem decodeVectorWords : Obligations.DecodeVectorWords := by
  unfold Obligations.DecodeVectorWords
  and_intros <;> exact decode_eq_of_encode_eq (by decide) (by decide)

/-- Settles O37: the launch is accepted, and each field is built from it as `State.reset` has it. -/
theorem resetIsConstruction : Obligations.ResetIsConstruction := construct_default

/-- Settles O31: `State.reset` is a construction, and every construction meets the invariant. -/
theorem invariantAtReset : Obligations.InvariantAtReset :=
  invariantAtConstruction Launch.default State.reset Nat.one_le_two_pow (Nat.le_refl _) construct_default

end Sys2Proof.Proofs
